-- ==== Sys2Proof/Word.lean ====
section
/-! DEFINITION. The widths of the hardware: every quantity is an unsigned bit vector (00_scope.md R9, R10, R11). -/

namespace Sys2Proof

/-- A byte: 8 bits, unsigned (R11). -/
abbrev Byte := BitVec 8

/-- A 16-bit field: MessageID, the flags word, the counts, TYPE, CLASS, RDLENGTH (R9). -/
abbrev Word16 := BitVec 16

/-- A 32-bit field: TTL and ADDR (R9, R21). -/
abbrev Word32 := BitVec 32

end Sys2Proof
end

