-- ==== Sys2Proof/Config.lean ====
section
/-! DEFINITION. The constants the spec fixes (00_scope.md R7, R8; 10_state.md R40) and the free values
(60_exceptions.md R252, 70_reset_and_hazards.md R271, R281). RX_CAP is no constant here: it is an argument of the
model, held as plain data in State (DESIGN CHOICE, unsafe, log entry 5). -/

namespace Sys2Proof.Config

/-- HEADER_LEN (R7): a message header is 12 bytes. -/
def headerLen : Nat := 12

/-- RR_FIXED_LEN (R7): TYPE, CLASS, TTL and RDLENGTH together are 10 bytes. -/
def rrFixedLen : Nat := 10

/-- MAX_LABEL (R7): a label of a name has at most 63 bytes. -/
def maxLabel : Nat := 63

/-- MAX_NAME_WIRE (R7): the wire form of a name has at most 255 bytes. -/
def maxNameWire : Nat := 255

/-- SEP (R7): the byte 0x2E that separates labels in the text form. -/
def sep : Byte := 0x2E

/-- First byte of PTR_QNAME (R7, R104). -/
def ptrHi : Byte := 0xC0

/-- Second byte of PTR_QNAME (R7, R104). -/
def ptrLo : Byte := 0x0C

/-- QTYPE_A (R7, R101). -/
def typeA : Word16 := 1

/-- QCLASS_IN (R7, R102). -/
def classIn : Word16 := 1

/-- RD_QUERY (R8, D8): the RD bit of a query; kept by name so that it can be mended in one place (DESIGN CHOICE, unsafe, log entry 6). -/
def rdQuery : BitVec 1 := 1

/-- NAME_CAP (R8, R40). -/
def nameCap : Nat := 512

/-- TX_CAP (R8, R40): 12 + 255 + 4, the longest query. -/
def txCap : Nat := 271

/-- Q_CAP (R8, R40). -/
def qCap : Nat := 512

/-- OWNER_CAP (R8, R40). -/
def ownerCap : Nat := 253

/-- ADDRSTR_CAP (R8, R40). -/
def addrstrCap : Nat := 15

/-- The default of RX_CAP (R8, G3), the value State.reset gives the model argument (DESIGN CHOICE, unsafe, log entry 5). -/
def rxCapDefault : Word16 := 512

/-- FREE VALUE (R252, U14; DESIGN CHOICE, safe, log entry 7): the k-th value the entropy source delivers; no law is assumed of it. -/
opaque draw16 : Nat → Word16

/-- FREE VALUE (R281, U12; DESIGN CHOICE, safe, log entry 11): what the k-th host read made while BUSY = 1 returns. -/
opaque busyRead : Nat → Word32

/-- FREE VALUE (R271, U13; DESIGN CHOICE, unsafe, log entry 29): does a reset that abandons a command waiting for its draw
leave the entropy source with that draw, the k-th, consumed? That it depends on k alone, so that two resets that abandon a
wait for one and the same draw answer alike, is the model's choice. -/
opaque abortTakesDraw : Nat → Bool

end Sys2Proof.Config
end

