-- ==== Sys2Proof/Machine/State.lean ====
section
/-! DEFINITION. The state of the block (10_state.md R20, R21, R40), the host actions waiting at its port, the
reasons a step can stop, and the state after reset (R47, R270). -/

namespace Sys2Proof.Machine

/-- A buffer space's bytes: (index, byte) pairs, indices strictly rising; an index that is not listed holds NO
value (R42, U11): reading it is a fault, never a default. -/
abbrev Memory := List Host.Cell

/-- The six buffer spaces (R40). -/
inductive Space where
  | name | tx | rx | q | owner | addrstr
deriving DecidableEq, Repr

/-- The 35 registers (R21), in the order of their numbers 0 to 34. -/
inductive Reg where
  | cmd | status | errcode | errsub | dstate | cur | namelen | txlen | rxlen | qlen | ansoff
  | id | flags | qdcount | ancount | nscount | arcount
  | qr | opcode | aa | tc | rd | ra | rcode
  | ownerkind | ownerlen | namecons
  | atype | aclass | ttl | rdlength | rdoff | addrvalid | addr | addrstrlen
deriving DecidableEq, Repr

/-- Access rights of a register from the host's side (R21). -/
inductive Access where
  | rw   -- read and write
  | ro   -- read only: a host write is ignored
  | wo   -- write only: a host read returns 0
deriving DecidableEq, Repr

/-- The Decoder's states (R28, R204), in the source's order. -/
inductive DState where
  | awaitingHeader | awaitingQuestionSkip | awaitingOwnerName | awaitingFixedFields | awaitingRData | done
deriving DecidableEq, Repr

/-- The sub-causes with which a command can end in an error (R231), one constructor per row of the table. -/
inductive Cause where
  | labelTooLong | nameTooLong | emptyLabel                       -- EncodingError
  | shortHeader                                                   -- MalformedHeaderError
  | noOwnerBytes | nameRunsOut | fixedFields | rdata              -- TruncatedAnswerError
  | otherPointer | reservedLabelType | literalTooLong             -- UnsupportedNameEncodingError
  | unknownCommand | badLength                                    -- CommandError
deriving DecidableEq, Repr

/-- One action of the host, or of what stands outside the block, at the block's port (R21, R24, R40, R65, R126,
R270). A step of the model performs one (DESIGN CHOICE, safe, log entry 1). -/
inductive HostAction where
  /-- The host writes `value` to register number `num`; a write to number 0 (CMD) starts a command (R24). -/
  | writeReg (num : Nat) (value : Nat)
  /-- The host reads register number `num`. -/
  | readReg (num : Nat)
  /-- The host writes one byte of a buffer space. -/
  | writeByte (space : Space) (index : Nat) (value : Byte)
  /-- The host reads one byte of a buffer space. -/
  | readByte (space : Space) (index : Nat)
  /-- The reset event (R270). -/
  | reset
  /-- The entropy source answers requests from here on, or stops answering (R253; DESIGN CHOICE, unsafe, log entry 28). -/
  | entropy (ready : Bool)
deriving DecidableEq, Repr

/-- The header group (R30): registers ID, FLAGS, QDCOUNT, ANCOUNT, NSCOUNT, ARCOUNT. -/
structure Header where
  id      : Word16
  flags   : Word16
  qdcount : Word16
  ancount : Word16
  nscount : Word16
  arcount : Word16
deriving DecidableEq, Repr

/-- The flag-field group (R30): registers QR, OPCODE, AA, TC, RD, RA, RCODE. -/
structure FlagFields where
  qr     : BitVec 1
  opcode : BitVec 4
  aa     : BitVec 1
  tc     : BitVec 1
  rd     : BitVec 1
  ra     : BitVec 1
  rcode  : BitVec 4
deriving DecidableEq, Repr

/-- The owner group (R31): registers OWNERKIND, OWNERLEN, NAMECONS and the OWNER buffer. -/
structure Owner where
  kind     : BitVec 2
  len      : BitVec 8
  namecons : BitVec 8
  buf      : Memory
deriving DecidableEq, Repr

/-- The answer group without the owner group (R32, R35): registers ATYPE, ACLASS, TTL, RDLENGTH, RDOFF,
ADDRVALID, ADDR, ADDRSTRLEN and the ADDRSTR buffer. -/
structure Answer where
  atype      : Word16
  aclass     : Word16
  ttl        : Word32
  rdlength   : Word16
  rdoff      : Word16
  addrvalid  : BitVec 1
  addr       : Word32
  addrstrlen : BitVec 4
  addrstr    : Memory
deriving DecidableEq, Repr

/-- The whole state. The fields down to `q` are the spec's (R20: 35 registers, six buffer spaces); the last six
are the MODEL'S own: what stands outside the block and a step needs as data. -/
structure State where
  /-- Register 0, CMD: the code just written, consumed at once by the command it starts (R24, R81); a command that waits
  for its draw (R253) leaves its code here until it ends. -/
  cmd     : BitVec 8
  /-- Register 1, STATUS: bit 0 BUSY, bit 1 DONE, bit 2 ERR (R25). -/
  status  : BitVec 3
  /-- Register 2 (R26). -/
  errcode : BitVec 3
  /-- Register 3 (R26). -/
  errsub  : BitVec 4
  /-- Register 4 (R28). -/
  dstate  : BitVec 3
  /-- Register 5, the cursor (R27). -/
  cur     : Word16
  /-- Register 6. -/
  namelen : BitVec 9
  /-- Register 7. -/
  txlen   : BitVec 9
  /-- Register 8. -/
  rxlen   : Word16
  /-- Register 9. -/
  qlen    : BitVec 9
  /-- Register 10 (R29). -/
  ansoff  : Word16
  /-- Registers 11 to 16 (R30). -/
  hdr     : Header
  /-- Registers 17 to 23 (R30). -/
  fld     : FlagFields
  /-- Registers 24 to 26 and the OWNER space (R31). -/
  own     : Owner
  /-- Registers 27 to 34 and the ADDRSTR space (R32). -/
  ans     : Answer
  /-- The NAME space (R40). -/
  name    : Memory
  /-- The TX space (R40). -/
  tx      : Memory
  /-- The RX space (R40). -/
  rx      : Memory
  /-- The Q space (R40, R189). -/
  q       : Memory
  /-- MODEL: RX_CAP, the model argument of R8, 1 to 65535 (`Safety.Inv`); no step changes it (DESIGN CHOICE, unsafe, log entry 5). -/
  rxCap   : Word16
  /-- MODEL: how many draws the entropy source has delivered; the next one is `Config.draw16 draws` (DESIGN CHOICE, safe, log entry 7). -/
  draws   : Nat
  /-- MODEL: does the entropy source answer a request now (R253)? If not, a command that needs a draw stays busy
  (DESIGN CHOICE, unsafe, log entry 28). -/
  entropyReady : Bool
  /-- MODEL: how many host reads met BUSY = 1; the next one returns `Config.busyRead busyReads` (DESIGN CHOICE, safe, log entry 11). -/
  busyReads : Nat
  /-- MODEL: what the last host read delivered, none before the first (DESIGN CHOICE, safe, log entry 15). -/
  readData : Option Word32
  /-- MODEL: the host actions still to come, the next one first (DESIGN CHOICE, safe, log entry 1). -/
  host    : List HostAction
deriving DecidableEq, Repr

/-- Why the machine stops with a fault. Every one is a fault of the HOST: the block itself reports its errors in
STATUS, ERRCODE and ERRSUB and goes on (R230 to R239). -/
inductive Fault where
  /-- A byte that holds no value is read: by a command (a byte the host never wrote below the length register) or by
  the host (such a byte, or one at or above a block-written length). Raised by `readByte`. SAFE: the spec gives the
  byte no value (R42, R273, R285, U11). -/
  | unwrittenByte (space : Space) (index : Nat)
  /-- The host reaches a register number above 34. Raised by `hostAct`. SAFE: there are 35 registers (R21). -/
  | noSuchRegister (num : Nat)
  /-- The host reaches an index at or above a space's capacity. Raised by `hostAct`. SAFE: an address is an index
  from 0 to capacity - 1 (R60). -/
  | noSuchByte (space : Space) (index : Nat)
deriving DecidableEq, Repr

/-- Why the model gives a step no meaning. -/
inductive Refusal where
  /-- The command has no meaning yet. Raised by exec's refused arms alone (none is left). SAFE: nothing is claimed. -/
  | notModelled (mnemonic : String)
  /-- The host writes a byte of TX, OWNER or ADDRSTR while the block is not busy. Raised by `hostAct`. SAFE: the
  spec lets the host only read these spaces (R40, R60) and gives such a write no effect (DESIGN CHOICE, safe, log entry 12). -/
  | blockBufferWrite (space : Space)
deriving DecidableEq, Repr

/-- The header group with every register 0 (R47). -/
def Header.zero : Header := ⟨0, 0, 0, 0, 0, 0⟩

/-- The flag-field group with every register 0 (R47). -/
def FlagFields.zero : FlagFields := ⟨0, 0, 0, 0, 0, 0, 0⟩

/-- The owner group with every register 0 and no byte of OWNER valid (R47). -/
def Owner.zero : Owner := ⟨0, 0, 0, []⟩

/-- The answer group with every register 0 and no byte of ADDRSTR valid (R47). -/
def Answer.zero : Answer := ⟨0, 0, 0, 0, 0, 0, 0, 0, []⟩

/-- The machine right after reset (R47, R270): every register 0, no buffer byte with a value. The last six fields
are the model's own, and so are their values here (DESIGN CHOICE, unsafe, log entry 22). -/
def State.reset : State where
  cmd := 0
  status := 0
  errcode := 0
  errsub := 0
  dstate := 0
  cur := 0
  namelen := 0
  txlen := 0
  rxlen := 0
  qlen := 0
  ansoff := 0
  hdr := Header.zero
  fld := FlagFields.zero
  own := Owner.zero
  ans := Answer.zero
  name := []
  tx := []
  rx := []
  q := []
  rxCap := Config.rxCapDefault
  draws := 0
  entropyReady := true
  busyReads := 0
  readData := none
  host := []

end Sys2Proof.Machine
end

