-- ==== Sys2Proof/Syntax.lean ====
section
/-! DEFINITION. The instructions: the eleven commands of 30_encoding.md R120. A command has no operand field
(R121): its operands are the registers and buffers of 10_state.md R35. -/

namespace Sys2Proof

/-- The command table (R120), in the table's order. -/
inductive Instr where
  | packFlags       -- 0x01 PACK_FLAGS, R141
  | unpackFlags     -- 0x02 UNPACK_FLAGS, R143
  | buildHeader     -- 0x10 BUILD_HEADER, R152
  | encodeName      -- 0x11 ENCODE_NAME, R160
  | buildQuestion   -- 0x12 BUILD_QUESTION, R163
  | buildQuery      -- 0x13 BUILD_QUERY, R165
  | parseHeader     -- 0x20 PARSE_HEADER, R182
  | skipQuestion    -- 0x21 SKIP_QUESTION, R186
  | resolveOwner    -- 0x22 RESOLVE_OWNER, R190
  | parseAnswer     -- 0x23 PARSE_ANSWER, R196
  | decode          -- 0x24 DECODE, R203
deriving DecidableEq, Repr

end Sys2Proof
end

