-- ==== Sys2Proof/WellFormed.lean ====
section
/-! DEFINITION. What is well formed: a command code (30_encoding.md R120, R122), an instruction (R121), and an
action of the host at the block's port (10_state.md R21, R40; 20_memory.md R60). -/

namespace Sys2Proof

/-- R122: the codes that select a command; every other 8-bit value is an illegal command. -/
def wellFormedCode (c : Byte) : Bool :=
  c == 0x01 || c == 0x02 || (0x10 ≤ c.toNat && c.toNat ≤ 0x13) || (0x20 ≤ c.toNat && c.toNat ≤ 0x24)

/-- R121: a command has no immediates, no register specifiers and no mode bits, so that there is no operand value
that could be out of range: every constructor is well formed as it stands. -/
def Instr.wellFormed : Instr → Bool
  | .packFlags => true
  | .unpackFlags => true
  | .buildHeader => true
  | .encodeName => true
  | .buildQuestion => true
  | .buildQuery => true
  | .parseHeader => true
  | .skipQuestion => true
  | .resolveOwner => true
  | .parseAnswer => true
  | .decode => true

/-- R40: the spaces the host may write; TX, OWNER and ADDRSTR it only reads. -/
def hostWrites : Machine.Space → Bool
  | .name => true
  | .rx => true
  | .q => true
  | .tx => false
  | .owner => false
  | .addrstr => false

/-- R40: the capacity of a space; RX_CAP is the model argument. -/
def spaceCap (rxCap : Word16) : Machine.Space → Nat
  | .name => Config.nameCap
  | .tx => Config.txCap
  | .rx => rxCap.toNat
  | .q => Config.qCap
  | .owner => Config.ownerCap
  | .addrstr => Config.addrstrCap

/-- R21, R40, R60: a host action that names a register the block has (0 to 34) or an index inside its space, and
writes no byte of a space the host only reads. -/
def HostAction.wellFormed (rxCap : Word16) : Machine.HostAction → Bool
  | .writeReg n _ => n < 35
  | .readReg n => n < 35
  | .writeByte sp i _ => hostWrites sp && i < spaceCap rxCap sp
  | .readByte sp i => i < spaceCap rxCap sp
  | .reset => true
  | .entropy _ => true

end Sys2Proof
end

