-- ==== Sys2Proof/Decode.lean ====
section
/-! DEFINITION. The command decoder and encoder: the table of 30_encoding.md R120 and nothing else (R121). -/

namespace Sys2Proof

/-- Why a code is no command (R122). -/
inductive DecodeError where
  | unknownCommand (code : Byte)
deriving DecidableEq, Repr

/-- A row of the command table: `code &&& mask = pattern` selects the command (R120). -/
structure CommandRow where
  mask    : Byte
  pattern : Byte
  instr   : Instr
deriving DecidableEq, Repr

/-- R120: match = code, mask = 0xFF, for each of the eleven commands. -/
def commandTable : List CommandRow :=
  [ ⟨0xFF, 0x01, .packFlags⟩, ⟨0xFF, 0x02, .unpackFlags⟩,
    ⟨0xFF, 0x10, .buildHeader⟩, ⟨0xFF, 0x11, .encodeName⟩, ⟨0xFF, 0x12, .buildQuestion⟩, ⟨0xFF, 0x13, .buildQuery⟩,
    ⟨0xFF, 0x20, .parseHeader⟩, ⟨0xFF, 0x21, .skipQuestion⟩, ⟨0xFF, 0x22, .resolveOwner⟩,
    ⟨0xFF, 0x23, .parseAnswer⟩, ⟨0xFF, 0x24, .decode⟩ ]

/-- Does the row select the code (R120)? -/
def CommandRow.selects (r : CommandRow) (c : Byte) : Bool := c &&& r.mask == r.pattern

/-- The first row that selects the code, over any list of rows. -/
def decodeWith (c : Byte) : List CommandRow → Except DecodeError Instr
  | [] => .error (.unknownCommand c)
  | r :: rs => if r.selects c then .ok r.instr else decodeWith c rs

/-- R120 to R122: the command an 8-bit code selects, or the refusal of an illegal command. -/
def decode (c : Byte) : Except DecodeError Instr := decodeWith c commandTable

/-- R120: the code of a command. -/
def encode : Instr → Byte
  | .packFlags => 0x01
  | .unpackFlags => 0x02
  | .buildHeader => 0x10
  | .encodeName => 0x11
  | .buildQuestion => 0x12
  | .buildQuery => 0x13
  | .parseHeader => 0x20
  | .skipQuestion => 0x21
  | .resolveOwner => 0x22
  | .parseAnswer => 0x23
  | .decode => 0x24

/-- The instruction read from a code whose bits are `w`, bit 0 its least significant bit, of `nbits` bits as the
opcode table gives them (always 8, R121); the register CMD keeps the low 8 bits of what is written (R22). -/
def decodeTableWord (nbits w : Nat) : Option Instr :=
  match decode (BitVec.ofNat 8 (w % 2 ^ nbits)) with
  | .ok i => some i
  | .error _ => none

end Sys2Proof
end

