-- ==== Sys2Proof/Machine/Flags.lean ====
section
/-! DEFINITION. The flags word (40_flags.md R140, R142), the STATUS bits (10_state.md R25) and the numbers of the
errors, their sub-causes and the decoder's states (60_exceptions.md R231; 10_state.md R28; 42_decoder.md R204). -/

namespace Sys2Proof.Machine

/-- R140: `packFlags`, by shifts and or; the three reserved bits are 0. -/
def packFlags (f : FlagFields) : Word16 :=
  (f.qr.setWidth 16 <<< 15) ||| (f.opcode.setWidth 16 <<< 11) ||| (f.aa.setWidth 16 <<< 10)
    ||| (f.tc.setWidth 16 <<< 9) ||| (f.rd.setWidth 16 <<< 8) ||| (f.ra.setWidth 16 <<< 7)
    ||| f.rcode.setWidth 16

/-- R142: `unpackFlags`, by mask and shift (R93); bits 6:4 feed no output. -/
def unpackFlags (w : Word16) : FlagFields where
  qr     := ((w &&& 0x8000#16) >>> 15).setWidth 1
  opcode := ((w &&& 0x7800#16) >>> 11).setWidth 4
  aa     := ((w &&& 0x0400#16) >>> 10).setWidth 1
  tc     := ((w &&& 0x0200#16) >>> 9).setWidth 1
  rd     := ((w &&& 0x0100#16) >>> 8).setWidth 1
  ra     := ((w &&& 0x0080#16) >>> 7).setWidth 1
  rcode  := (w &&& 0x000F#16).setWidth 4

/-- STATUS while a command runs (R24): BUSY = 1, DONE = 0, ERR = 0. -/
def statusBusy : BitVec 3 := 0b001

/-- STATUS after a success (R235): BUSY = 0, DONE = 1, ERR = 0. -/
def statusDone : BitVec 3 := 0b010

/-- STATUS after an error (R234, R236): BUSY = 0, DONE = 1, ERR = 1. -/
def statusError : BitVec 3 := 0b110

/-- STATUS bit 0, BUSY (R25). -/
def State.busy (s : State) : Bool := s.status.getLsbD 0

/-- STATUS bit 1, DONE (R25). -/
def State.doneBit (s : State) : Bool := s.status.getLsbD 1

/-- STATUS bit 2, ERR (R25). -/
def State.err (s : State) : Bool := s.status.getLsbD 2

/-- R26, R231: ERRCODE of a cause: 1 EncodingError, 2 MalformedHeaderError, 3 TruncatedAnswerError,
4 UnsupportedNameEncodingError, 5 CommandError. -/
def Cause.code : Cause → BitVec 3
  | .labelTooLong => 1
  | .nameTooLong => 1
  | .emptyLabel => 1
  | .shortHeader => 2
  | .noOwnerBytes => 3
  | .nameRunsOut => 3
  | .fixedFields => 3
  | .rdata => 3
  | .otherPointer => 4
  | .reservedLabelType => 4
  | .literalTooLong => 4
  | .unknownCommand => 5
  | .badLength => 5

/-- R231: ERRSUB of a cause. -/
def Cause.sub : Cause → BitVec 4
  | .labelTooLong => 1
  | .nameTooLong => 2
  | .emptyLabel => 3
  | .shortHeader => 1
  | .noOwnerBytes => 1
  | .nameRunsOut => 2
  | .fixedFields => 3
  | .rdata => 4
  | .otherPointer => 1
  | .reservedLabelType => 2
  | .literalTooLong => 3
  | .unknownCommand => 1
  | .badLength => 2

/-- R28: the number DSTATE shows for a state of the Decoder. -/
def DState.num : DState → BitVec 3
  | .awaitingHeader => 0
  | .awaitingQuestionSkip => 1
  | .awaitingOwnerName => 2
  | .awaitingFixedFields => 3
  | .awaitingRData => 4
  | .done => 5

/-- R204: the state of the Decoder in which a cause arises (DEDUCED, safe, log entry 20). The causes no decoder stage raises (the encoder's and
CommandError) have none: no rule writes DSTATE for them (R35, R234). -/
def Cause.stage : Cause → Option DState
  | .shortHeader => some .awaitingHeader
  | .noOwnerBytes => some .awaitingOwnerName
  | .nameRunsOut => some .awaitingOwnerName
  | .otherPointer => some .awaitingOwnerName
  | .reservedLabelType => some .awaitingOwnerName
  | .literalTooLong => some .awaitingOwnerName
  | .fixedFields => some .awaitingFixedFields
  | .rdata => some .awaitingRData
  | .labelTooLong => none
  | .nameTooLong => none
  | .emptyLabel => none
  | .unknownCommand => none
  | .badLength => none

end Sys2Proof.Machine
end

