-- ==== Sys2Proof/Machine/Ops.lean ====
section
/-! DEFINITION. The named operations: bytes of a buffer space, byte order (20_memory.md R61), the start of a command
(10_state.md R24), its wait for a draw (60_exceptions.md R253), its completion with success (60_exceptions.md R235), with an error (R236) or as CommandError
(R234), the write sets (10_state.md R35) and the updates of single groups. -/

namespace Sys2Proof.Machine

/-! ### Bytes of a space -/

/-- The byte at an index, or none where the index holds no value (R42). -/
def Memory.read : Memory → Nat → Option Byte
  | [], _ => none
  | (x, b) :: m, a => if x = a then some b else Memory.read m a

/-- Write one byte, keeping the indices strictly rising. -/
def Memory.write : Memory → Nat → Byte → Memory
  | [], a, b => [(a, b)]
  | (x, c) :: m, a, b =>
    if a < x then (a, b) :: (x, c) :: m
    else if a = x then (a, b) :: m
    else (x, c) :: Memory.write m a b

/-- The space that holds exactly the bytes `bs`, the first at index `base`. -/
def Memory.ofBytes : Nat → List Byte → Memory
  | _, [] => []
  | base, b :: bs => (base, b) :: Memory.ofBytes (base + 1) bs

/-- The canonical form: indices strictly rising (so no index twice); no entry can equal what an unlisted index
reads as, since that is no value at all. -/
def Memory.wf : Memory → Bool
  | [] => true
  | [_] => true
  | (x, _) :: (y, c) :: m => decide (x < y) && Memory.wf ((y, c) :: m)

/-- Every listed index lies below `cap`. -/
def Memory.below (cap : Nat) (m : Memory) : Bool := m.all (fun cell => decide (cell.1 < cap))

/-! ### Byte order (R12, R61) -/

/-- R12: two bytes as a 16-bit value, the first the more significant. -/
def be16 (b0 b1 : Byte) : Word16 := b0 ++ b1

/-- R12: four bytes as a 32-bit value, the first the most significant. -/
def be32 (b0 b1 b2 b3 : Byte) : Word32 := b0 ++ b1 ++ b2 ++ b3

/-- R12: a 16-bit value as bytes, the most significant first. -/
def bytes16 (v : Word16) : List Byte := [v.extractLsb' 8 8, v.extractLsb' 0 8]

/-- R12: a 32-bit value as bytes, the most significant first. -/
def bytes32 (v : Word32) : List Byte :=
  [v.extractLsb' 24 8, v.extractLsb' 16 8, v.extractLsb' 8 8, v.extractLsb' 0 8]

/-! ### Results of the work inside a command -/

/-- What a piece of a command's work ends in: a value, `raise E(sub, pos)` (R14, R236), or a read of a byte that
holds no value. -/
inductive Res (α : Type) where
  | ok (a : α)
  | raise (cause : Cause) (pos : Nat)
  | fault (f : Fault)
deriving Repr, DecidableEq

/-- Go on with the value; a raise or a fault ends the work at once (R14). -/
def Res.bind {α β : Type} (r : Res α) (k : α → Res β) : Res β :=
  match r with
  | .ok a => k a
  | .raise c p => .raise c p
  | .fault f => .fault f

/-- Read one byte of a space; a byte that holds no value is a fault of the host (R42, R273; DEDUCED, safe, log entry 8). -/
def readByte (sp : Space) (m : Memory) (a : Nat) : Res Byte :=
  match m.read a with
  | some b => .ok b
  | none => .fault (.unwrittenByte sp a)

/-- Read `k` bytes of a space from index `a` on, in order. -/
def readBytes (sp : Space) (m : Memory) : Nat → Nat → Res (List Byte)
  | _, 0 => .ok []
  | a, k + 1 => (readByte sp m a).bind fun b => (readBytes sp m (a + 1) k).bind fun bs => .ok (b :: bs)

/-! ### Updates of single groups -/

def State.setFld (s : State) (f : FlagFields) : State := { s with fld := f }
def State.setHdr (s : State) (h : Header) : State := { s with hdr := h }
def State.setFlags (s : State) (w : Word16) : State := { s with hdr := { s.hdr with flags := w } }
def State.setAnsoff (s : State) (a : Nat) : State := { s with ansoff := BitVec.ofNat 16 a }
def State.setOwn (s : State) (o : Owner) : State := { s with own := o }
def State.setAns (s : State) (a : Answer) : State := { s with ans := a }
def State.setCur (s : State) (p : Nat) : State := { s with cur := BitVec.ofNat 16 p }
def State.setDstate (s : State) (d : DState) : State := { s with dstate := d.num }

/-- R72: the bytes a command emitted from index 0 on, and TXLEN; bytes at and above TXLEN have no value (R42; DEDUCED,
safe, log entry 9). -/
def State.setTx (s : State) (bs : List Byte) : State :=
  { s with tx := Memory.ofBytes 0 bs, txlen := BitVec.ofNat 9 bs.length }

/-- R252: the entropy source has delivered one more draw. -/
def State.takeDraw (s : State) : State := { s with draws := s.draws + 1 }

/-- R253: the entropy source answers requests from here on, or stops answering. -/
def State.setEntropy (s : State) (ready : Bool) : State := { s with entropyReady := ready }

/-- R24, R22: the code a host write to CMD leaves there, its low 8 bits. -/
def State.latchCmd (s : State) (v : Nat) : State := { s with cmd := BitVec.ofNat 8 v }

/-- R81: the command is consumed; CMD holds no readable value (R24). -/
def State.consumeCmd (s : State) : State := { s with cmd := 0 }

/-! ### Start and completion of a command -/

/-- R24: what starting a command writes. -/
def State.start (s : State) : State := { s with status := statusBusy, errcode := 0, errsub := 0 }

/-- R253: THE HOLD. The command has started (R24), waits for its draw and stays busy; nothing else is written. Its code
stands in CMD, so that the entropy source's answer can take it up again (DESIGN CHOICE, unsafe, log entry 28). -/
def State.hold (s : State) (i : Instr) : State := { s.start with cmd := encode i }

/-- R235: completion with success. -/
def State.succeed (s : State) : State := { s with status := statusDone, errcode := 0, errsub := 0 }

/-- R234: CommandError writes STATUS, ERRCODE and ERRSUB and nothing else. -/
def State.commandError (s : State) (c : Cause) : State :=
  { s with status := statusError, errcode := c.code, errsub := c.sub }

/-- A write set (R35): which groups a command writes besides STATUS, ERRCODE and ERRSUB. -/
structure WriteSet where
  /-- FLAGS (part of the header group). -/
  flags  : Bool := false
  /-- The header group less FLAGS. -/
  hdr    : Bool := false
  /-- The flag-field group. -/
  fld    : Bool := false
  /-- TX and TXLEN. -/
  tx     : Bool := false
  /-- ANSOFF. -/
  ansoff : Bool := false
  /-- The owner group with the OWNER buffer. -/
  own    : Bool := false
  /-- The answer group with the ADDRSTR buffer. -/
  ans    : Bool := false
  /-- CUR. -/
  cur    : Bool := false
  /-- DSTATE. -/
  dstate : Bool := false
deriving DecidableEq, Repr

/-- R35: the table of write sets. -/
def writeSet : Instr → WriteSet
  | .packFlags => { flags := true }
  | .unpackFlags => { fld := true }
  | .buildHeader => { flags := true, hdr := true, fld := true, tx := true }
  | .encodeName => { tx := true, cur := true }
  | .buildQuestion => { tx := true, cur := true }
  | .buildQuery => { flags := true, hdr := true, fld := true, tx := true, cur := true }
  | .parseHeader => { flags := true, hdr := true, fld := true, cur := true, dstate := true }
  | .skipQuestion => { ansoff := true, cur := true, dstate := true }
  | .resolveOwner => { own := true, cur := true, dstate := true }
  | .parseAnswer => { own := true, ans := true, cur := true, dstate := true }
  | .decode =>
    { flags := true, hdr := true, fld := true, ansoff := true, own := true, ans := true, cur := true, dstate := true }

/-- The header group with the registers of the write set at 0 (R236). -/
def Header.clear (w : WriteSet) (h : Header) : Header where
  id      := if w.hdr then 0 else h.id
  flags   := if w.flags then 0 else h.flags
  qdcount := if w.hdr then 0 else h.qdcount
  ancount := if w.hdr then 0 else h.ancount
  nscount := if w.hdr then 0 else h.nscount
  arcount := if w.hdr then 0 else h.arcount

/-- R236: every register of the write set other than CUR and DSTATE becomes 0; a block-written buffer of the write
set has no valid byte left. -/
def State.clear (w : WriteSet) (s : State) : State :=
  { s with
    hdr    := s.hdr.clear w
    fld    := if w.fld then FlagFields.zero else s.fld
    tx     := if w.tx then [] else s.tx
    txlen  := if w.tx then 0 else s.txlen
    ansoff := if w.ansoff then 0 else s.ansoff
    own    := if w.own then Owner.zero else s.own
    ans    := if w.ans then Answer.zero else s.ans }

/-- R236: TAKING AN ERROR of code 1 to 4, `raise E(sub, pos)`, for a command whose write set is `w`. There is no
handler address, no saved state and no change of mode: control goes nowhere, the host reads STATUS. -/
def State.fail (w : WriteSet) (c : Cause) (pos : Nat) (s : State) : State :=
  { s.clear w with
    cur := if w.cur then BitVec.ofNat 16 pos else s.cur
    dstate := if w.dstate then (match c.stage with | some d => d.num | none => s.dstate) else s.dstate
    errcode := c.code
    errsub := c.sub
    status := statusError }

/-- The end of a command: its results written and success (R235), an error (R236), or a fault of the host. -/
def conclude {α : Type} (w : WriteSet) (s : State) (r : Res α) (results : α → State) :
    Host.Outcome State Fault Refusal :=
  match r with
  | .ok a => .next (results a).succeed
  | .raise c p => .next (s.fail w c p)
  | .fault f => .fault f

/-- R252, R253: a command that needs a draw goes on with the next value the entropy source delivers, whatever it is, or
stays busy where the source does not answer. -/
def withDraw (i : Instr) (s : State) (k : Word16 → State → Host.Outcome State Fault Refusal) :
    Host.Outcome State Fault Refusal :=
  if s.entropyReady then k (Config.draw16 s.draws) s.takeDraw else .next (s.hold i)

/-- R180, R234: a command that reads RX first tests RXLEN <= RX_CAP; if that fails it did not run. -/
def guardRxLen (s : State) (k : Host.Outcome State Fault Refusal) : Host.Outcome State Fault Refusal :=
  if s.rxCap.toNat < s.rxlen.toNat then .next (s.commandError .badLength) else k

end Sys2Proof.Machine
end

