-- ==== Sys2Proof/Machine/Operands.lean ====
section
/-! DEFINITION. The operands of commands and of host accesses: the bounds-checked reads of RX (20_memory.md R70),
the reads of NAME (R71), and the registers by number, with width and access (10_state.md R21 to R23). -/

namespace Sys2Proof.Machine

/-! ### Bounds-checked reads of RX (R70) -/

/-- R70: the bytes remaining at cursor `c` of a message of `n` bytes, 0 beyond its end. -/
def rem (n c : Nat) : Nat := n - c

/-- R70: `NeedRX(c, k, E, sub, pos)`. -/
def needRx (n c k : Nat) (cause : Cause) (pos : Nat) : Res Unit :=
  if rem n c < k then .raise cause pos else .ok ()

/-- R70: `U8(c)`. -/
def rxU8 (m : Memory) (c : Nat) : Res Byte := readByte .rx m c

/-- R70: `U16(c)`, big-endian. -/
def rxU16 (m : Memory) (c : Nat) : Res Word16 :=
  (rxU8 m c).bind fun b0 => (rxU8 m (c + 1)).bind fun b1 => .ok (be16 b0 b1)

/-- R70: `U32(c)`, big-endian. -/
def rxU32 (m : Memory) (c : Nat) : Res Word32 :=
  (rxU8 m c).bind fun b0 => (rxU8 m (c + 1)).bind fun b1 =>
    (rxU8 m (c + 2)).bind fun b2 => (rxU8 m (c + 3)).bind fun b3 => .ok (be32 b0 b1 b2 b3)

/-- R70: `Bytes(c, k)`. -/
def rxBytes (m : Memory) (c k : Nat) : Res (List Byte) := readBytes .rx m c k

/-- R71: `NAME[0..NAMELEN)`. -/
def nameBytes (s : State) : Res (List Byte) := readBytes .name s.name 0 s.namelen.toNat

/-! ### Registers by number (R21) -/

/-- R21: the registers in the order of their numbers. -/
def Reg.all : List Reg :=
  [.cmd, .status, .errcode, .errsub, .dstate, .cur, .namelen, .txlen, .rxlen, .qlen, .ansoff] ++
  [.id, .flags, .qdcount, .ancount, .nscount, .arcount, .qr, .opcode, .aa, .tc, .rd, .ra, .rcode] ++
  [.ownerkind, .ownerlen, .namecons, .atype, .aclass, .ttl, .rdlength, .rdoff, .addrvalid, .addr, .addrstrlen]

/-- R21: the register with a number, if there is one. -/
def Reg.ofNum (n : Nat) : Option Reg := Reg.all[n]?

/-- R21, column W: the width in bits. -/
def Reg.width : Reg → Nat
  | .cmd => 8
  | .status => 3
  | .errcode => 3
  | .errsub => 4
  | .dstate => 3
  | .cur => 16
  | .namelen => 9
  | .txlen => 9
  | .rxlen => 16
  | .qlen => 9
  | .ansoff => 16
  | .id => 16
  | .flags => 16
  | .qdcount => 16
  | .ancount => 16
  | .nscount => 16
  | .arcount => 16
  | .qr => 1
  | .opcode => 4
  | .aa => 1
  | .tc => 1
  | .rd => 1
  | .ra => 1
  | .rcode => 4
  | .ownerkind => 2
  | .ownerlen => 8
  | .namecons => 8
  | .atype => 16
  | .aclass => 16
  | .ttl => 32
  | .rdlength => 16
  | .rdoff => 16
  | .addrvalid => 1
  | .addr => 32
  | .addrstrlen => 4

/-- R21, column access. -/
def Reg.access : Reg → Access
  | .cmd => .wo
  | .namelen => .rw
  | .rxlen => .rw
  | .qlen => .rw
  | .ansoff => .rw
  | .flags => .rw
  | .qr => .rw
  | .opcode => .rw
  | .aa => .rw
  | .tc => .rw
  | .rd => .rw
  | .ra => .rw
  | .rcode => .rw
  | .status => .ro
  | .errcode => .ro
  | .errsub => .ro
  | .dstate => .ro
  | .cur => .ro
  | .txlen => .ro
  | .id => .ro
  | .qdcount => .ro
  | .ancount => .ro
  | .nscount => .ro
  | .arcount => .ro
  | .ownerkind => .ro
  | .ownerlen => .ro
  | .namecons => .ro
  | .atype => .ro
  | .aclass => .ro
  | .ttl => .ro
  | .rdlength => .ro
  | .rdoff => .ro
  | .addrvalid => .ro
  | .addr => .ro
  | .addrstrlen => .ro

/-- What a host read of a register delivers, zero-extended to 32 bits (DESIGN CHOICE, unsafe, log entry 23): the register whole (R21), or 0
for the write-only CMD. -/
def regRead (s : State) : Reg → Word32
  | .cmd => 0
  | .status => s.status.setWidth 32
  | .errcode => s.errcode.setWidth 32
  | .errsub => s.errsub.setWidth 32
  | .dstate => s.dstate.setWidth 32
  | .cur => s.cur.setWidth 32
  | .namelen => s.namelen.setWidth 32
  | .txlen => s.txlen.setWidth 32
  | .rxlen => s.rxlen.setWidth 32
  | .qlen => s.qlen.setWidth 32
  | .ansoff => s.ansoff.setWidth 32
  | .id => s.hdr.id.setWidth 32
  | .flags => s.hdr.flags.setWidth 32
  | .qdcount => s.hdr.qdcount.setWidth 32
  | .ancount => s.hdr.ancount.setWidth 32
  | .nscount => s.hdr.nscount.setWidth 32
  | .arcount => s.hdr.arcount.setWidth 32
  | .qr => s.fld.qr.setWidth 32
  | .opcode => s.fld.opcode.setWidth 32
  | .aa => s.fld.aa.setWidth 32
  | .tc => s.fld.tc.setWidth 32
  | .rd => s.fld.rd.setWidth 32
  | .ra => s.fld.ra.setWidth 32
  | .rcode => s.fld.rcode.setWidth 32
  | .ownerkind => s.own.kind.setWidth 32
  | .ownerlen => s.own.len.setWidth 32
  | .namecons => s.own.namecons.setWidth 32
  | .atype => s.ans.atype.setWidth 32
  | .aclass => s.ans.aclass.setWidth 32
  | .ttl => s.ans.ttl
  | .rdlength => s.ans.rdlength.setWidth 32
  | .rdoff => s.ans.rdoff.setWidth 32
  | .addrvalid => s.ans.addrvalid.setWidth 32
  | .addr => s.ans.addr
  | .addrstrlen => s.ans.addrstrlen.setWidth 32

/-- What a host write of `v` to a register other than CMD leaves (R21, R22): a read-write register keeps the low
bits of its width, a write to a read-only register is ignored (R67). CMD starts a command instead (R24). -/
def regWrite (s : State) (v : Nat) : Reg → State
  | .namelen => { s with namelen := BitVec.ofNat 9 v }
  | .rxlen => { s with rxlen := BitVec.ofNat 16 v }
  | .qlen => { s with qlen := BitVec.ofNat 9 v }
  | .ansoff => s.setAnsoff v
  | .flags => s.setFlags (BitVec.ofNat 16 v)
  | .qr => { s with fld := { s.fld with qr := BitVec.ofNat 1 v } }
  | .opcode => { s with fld := { s.fld with opcode := BitVec.ofNat 4 v } }
  | .aa => { s with fld := { s.fld with aa := BitVec.ofNat 1 v } }
  | .tc => { s with fld := { s.fld with tc := BitVec.ofNat 1 v } }
  | .rd => { s with fld := { s.fld with rd := BitVec.ofNat 1 v } }
  | .ra => { s with fld := { s.fld with ra := BitVec.ofNat 1 v } }
  | .rcode => { s with fld := { s.fld with rcode := BitVec.ofNat 4 v } }
  | .cmd => s
  | .status => s
  | .errcode => s
  | .errsub => s
  | .dstate => s
  | .cur => s
  | .txlen => s
  | .id => s
  | .qdcount => s
  | .ancount => s
  | .nscount => s
  | .arcount => s
  | .ownerkind => s
  | .ownerlen => s
  | .namecons => s
  | .atype => s
  | .aclass => s
  | .ttl => s
  | .rdlength => s
  | .rdoff => s
  | .addrvalid => s
  | .addr => s
  | .addrstrlen => s

/-! ### Bytes of the spaces from the host's side (R40, R60) -/

/-- The bytes a space holds. -/
def spaceBytes (s : State) : Space → Memory
  | .name => s.name
  | .tx => s.tx
  | .rx => s.rx
  | .q => s.q
  | .owner => s.own.buf
  | .addrstr => s.ans.addrstr

/-- R42, R285: the length below which the host may read a space: the length register of a block-written space, the
capacity of a host-written one (the host may read back what it wrote, R60; DEDUCED, safe, log entry 24). -/
def readableLen (s : State) : Space → Nat
  | .name => Config.nameCap
  | .tx => s.txlen.toNat
  | .rx => s.rxCap.toNat
  | .q => Config.qCap
  | .owner => s.own.len.toNat
  | .addrstr => s.ans.addrstrlen.toNat

/-- One byte written by the host to a space it may write (R40). -/
def storeByte (s : State) (a : Nat) (b : Byte) : Space → State
  | .name => { s with name := s.name.write a b }
  | .rx => { s with rx := s.rx.write a b }
  | .q => { s with q := s.q.write a b }
  | .tx => s
  | .owner => s
  | .addrstr => s

end Sys2Proof.Machine
end

