-- ==== Sys2Proof/Machine/Names.lean ====
section
/-! DEFINITION. Names and addresses: text form and wire form (30_encoding.md R98, R99), the name encoder
(41_encoder.md R153), the owner name of an answer (42_decoder.md R191, R192) and the dotted-quad string (R200). -/

namespace Sys2Proof.Machine

/-! ### Text form (R99) -/

/-- Put a byte in front of the first of a list of labels. -/
def consFirst (b : Byte) : List (List Byte) → List (List Byte)
  | [] => [[b]]
  | l :: ls => (b :: l) :: ls

/-- R99: `split(s)`, the byte strings between the separators; split of the empty string is one empty string. -/
def split : List Byte → List (List Byte)
  | [] => [[]]
  | b :: bs => if b = Config.sep then [] :: split bs else consFirst b (split bs)

/-- R99: `join(ls)`, the labels with a separator between them. -/
def join : List (List Byte) → List Byte
  | [] => []
  | [l] => l
  | l :: l' :: ls => l ++ Config.sep :: join (l' :: ls)

/-! ### Wire form (R98) and the name encoder (R153) -/

/-- R98: the length-prefixed labels, without the terminator. -/
def wireLabels : List (List Byte) → List Byte
  | [] => []
  | l :: ls => BitVec.ofNat 8 l.length :: l ++ wireLabels ls

/-- R98: the wire form of a name: its labels and the zero byte. -/
def wire (ls : List (List Byte)) : List Byte := wireLabels ls ++ [0]

/-- R153, R155, R156: the labels tested left to right; `start` is the index in NAME at which the next one starts. -/
def checkLabels : Nat → List (List Byte) → Res Unit
  | _, [] => .ok ()
  | start, l :: ls =>
    if l.length = 0 then .raise .emptyLabel start
    else if Config.maxLabel < l.length then .raise .labelTooLong start
    else checkLabels (start + l.length + 1) ls

/-- R153: `encodeName` of a name of `n` bytes. The length is tested before any byte is looked at (R154); no byte is
produced before every label has passed (R157). -/
def encodeName (n : Nat) (bytes : Res (List Byte)) : Res (List Byte) :=
  if Config.maxNameWire < n + 2 then .raise .nameTooLong 0
  else bytes.bind fun s => (checkLabels 0 (split s)).bind fun _ => .ok (wire (split s))

/-! ### The owner name (R190 to R193) -/

/-- R31: OWNERKIND 1, the pointer C0 0C. -/
def kindPointer : BitVec 2 := 1

/-- R31: OWNERKIND 2, a literal name. -/
def kindLiteral : BitVec 2 := 2

/-- The triple (kind, text, cons) of R190. -/
structure OwnerName where
  kind : BitVec 2
  text : List Byte
  cons : Nat
deriving DecidableEq, Repr

/-- R192: the literal walk from `c`, at cursor `p` with the labels read so far. The passes are counted down from
`fuel`; 128 passes are enough for every message (DEDUCED, safe, log entry 16), so that the first line is never reached from
`resolveOwner`. -/
def literalWalk (m : Memory) (n c : Nat) : Nat → Nat → List (List Byte) → Res OwnerName
  | 0, p, _ => .raise .literalTooLong p
  | fuel + 1, p, labels =>
    (needRx n p 1 .nameRunsOut p).bind fun _ => (rxU8 m p).bind fun len =>
      if len.toNat = 0 then .ok ⟨kindLiteral, join labels, p + 1 - c⟩
      else if 0xC0 ≤ len.toNat then .raise .otherPointer p
      else if 0x40 ≤ len.toNat then .raise .reservedLabelType p
      else (needRx n (p + 1) len.toNat .nameRunsOut p).bind fun _ =>
        if Config.maxNameWire < (p + 1 + len.toNat - c) + 1 then .raise .literalTooLong p
        else (rxBytes m (p + 1) len.toNat).bind fun label =>
          literalWalk m n c fuel (p + 1 + len.toNat) (labels ++ [label])

/-- The passes `resolveOwner` allows the literal walk (DEDUCED, safe, log entry 16). -/
def walkFuel : Nat := 128

/-- R191: do the next two bytes stand there and are they the pair C0 0C? The second is read only if the first
matches. -/
def pointerAt (m : Memory) (n c : Nat) : Res Bool :=
  if rem n c < 2 then .ok false
  else (rxU8 m c).bind fun b0 =>
    if b0 = Config.ptrHi then (rxU8 m (c + 1)).bind fun b1 => .ok (decide (b1 = Config.ptrLo))
    else .ok false

/-- R191: `resolveOwner(c)` in a message of `n` bytes. -/
def resolveOwner (m : Memory) (n c : Nat) : Res OwnerName :=
  (needRx n c 1 .noOwnerBytes c).bind fun _ => (pointerAt m n c).bind fun isPointer =>
    if isPointer then .ok ⟨kindPointer, [], 2⟩ else literalWalk m n c walkFuel c []

/-- R190, R194: the owner group a resolved name leaves; bytes of OWNER at and above OWNERLEN have no value (R42). -/
def OwnerName.group (o : OwnerName) : Owner where
  kind     := o.kind
  len      := BitVec.ofNat 8 o.text.length
  namecons := BitVec.ofNat 8 o.cons
  buf      := Memory.ofBytes 0 o.text

/-! ### The address string (R200) -/

/-- The ASCII digit of a number below 10. -/
def digit (d : Nat) : Byte := BitVec.ofNat 8 (0x30 + d)

/-- R200: `dec(x)`, the decimal digits of a byte without leading zeros. -/
def dec (b : Byte) : List Byte :=
  if b.toNat < 10 then [digit b.toNat]
  else if b.toNat < 100 then [digit (b.toNat / 10), digit (b.toNat % 10)]
  else [digit (b.toNat / 100), digit (b.toNat % 100 / 10), digit (b.toNat % 10)]

/-- R200: `dottedQuad(a, b, c, d)`. -/
def dottedQuad (a b c d : Byte) : List Byte :=
  dec a ++ [0x2E] ++ dec b ++ [0x2E] ++ dec c ++ [0x2E] ++ dec d

end Sys2Proof.Machine
end

