-- ==== Sys2Proof/Machine/Decoder.lean ====
section
/-! DEFINITION. The family of the Decoder (42_decoder.md): PARSE_HEADER, SKIP_QUESTION, RESOLVE_OWNER, PARSE_ANSWER,
DECODE. -/

namespace Sys2Proof.Machine

/-- R181, R182: stage 0. Twelve bytes are needed; the six fields are read big-endian. -/
def parseHeader (m : Memory) (n : Nat) : Res Header :=
  (needRx n 0 Config.headerLen .shortHeader 0).bind fun _ =>
    (rxU16 m 0).bind fun id => (rxU16 m 2).bind fun flags => (rxU16 m 4).bind fun qd =>
      (rxU16 m 6).bind fun an => (rxU16 m 8).bind fun ns => (rxU16 m 10).bind fun ar =>
        .ok ⟨id, flags, qd, an, ns, ar⟩

/-- R182: the registers a parsed header leaves; the flag fields are those of its FLAGS word (R145). -/
def State.setParsedHeader (s : State) (h : Header) : State := (s.setHdr h).setFld (unpackFlags h.flags)

/-- R186: stage 1, the offset of the answer record. -/
def answerOffset (s : State) : Nat := Config.headerLen + s.qlen.toNat

/-- The ten bytes after the owner name (R197). -/
structure FixedFields where
  atype    : Word16
  aclass   : Word16
  ttl      : Word32
  rdlength : Word16
deriving DecidableEq, Repr

/-- R197: stage 3, at `p`, the index after the owner name. -/
def fixedFields (m : Memory) (n p : Nat) : Res FixedFields :=
  (needRx n p Config.rrFixedLen .fixedFields p).bind fun _ =>
    (rxU16 m p).bind fun ty => (rxU16 m (p + 2)).bind fun cl => (rxU32 m (p + 4)).bind fun ttl =>
      (rxU16 m (p + 8)).bind fun rdlen => .ok ⟨ty, cl, ttl, rdlen⟩

/-- The answer group with an address (R33, R199). -/
def answerWithAddr (f : FixedFields) (q : Nat) (b0 b1 b2 b3 : Byte) : Answer where
  atype := f.atype
  aclass := f.aclass
  ttl := f.ttl
  rdlength := f.rdlength
  rdoff := BitVec.ofNat 16 q
  addrvalid := 1
  addr := be32 b0 b1 b2 b3
  addrstrlen := BitVec.ofNat 4 (dottedQuad b0 b1 b2 b3).length
  addrstr := Memory.ofBytes 0 (dottedQuad b0 b1 b2 b3)

/-- The answer group without an address (R33, R199; DEDUCED, safe, log entry 27). -/
def answerOpaque (f : FixedFields) (q : Nat) : Answer where
  atype := f.atype
  aclass := f.aclass
  ttl := f.ttl
  rdlength := f.rdlength
  rdoff := BitVec.ofNat 16 q
  addrvalid := 0
  addr := 0
  addrstrlen := 0
  addrstr := []

/-- R198, R199: stage 4, at `q`, the index after the fixed fields. RDATA is a window of RX; its bytes are read only
where they are an address. -/
def takeRData (m : Memory) (n : Nat) (f : FixedFields) (q : Nat) : Res Answer :=
  (needRx n q f.rdlength.toNat .rdata q).bind fun _ =>
    if f.atype = Config.typeA ∧ f.rdlength = 4 then
      (rxU8 m q).bind fun b0 => (rxU8 m (q + 1)).bind fun b1 => (rxU8 m (q + 2)).bind fun b2 =>
        (rxU8 m (q + 3)).bind fun b3 => .ok (answerWithAddr f q b0 b1 b2 b3)
    else .ok (answerOpaque f q)

/-- A parsed record: its owner name, its answer group and the index after its RDATA. -/
structure ParsedRecord where
  owner  : OwnerName
  answer : Answer
  stop   : Nat
deriving DecidableEq, Repr

/-- R196: stages 2, 3 and 4 from `c`, the index where the record starts. -/
def parseRecord (m : Memory) (n c : Nat) : Res ParsedRecord :=
  (resolveOwner m n c).bind fun o =>
    (fixedFields m n (c + o.cons)).bind fun f =>
      (takeRData m n f (c + o.cons + Config.rrFixedLen)).bind fun a =>
        .ok ⟨o, a, c + o.cons + Config.rrFixedLen + f.rdlength.toNat⟩

/-- The registers a parsed record leaves (R196). -/
def State.setRecord (s : State) (r : ParsedRecord) : State :=
  (((s.setOwn r.owner.group).setAns r.answer).setCur r.stop).setDstate .done

/-- PARSE_HEADER (R182). -/
def execParseHeader (s : State) : Host.Outcome State Fault Refusal :=
  guardRxLen s.start <|
    conclude (writeSet .parseHeader) s.start (parseHeader s.rx s.rxlen.toNat) fun h =>
      ((s.start.setParsedHeader h).setCur Config.headerLen).setDstate .awaitingQuestionSkip

/-- SKIP_QUESTION (R186): reads QLEN alone and cannot fail. Its results mean something only where the question was
echoed verbatim (R188); that premise is `Safety.echoVerbatim` (DESIGN CHOICE, unsafe, log entry 10). -/
def execSkipQuestion (s : State) : Host.Outcome State Fault Refusal :=
  .next (((s.start.setAnsoff (answerOffset s)).setCur (answerOffset s)).setDstate .awaitingOwnerName).succeed

/-- RESOLVE_OWNER (R190). -/
def execResolveOwner (s : State) : Host.Outcome State Fault Refusal :=
  guardRxLen s.start <|
    conclude (writeSet .resolveOwner) s.start (resolveOwner s.rx s.rxlen.toNat s.ansoff.toNat) fun o =>
      ((s.start.setOwn o.group).setCur (s.ansoff.toNat + o.cons)).setDstate .awaitingFixedFields

/-- PARSE_ANSWER (R196). -/
def execParseAnswer (s : State) : Host.Outcome State Fault Refusal :=
  guardRxLen s.start <|
    conclude (writeSet .parseAnswer) s.start (parseRecord s.rx s.rxlen.toNat s.ansoff.toNat) fun r =>
      s.start.setRecord r

/-- R203: the three stages of DECODE: the header, the question skipped by length, the record at the offset that
stage 1 wrote. -/
def decodeStages (s : State) : Res (Header × ParsedRecord) :=
  (parseHeader s.rx s.rxlen.toNat).bind fun h =>
    (parseRecord s.rx s.rxlen.toNat (answerOffset s)).bind fun r => .ok (h, r)

/-- DECODE (R203). Its results mean something only where the question was echoed verbatim (R188); that premise is
`Safety.echoVerbatim` (DESIGN CHOICE, unsafe, log entry 10). -/
def execDecode (s : State) : Host.Outcome State Fault Refusal :=
  guardRxLen s.start <|
    conclude (writeSet .decode) s.start (decodeStages s) fun hr =>
      ((s.start.setParsedHeader hr.1).setAnsoff (answerOffset s)).setRecord hr.2

end Sys2Proof.Machine
end

