-- ==== Sys2Proof/Machine/Encoder.lean ====
section
/-! DEFINITION. The family of the Encoder (41_encoder.md): BUILD_HEADER, ENCODE_NAME, BUILD_QUESTION, BUILD_QUERY. -/

namespace Sys2Proof.Machine

/-- R151: the flag fields of a query. -/
def queryFields : FlagFields where
  qr := 0
  opcode := 0
  aa := 0
  tc := 0
  rd := Config.rdQuery
  ra := 0
  rcode := 0

/-- R151, R152: the header of a query whose MessageID is `r`. -/
def queryHeader (r : Word16) : Header where
  id := r
  flags := packFlags queryFields
  qdcount := 1
  ancount := 0
  nscount := 0
  arcount := 0

/-- R91, R152: the 12 bytes of a header, in the order ID, FLAGS, QD, AN, NS, AR. -/
def headerBytes (h : Header) : List Byte :=
  bytes16 h.id ++ bytes16 h.flags ++ bytes16 h.qdcount ++ bytes16 h.ancount ++ bytes16 h.nscount ++ bytes16 h.arcount

/-- R100, R163: QTYPE = A and QCLASS = IN after an encoded name. -/
def questionBytes (qname : List Byte) : List Byte := qname ++ bytes16 Config.typeA ++ bytes16 Config.classIn

/-- R160: the encoded NAME[0..NAMELEN). -/
def encodedName (s : State) : Res (List Byte) := encodeName s.namelen.toNat (nameBytes s)

/-- The header and flag-field registers a query header leaves (R152). -/
def State.setQueryHeader (s : State) (r : Word16) : State := (s.setFld queryFields).setHdr (queryHeader r)

/-- BUILD_HEADER (R152) with the draw `r`. -/
def buildHeaderWith (r : Word16) (s : State) : Host.Outcome State Fault Refusal :=
  .next ((s.start.setQueryHeader r).setTx (headerBytes (queryHeader r))).succeed

/-- BUILD_HEADER (R152): takes one draw and writes the header of a query; nothing can fail. It stays busy while the
entropy source does not answer (R253). -/
def execBuildHeader (s : State) : Host.Outcome State Fault Refusal := withDraw .buildHeader s buildHeaderWith

/-- ENCODE_NAME (R160). -/
def execEncodeName (s : State) : Host.Outcome State Fault Refusal :=
  conclude (writeSet .encodeName) s.start (encodedName s) fun out =>
    (s.start.setTx out).setCur s.namelen.toNat

/-- BUILD_QUESTION (R163). -/
def execBuildQuestion (s : State) : Host.Outcome State Fault Refusal :=
  conclude (writeSet .buildQuestion) s.start (encodedName s) fun out =>
    (s.start.setTx (questionBytes out)).setCur s.namelen.toNat

/-- BUILD_QUERY (R165) with the draw `r`, which is taken first, whether or not the name is valid. -/
def buildQueryWith (r : Word16) (s : State) : Host.Outcome State Fault Refusal :=
  conclude (writeSet .buildQuery) s.start (encodedName s) fun out =>
    ((s.start.setQueryHeader r).setTx (headerBytes (queryHeader r) ++ questionBytes out)).setCur s.namelen.toNat

/-- BUILD_QUERY (R165): a failing command consumes its draw all the same (D12). It stays busy while the entropy source
does not answer (R253). -/
def execBuildQuery (s : State) : Host.Outcome State Fault Refusal := withDraw .buildQuery s buildQueryWith

end Sys2Proof.Machine
end

