-- ==== Sys2Proof/Machine/FlagCommands.lean ====
section
/-! DEFINITION. The family of the flag packer and unpacker (40_flags.md): PACK_FLAGS, UNPACK_FLAGS. -/

namespace Sys2Proof.Machine

/-- PACK_FLAGS (R141): FLAGS takes the packed flag-field registers; nothing can fail. -/
def execPackFlags (s : State) : Host.Outcome State Fault Refusal :=
  .next (s.start.setFlags (packFlags s.fld)).succeed

/-- UNPACK_FLAGS (R143): the flag-field registers take the fields of FLAGS; FLAGS itself stays. -/
def execUnpackFlags (s : State) : Host.Outcome State Fault Refusal :=
  .next (s.start.setFld (unpackFlags s.hdr.flags)).succeed

end Sys2Proof.Machine
end

