-- ==== Sys2Proof/Machine/Dispatch.lean ====
section
/-! DEFINITION. The command table's dispatch (30_encoding.md R120): one arm per command, each one call of its
meaning. -/

namespace Sys2Proof.Machine

def exec (i : Instr) (s : State) : Host.Outcome State Fault Refusal :=
  match i with
  -- 40_flags.md
  | .packFlags => Sys2Proof.Machine.execPackFlags s
  | .unpackFlags => Sys2Proof.Machine.execUnpackFlags s
  -- 41_encoder.md
  | .buildHeader => Sys2Proof.Machine.execBuildHeader s
  | .encodeName => Sys2Proof.Machine.execEncodeName s
  | .buildQuestion => Sys2Proof.Machine.execBuildQuestion s
  | .buildQuery => Sys2Proof.Machine.execBuildQuery s
  -- 42_decoder.md
  | .parseHeader => Sys2Proof.Machine.execParseHeader s
  | .skipQuestion => Sys2Proof.Machine.execSkipQuestion s
  | .resolveOwner => Sys2Proof.Machine.execResolveOwner s
  | .parseAnswer => Sys2Proof.Machine.execParseAnswer s
  | .decode => Sys2Proof.Machine.execDecode s

end Sys2Proof.Machine
end

