-- ==== Sys2Proof/Machine/HostPort.lean ====
section
/-! DEFINITION. The block's port: what each action of the host does (10_state.md R21 to R24, 20_memory.md R60, R65,
R67; 70_reset_and_hazards.md R270, R271, R281) and each of the entropy source (60_exceptions.md R253). -/

namespace Sys2Proof.Machine

/-- R24, R122, R234: the command whose code stands in CMD runs, from its start to its completion, in one step
(R290; DEDUCED, unsafe, log entry 4; CMD is latched and consumed, DESIGN CHOICE, safe, log entry 14), or to its wait for
a draw (R253); a code that selects no command starts and at once completes with CommandError. -/
def runCmd (s : State) : Host.Outcome State Fault Refusal :=
  match decode s.cmd with
  | .ok i => exec i s.consumeCmd
  | .error _ => .next (s.consumeCmd.start.commandError .unknownCommand)

/-- A host write to a register (R21, R22, R24); while BUSY = 1 it is ignored (R24, R281); a
number above 34 is a fault of the host (DEDUCED, safe, log entry 13). -/
def hostWriteReg (n v : Nat) (s : State) : Host.Outcome State Fault Refusal :=
  match Reg.ofNum n with
  | none => .fault (.noSuchRegister n)
  | some r =>
    if s.busy then .next s
    else match r with
      | .cmd => runCmd (s.latchCmd v)
      | r => .next (regWrite s v r)

/-- R281: a read the host makes while BUSY = 1 returns an unspecified value: a free value, which the next such read
does not share. -/
def busyReadValue (s : State) : State :=
  { s with readData := some (Config.busyRead s.busyReads), busyReads := s.busyReads + 1 }

/-- A host read of a register (R21, R67): no side effect on the block; while BUSY = 1 only STATUS has a value to
give (R281). -/
def hostReadReg (n : Nat) (s : State) : Host.Outcome State Fault Refusal :=
  match Reg.ofNum n with
  | none => .fault (.noSuchRegister n)
  | some r =>
    if s.busy ∧ r ≠ .status then .next (busyReadValue s)
    else .next { s with readData := some (regRead s r) }

/-- A host write of one byte (R40, R60, R65); while BUSY = 1 it is ignored (R281); a byte of a block-written space is
refused (DESIGN CHOICE, safe, log entry 12). -/
def hostWriteByte (sp : Space) (a : Nat) (b : Byte) (s : State) : Host.Outcome State Fault Refusal :=
  if spaceCap s.rxCap sp ≤ a then .fault (.noSuchByte sp a)
  else if s.busy then .next s
  else if hostWrites sp then .next (storeByte s a b sp)
  else .refused (.blockBufferWrite sp)

/-- A host read of one byte (R60, R65, R67); a byte at or above a block-written length, or one nothing has written,
has no value (R42, R285); while BUSY = 1 an unspecified value (R281). -/
def hostReadByte (sp : Space) (a : Nat) (s : State) : Host.Outcome State Fault Refusal :=
  if spaceCap s.rxCap sp ≤ a then .fault (.noSuchByte sp a)
  else if s.busy then .next (busyReadValue s)
  else if readableLen s sp ≤ a then .fault (.unwrittenByte sp a)
  else match (spaceBytes s sp).read a with
    | some b => .next { s with readData := some (b.setWidth 32) }
    | none => .fault (.unwrittenByte sp a)

/-- R271: the draws taken when a reset comes: a command abandoned while it waits for its draw may have consumed it, or
not. R271 leaves each such reset open by itself; here it depends on the index of the draw alone, so a second abandoned
wait for the same draw answers as the first did (DESIGN CHOICE, unsafe, log entry 29). -/
def drawsAtReset (s : State) : Nat := if s.busy && Config.abortTakesDraw s.draws then s.draws + 1 else s.draws

/-- R270, R271: every register at its reset value, no buffer byte with a value, a busy command abandoned. What stands
outside the block stays: the model argument, the entropy source, the host and what it last read (DEDUCED, safe, log
entry 17). -/
def resetBlock (s : State) : State :=
  { State.reset with
    rxCap := s.rxCap, draws := drawsAtReset s, entropyReady := s.entropyReady, busyReads := s.busyReads, readData := s.readData, host := s.host }

/-- R253: the command whose code stands in CMD is taken up again: it runs as if it started now, since nothing it reads
has changed while it was busy (R281). With no command's code there nothing happens; no run gets
so far (DESIGN CHOICE, unsafe, log entry 19). -/
def resumeHeld (s : State) : Host.Outcome State Fault Refusal :=
  match decode s.cmd with
  | .ok i => exec i s.consumeCmd
  | .error _ => .next s

/-- R253: the entropy source begins or ceases to answer. Its answer lifts the hold: a busy command is taken up again. -/
def entropyAct (ready : Bool) (s : State) : Host.Outcome State Fault Refusal :=
  if ready && s.busy then resumeHeld (s.setEntropy true) else .next (s.setEntropy ready)

/-- What one action at the port does. -/
def hostAct (a : HostAction) (s : State) : Host.Outcome State Fault Refusal :=
  match a with
  | .writeReg n v => hostWriteReg n v s
  | .readReg n => hostReadReg n s
  | .writeByte sp i b => hostWriteByte sp i b s
  | .readByte sp i => hostReadByte sp i s
  | .reset => .next (resetBlock s)
  | .entropy ready => entropyAct ready s

/-- One step (DESIGN CHOICE, safe, log entry 1): the next host action is taken from the port and done; with none waiting the block does
nothing (R270; DEDUCED, safe, log entry 2). -/
def portStep (s : State) : Host.Outcome State Fault Refusal :=
  match s.host with
  | [] => .next s
  | a :: rest => hostAct a { s with host := rest }

/-- The state with the code `w` written to CMD as the next host action, and the block not busy, since a busy block
ignores the write (R24, R281; DESIGN CHOICE, safe, log entry 18). -/
def withCommand (s : State) (nbits w : Nat) : State :=
  { s with host := .writeReg 0 (w % 2 ^ nbits) :: s.host, status := s.status &&& 0b110 }

/-! ### The host notation of R126 -/

/-- R126, `LD`: the number of the length register of a host-written space (DEDUCED, safe, log entry 21). -/
def lengthReg : Space → Option Nat
  | .name => some 6
  | .rx => some 8
  | .q => some 9
  | .tx => none
  | .owner => none
  | .addrstr => none

/-- R126, `LD`: the writes of the bytes from index `a` on. -/
def loadBytes (sp : Space) : Nat → List Byte → List HostAction
  | _, [] => []
  | a, b :: bs => .writeByte sp a b :: loadBytes sp (a + 1) bs

/-- R126, `LD <space>, <byte string>`: the bytes at index 0 and on, then the length register. -/
def load (sp : Space) (bs : List Byte) : List HostAction :=
  loadBytes sp 0 bs ++ (match lengthReg sp with | some n => [.writeReg n bs.length] | none => [])

/-- R126, `<MNEMONIC>`: the host writes the command's code to CMD. -/
def command (i : Instr) : HostAction := .writeReg 0 (encode i).toNat

end Sys2Proof.Machine
end

