-- ==== Sys2Proof/Machine/Step.lean ====
section
/-! DEFINITION. One step of the machine, and a command placed where the next step takes it. -/

namespace Sys2Proof.Machine

/-- One step: the next host action at the block's port (`portStep`). -/
def step (s : State) : Host.Outcome State Fault Refusal := portStep s

/-- `s` with the command whose code is `w` as the next host action (`withCommand`). -/
def State.withFetchWord (s : State) (nbits w : Nat) : State := withCommand s nbits w

end Sys2Proof.Machine
end

