-- ==== Sys2Proof/Safety.lean ====
section
/-! DEFINITION. What a safe run is, in the terms claims use: the premise of the echoed question (42_decoder.md R188),
the bytes a command may read (70_reset_and_hazards.md R273), what two states must share for a command to do the same
(00_scope.md R18, 10_state.md R35), and the invariant of the machine. -/

namespace Sys2Proof.Safety

open Sys2Proof.Machine

/-- Every byte of `S[a..a+k)` holds a value. -/
def written (m : Memory) : Nat → Nat → Bool
  | _, 0 => true
  | a, k + 1 => (m.read a).isSome && written m (a + 1) k

/-- `k` bytes of two spaces, from `a` and from `b` on, hold the same values. -/
def sameBytes (m m' : Memory) : Nat → Nat → Nat → Bool
  | _, _, 0 => true
  | a, b, k + 1 => (m.read a).isSome && (m.read a == m'.read b) && sameBytes m m' (a + 1) (b + 1) k

/-- R188, EchoVerbatim: `RXLEN >= 12 + QLEN and RX[12 .. 12+QLEN) = Q[0..QLEN)`. It is the premise of every claim
about the results of SKIP_QUESTION and DECODE but the form `Inv` gives them (DESIGN CHOICE, unsafe, log entry 10). -/
def echoVerbatim (s : State) : Bool :=
  decide (12 + s.qlen.toNat ≤ s.rxlen.toNat) && sameBytes s.rx s.q 12 0 s.qlen.toNat

/-- R188: where the spec promises what a command's results mean. -/
def promised (s : State) : Instr → Bool
  | .skipQuestion => echoVerbatim s
  | .decode => echoVerbatim s
  | .packFlags => true
  | .unpackFlags => true
  | .buildHeader => true
  | .encodeName => true
  | .buildQuestion => true
  | .buildQuery => true
  | .parseHeader => true
  | .resolveOwner => true
  | .parseAnswer => true

/-- The commands that take a draw (R252). -/
def takesDraw : Instr → Bool
  | .buildHeader => true
  | .buildQuery => true
  | .packFlags => false
  | .unpackFlags => false
  | .encodeName => false
  | .buildQuestion => false
  | .parseHeader => false
  | .skipQuestion => false
  | .resolveOwner => false
  | .parseAnswer => false
  | .decode => false

/-- R253: where a command stays busy for want of a draw. -/
def waits (s : State) (i : Instr) : Bool := takesDraw i && !s.entropyReady

/-- R273: the host has written the bytes the command may read. -/
def inputsWritten (s : State) : Instr → Bool
  | .packFlags => true
  | .unpackFlags => true
  | .buildHeader => true
  | .encodeName => written s.name 0 s.namelen.toNat
  | .buildQuestion => written s.name 0 s.namelen.toNat
  | .buildQuery => written s.name 0 s.namelen.toNat
  | .parseHeader => written s.rx 0 (min 12 s.rxlen.toNat)
  | .skipQuestion => true
  | .resolveOwner => written s.rx 0 s.rxlen.toNat
  | .parseAnswer => written s.rx 0 s.rxlen.toNat
  | .decode => written s.rx 0 s.rxlen.toNat

/-- R35, column reads: two states agree on what a command reads. The draw of BUILD_HEADER and BUILD_QUERY is the
value the entropy source delivers next (R252); a command that reads RX also meets RX_CAP (R180). -/
def agreeOnReads (s t : State) : Instr → Prop
  | .packFlags => s.fld = t.fld
  | .unpackFlags => s.hdr.flags = t.hdr.flags
  | .buildHeader => Config.draw16 s.draws = Config.draw16 t.draws
  | .encodeName => s.namelen = t.namelen ∧ ∀ a < s.namelen.toNat, s.name.read a = t.name.read a
  | .buildQuestion => s.namelen = t.namelen ∧ ∀ a < s.namelen.toNat, s.name.read a = t.name.read a
  | .buildQuery =>
    Config.draw16 s.draws = Config.draw16 t.draws ∧ s.namelen = t.namelen ∧
      ∀ a < s.namelen.toNat, s.name.read a = t.name.read a
  | .parseHeader => s.rxCap = t.rxCap ∧ s.rxlen = t.rxlen ∧ ∀ a < 12, a < s.rxlen.toNat → s.rx.read a = t.rx.read a
  | .skipQuestion => s.qlen = t.qlen
  | .resolveOwner =>
    s.rxCap = t.rxCap ∧ s.rxlen = t.rxlen ∧ s.ansoff = t.ansoff ∧ ∀ a < s.rxlen.toNat, s.rx.read a = t.rx.read a
  | .parseAnswer =>
    s.rxCap = t.rxCap ∧ s.rxlen = t.rxlen ∧ s.ansoff = t.ansoff ∧ ∀ a < s.rxlen.toNat, s.rx.read a = t.rx.read a
  | .decode =>
    s.rxCap = t.rxCap ∧ s.rxlen = t.rxlen ∧ s.qlen = t.qlen ∧ ∀ a < s.rxlen.toNat, s.rx.read a = t.rx.read a

/-- R35, column writes: two states agree on the registers and buffers of a write set. -/
structure AgreeOnWrites (w : WriteSet) (s t : State) : Prop where
  flags : w.flags = true → s.hdr.flags = t.hdr.flags
  hdr : w.hdr = true → s.hdr = t.hdr
  fld : w.fld = true → s.fld = t.fld
  tx : w.tx = true → s.tx = t.tx ∧ s.txlen = t.txlen
  ansoff : w.ansoff = true → s.ansoff = t.ansoff
  own : w.own = true → s.own = t.own
  ans : w.ans = true → s.ans = t.ans
  cur : w.cur = true → s.cur = t.cur
  dstate : w.dstate = true → s.dstate = t.dstate

/-- R36: everything outside a write set is as it was. STATUS, ERRCODE and ERRSUB are in every write set (R24), CMD
belongs to the start of a command and to a command that stays busy (R253), and the draws are the entropy source's. -/
structure UnchangedOutside (w : WriteSet) (s t : State) : Prop where
  flags : w.flags = false → t.hdr.flags = s.hdr.flags
  hdr : w.hdr = false → t.hdr.id = s.hdr.id ∧ t.hdr.qdcount = s.hdr.qdcount ∧ t.hdr.ancount = s.hdr.ancount ∧
    t.hdr.nscount = s.hdr.nscount ∧ t.hdr.arcount = s.hdr.arcount
  fld : w.fld = false → t.fld = s.fld
  tx : w.tx = false → t.tx = s.tx ∧ t.txlen = s.txlen
  ansoff : w.ansoff = false → t.ansoff = s.ansoff
  own : w.own = false → t.own = s.own
  ans : w.ans = false → t.ans = s.ans
  cur : w.cur = false → t.cur = s.cur
  dstate : w.dstate = false → t.dstate = s.dstate
  inputs : t.namelen = s.namelen ∧ t.rxlen = s.rxlen ∧ t.qlen = s.qlen ∧ t.name = s.name ∧ t.rx = s.rx ∧ t.q = s.q
  cmd : t.busy = false → t.cmd = s.cmd
  outside : t.rxCap = s.rxCap ∧ t.entropyReady = s.entropyReady ∧ t.busyReads = s.busyReads ∧ t.readData = s.readData ∧
    t.host = s.host

/-- What stands outside the block is as it was, but for the host's accesses still to come. -/
structure SameOutside (s t : State) : Prop where
  rxCap : t.rxCap = s.rxCap
  draws : t.draws = s.draws
  entropyReady : t.entropyReady = s.entropyReady
  busyReads : t.busyReads = s.busyReads
  readData : t.readData = s.readData

/-! ### The terms claims are stated in -/

/-- R21: what the 35 registers read as, in the order of their numbers; CMD, which is write-only, reads as 0. -/
def registerValues (s : State) : List Nat :=
  [0, s.status.toNat, s.errcode.toNat, s.errsub.toNat, s.dstate.toNat, s.cur.toNat, s.namelen.toNat, s.txlen.toNat,
    s.rxlen.toNat, s.qlen.toNat, s.ansoff.toNat] ++
  [s.hdr.id.toNat, s.hdr.flags.toNat, s.hdr.qdcount.toNat, s.hdr.ancount.toNat, s.hdr.nscount.toNat, s.hdr.arcount.toNat] ++
  [s.fld.qr.toNat, s.fld.opcode.toNat, s.fld.aa.toNat, s.fld.tc.toNat, s.fld.rd.toNat, s.fld.ra.toNat, s.fld.rcode.toNat] ++
  [s.own.kind.toNat, s.own.len.toNat, s.own.namecons.toNat] ++
  [s.ans.atype.toNat, s.ans.aclass.toNat, s.ans.ttl.toNat, s.ans.rdlength.toNat, s.ans.rdoff.toNat,
    s.ans.addrvalid.toNat, s.ans.addr.toNat, s.ans.addrstrlen.toNat]

/-- R40, R42, R60, R285: the host can read the byte `b` at index `a` of a space: the byte holds that value, and the index
lies below the length register of a block-written space, and below the capacity of every space. -/
def hostCanRead (s : State) (sp : Space) (a : Nat) (b : Byte) : Prop :=
  match sp with
  | .name => s.name.read a = some b ∧ a < 512
  | .tx => s.tx.read a = some b ∧ a < s.txlen.toNat ∧ a < 271
  | .rx => s.rx.read a = some b ∧ a < s.rxCap.toNat
  | .q => s.q.read a = some b ∧ a < 512
  | .owner => s.own.buf.read a = some b ∧ a < s.own.len.toNat ∧ a < 253
  | .addrstr => s.ans.addrstr.read a = some b ∧ a < s.ans.addrstrlen.toNat ∧ a < 15

/-- R200: a byte string is the decimal of a number, in ASCII: digits alone, their value the number, no leading zero. -/
def isDecimal (p : List Byte) (n : Nat) : Prop :=
  p ≠ [] ∧ (∀ d ∈ p, 0x30 ≤ d.toNat ∧ d.toNat ≤ 0x39) ∧ p.foldl (fun v d => 10 * v + (d.toNat - 0x30)) 0 = n ∧
    (p.head? = some 0x30 → p.length = 1)

/-- `S[a..a+|bs|) = bs`: the space holds the byte string from index `a` on (R11). -/
def holdsAt (m : Memory) (a : Nat) (bs : List Byte) : Prop := ∀ k < bs.length, m.read (a + k) = bs[k]?

/-- R99: the text form of a name, its labels joined by SEP. -/
def text (ls : List (List Byte)) : List Byte := List.intercalate [Config.sep] ls

/-- R98: the length-prefixed labels of a name, without the terminator. -/
def wirePrefix (ls : List (List Byte)) : List Byte := ls.flatMap fun l => BitVec.ofNat 8 l.length :: l

/-- R98: the wire form of a name. -/
def wireName (ls : List (List Byte)) : List Byte := wirePrefix ls ++ [0]

/-- R98: every label has 1 to 63 bytes. -/
def labelsOk (ls : List (List Byte)) : Prop := ∀ l ∈ ls, 1 ≤ l.length ∧ l.length ≤ 63

/-- No label contains SEP, so that the text form splits back into the labels (R99). -/
def noSep (ls : List (List Byte)) : Prop := ∀ l ∈ ls, Config.sep ∉ l

/-- NAME[0..NAMELEN) is the text form of these labels. -/
def nameIs (s : State) (ls : List (List Byte)) : Prop :=
  ls ≠ [] ∧ noSep ls ∧ s.namelen.toNat = (text ls).length ∧ holdsAt s.name 0 (text ls)

/-- The forms of an owner name the Decoder takes (R191, R192): the pointer C0 0C, or a literal name's labels. -/
abbrev OwnerForm := Option (List (List Byte))

/-- The bytes of an owner name (R105). -/
def ownerWire : OwnerForm → List Byte
  | none => [0xC0, 0x0C]
  | some ls => wireName ls

/-- R192, R193: a literal name has labels of 1 to 63 bytes and at most 255 bytes in wire form. -/
def ownerFormOk : OwnerForm → Prop
  | none => True
  | some ls => labelsOk ls ∧ (wireName ls).length ≤ 255

/-- R31, R190, R194: the owner group a resolved name leaves. -/
def ownerResult : OwnerForm → Owner
  | none => ⟨1, 0, 2, []⟩
  | some ls => ⟨2, BitVec.ofNat 8 (text ls).length, BitVec.ofNat 8 (wireName ls).length, Memory.ofBytes 0 (text ls)⟩

/-- R105, R197: the ten bytes after an owner name. -/
def fixedBytes (ty cl : Word16) (ttl : Word32) (rdlen : Word16) : List Byte :=
  bytes16 ty ++ bytes16 cl ++ bytes32 ttl ++ bytes16 rdlen

/-- R91: the twelve bytes of a header. -/
def headerWire (h : Header) : List Byte :=
  bytes16 h.id ++ bytes16 h.flags ++ bytes16 h.qdcount ++ bytes16 h.ancount ++ bytes16 h.nscount ++ bytes16 h.arcount

/-- R93: the fields of a flags word, by bit position. -/
def fieldsOf (w : Word16) : FlagFields where
  qr := w.extractLsb' 15 1
  opcode := w.extractLsb' 11 4
  aa := w.extractLsb' 10 1
  tc := w.extractLsb' 9 1
  rd := w.extractLsb' 8 1
  ra := w.extractLsb' 7 1
  rcode := w.extractLsb' 0 4

/-- R93: the flags word of seven fields, from the most significant bit down, the reserved bits 0. -/
def wordOf (f : FlagFields) : Word16 :=
  f.qr ++ f.opcode ++ f.aa ++ f.tc ++ f.rd ++ f.ra ++ (0 : BitVec 3) ++ f.rcode

/-- The commands that encode NAME (R159). -/
def encodesName : Instr → Bool
  | .encodeName => true
  | .buildQuestion => true
  | .buildQuery => true
  | .packFlags => false
  | .unpackFlags => false
  | .buildHeader => false
  | .parseHeader => false
  | .skipQuestion => false
  | .resolveOwner => false
  | .parseAnswer => false
  | .decode => false

/-- The commands that read RX (R180). -/
def readsRx : Instr → Bool
  | .parseHeader => true
  | .resolveOwner => true
  | .parseAnswer => true
  | .decode => true
  | .packFlags => false
  | .unpackFlags => false
  | .buildHeader => false
  | .encodeName => false
  | .buildQuestion => false
  | .buildQuery => false
  | .skipQuestion => false

/-- Does a write set take in the bytes of a space (R35)? -/
def writesSpace (w : WriteSet) : Space → Bool
  | .tx => w.tx
  | .owner => w.own
  | .addrstr => w.ans
  | .name => false
  | .rx => false
  | .q => false

/-- What the three name-encoding commands leave on an EncodingError with sub-cause `sub` at `pos` (R236). -/
def encodingErrorAt (i : Instr) (s : State) (sub : BitVec 4) (pos : Nat) : State :=
  { s with
    hdr := if i = .buildQuery then ⟨0, 0, 0, 0, 0, 0⟩ else s.hdr
    fld := if i = .buildQuery then ⟨0, 0, 0, 0, 0, 0, 0⟩ else s.fld
    draws := if i = .buildQuery then s.draws + 1 else s.draws
    tx := []
    txlen := 0
    cur := BitVec.ofNat 16 pos
    status := 0b110#3
    errcode := 1
    errsub := sub }

/-- What RESOLVE_OWNER leaves on an error (code, sub) at `pos` (R190, R236). -/
def ownerErrorAt (s : State) (code : BitVec 3) (sub : BitVec 4) (pos : Nat) : State :=
  { s with
    own := ⟨0, 0, 0, []⟩
    cur := BitVec.ofNat 16 pos
    dstate := 2
    status := 0b110#3
    errcode := code
    errsub := sub }

/-- The owner name begins with these legal labels, which leave room for a terminator, and the walk of R192 stands at
the index after them. -/
def walked (s : State) (ls : List (List Byte)) : Prop :=
  s.rxlen.toNat ≤ s.rxCap.toNat ∧ labelsOk ls ∧ (wirePrefix ls).length + 1 ≤ 255 ∧
    s.ansoff.toNat + (wirePrefix ls).length ≤ s.rxlen.toNat ∧ holdsAt s.rx s.ansoff.toNat (wirePrefix ls)

/-- What PARSE_ANSWER leaves on a TruncatedAnswerError (R196, R236). -/
def truncatedAt (s : State) (sub : BitVec 4) (stage : BitVec 3) (pos : Nat) : State :=
  { s with
    own := ⟨0, 0, 0, []⟩
    ans := ⟨0, 0, 0, 0, 0, 0, 0, 0, []⟩
    cur := BitVec.ofNat 16 pos
    dstate := stage
    status := 0b110#3
    errcode := 3
    errsub := sub }

/-! ### The invariant -/

/-- R231: the pairs (ERRCODE, ERRSUB) that occur, (0, 0) for no error among them. -/
def legalError (code : BitVec 3) (sub : BitVec 4) : Bool :=
  (code == 0 && sub == 0) || (code == 1 && (sub == 1 || sub == 2 || sub == 3)) || (code == 2 && sub == 1) ||
    (code == 3 && (sub == 1 || sub == 2 || sub == 3 || sub == 4)) ||
    (code == 4 && (sub == 1 || sub == 2 || sub == 3)) || (code == 5 && (sub == 1 || sub == 2))

/-- A block-written space holds a value at exactly the indices below its length register (R42). -/
def exactly (m : Memory) (len : Nat) : Prop := ∃ bs : List Byte, bs.length = len ∧ m = Memory.ofBytes 0 bs

/-- R31, R194: the owner group is one of three: none, the pointer, a literal name of at most 255 wire bytes. -/
def ownerOk (o : Owner) : Prop :=
  exactly o.buf o.len.toNat ∧
    (o = Owner.zero ∨ (o.kind = kindPointer ∧ o.len = 0 ∧ o.namecons = 2) ∨
      (o.kind = kindLiteral ∧ 1 ≤ o.namecons.toNat ∧ o.len.toNat = o.namecons.toNat - 2))

/-- R33, R32: the address is there exactly for a type A record with four bytes, it is the address string's, and the
RDATA window has no index beyond 65535. -/
def answerOk (a : Answer) : Prop :=
  exactly a.addrstr a.addrstrlen.toNat ∧ a.rdoff.toNat + a.rdlength.toNat ≤ 65535 ∧
    ((a.addrvalid = 1 ∧ a.atype = 1 ∧ a.rdlength = 4 ∧
        ∃ b0 b1 b2 b3, a.addr = be32 b0 b1 b2 b3 ∧ a.addrstr = Memory.ofBytes 0 (dottedQuad b0 b1 b2 b3)) ∨
      (a.addrvalid = 0 ∧ a.addr = 0 ∧ a.addrstrlen = 0 ∧ ¬ (a.atype = 1 ∧ a.rdlength = 4)))

/-- R24, R25, R253: CMD and STATUS between two steps. Either the block is idle, or a command that takes a draw has
started, with its code in CMD, and the entropy source does not answer. That nothing else shows BUSY = 1, that CMD is empty
otherwise and that the source is a switch are the model's own (log entries 4, 14, 28). -/
def runOk (s : State) : Prop :=
  (s.cmd = 0 ∧ (s.status = 0 ∨ s.status = statusDone ∨ s.status = statusError)) ∨
    (s.status = statusBusy ∧ s.entropyReady = false ∧ ∃ i, takesDraw i = true ∧ s.cmd = encode i)

/-- The invariant: a command is left running only where it waits for a draw, and only then is its code left in CMD
(R24, R25, R253, R290), STATUS agrees with the error registers (R25, R26), RX_CAP is 1 to 65535 (R8), DSTATE is a
state of the Decoder (R28), the block-written spaces hold a value exactly below their lengths and the lengths lie within
the capacities (R42, R43, R166), the owner and answer groups are well formed (R31, R33), and the host-written spaces
keep their canonical form within their capacities (R40). The first clause rests on log entries 4, 14 and 28, RX_CAP as a
field on entry 5, and the block-written spaces' having no value beyond their lengths on entry 9; that DSTATE, the
owner and the answer group keep their form where R188 promises nothing of a command's results rests on entry 10. -/
structure Inv (s : State) : Prop where
  run : runOk s
  rxCap : 1 ≤ s.rxCap.toNat
  errIff : s.err = true ↔ s.errcode ≠ 0
  legal : legalError s.errcode s.errsub = true
  dstate : s.dstate.toNat ≤ 5
  txlen : s.txlen.toNat ≤ Config.txCap
  tx : exactly s.tx s.txlen.toNat
  own : ownerOk s.own
  ans : answerOk s.ans
  name : s.name.wf = true ∧ s.name.below Config.nameCap = true
  rx : s.rx.wf = true ∧ s.rx.below s.rxCap.toNat = true
  q : s.q.wf = true ∧ s.q.below Config.qCap = true

end Sys2Proof.Safety
end

