-- ==== Sys2Proof/Certificates/Slice0/Obligations.lean ====
section
/-! DEFINITION. The statements for the provers, family by family. Every conclusion `exec i s = .next { s with … }`
says the result, the completion and the frame at once: what is not named keeps its value. -/

open Sys2Proof Sys2Proof.Machine Sys2Proof.Safety

/-! ### The flag packer and unpacker -/

/-- R140, R141: PACK_FLAGS completes in every state and writes FLAGS with `{qr, opcode, aa, tc, rd, ra, 000, rcode}`. -/
def Obligations.PackFlagsResult : Prop :=
  ∀ s : State, exec .packFlags s =
    .next { s with
      hdr := { s.hdr with flags := wordOf s.fld }
      status := 0b010#3
      errcode := 0
      errsub := 0 }

/-- R142, R143: UNPACK_FLAGS completes in every state and writes the seven fields with their bits of FLAGS. -/
def Obligations.UnpackFlagsResult : Prop :=
  ∀ s : State, exec .unpackFlags s =
    .next { s with
      fld := fieldsOf s.hdr.flags
      status := 0b010#3
      errcode := 0
      errsub := 0 }

/-- R144: the round-trip laws of the two functions, and the image of `packFlags`. -/
def Obligations.FlagsRoundTripLaws : Prop :=
  (∀ f : FlagFields, unpackFlags (packFlags f) = f) ∧
  (∀ w : Word16, packFlags (unpackFlags w) = w &&& 0xFF8F#16) ∧
  (∀ w : Word16, packFlags (unpackFlags w) = w ↔ w.extractLsb' 4 3 = 0) ∧
  (∀ f g : FlagFields, packFlags f = packFlags g → f = g) ∧
  (∀ w : Word16, (∃ f : FlagFields, packFlags f = w) ↔ w.extractLsb' 4 3 = 0)

/-! ### The Encoder -/

/-- R152, R253: BUILD_HEADER completes in every state in which the entropy source answers, for the value it delivers
next, whatever it is. RD = 1 is the choice of log entry 6. -/
def Obligations.BuildHeaderResult : Prop :=
  ∀ s : State, s.entropyReady = true → exec .buildHeader s =
    .next { s with
      hdr := ⟨Config.draw16 s.draws, 0x0100#16, 1, 0, 0, 0⟩
      fld := ⟨0, 0, 0, 0, 1, 0, 0⟩
      tx := Memory.ofBytes 0
        [(Config.draw16 s.draws).extractLsb' 8 8, (Config.draw16 s.draws).extractLsb' 0 8,
          0x01, 0x00, 0x00, 0x01, 0x00, 0x00, 0x00, 0x00, 0x00, 0x00]
      txlen := 12
      draws := s.draws + 1
      status := 0b010#3
      errcode := 0
      errsub := 0 }

/-- R160: ENCODE_NAME of a legal name of at most 253 bytes. -/
def Obligations.EncodeNameSucceeds : Prop :=
  ∀ (s : State) (ls : List (List Byte)), nameIs s ls → labelsOk ls → (text ls).length ≤ 253 →
    exec .encodeName s =
      .next { s with
        tx := Memory.ofBytes 0 (wireName ls)
        txlen := BitVec.ofNat 9 ((text ls).length + 2)
        cur := BitVec.ofNat 16 (text ls).length
        status := 0b010#3
        errcode := 0
        errsub := 0 }

/-- R163: BUILD_QUESTION of a legal name: the encoded name, then 00 01 00 01. -/
def Obligations.BuildQuestionSucceeds : Prop :=
  ∀ (s : State) (ls : List (List Byte)), nameIs s ls → labelsOk ls → (text ls).length ≤ 253 →
    exec .buildQuestion s =
      .next { s with
        tx := Memory.ofBytes 0 (wireName ls ++ [0, 1, 0, 1])
        txlen := BitVec.ofNat 9 ((text ls).length + 6)
        cur := BitVec.ofNat 16 (text ls).length
        status := 0b010#3
        errcode := 0
        errsub := 0 }

/-- R165, R253: BUILD_QUERY of a legal name, where the entropy source answers: the header with the draw as MessageID, then
the question at index 12. RD = 1 is the choice of log entry 6. -/
def Obligations.BuildQuerySucceeds : Prop :=
  ∀ (s : State) (ls : List (List Byte)), s.entropyReady = true → nameIs s ls → labelsOk ls → (text ls).length ≤ 253 →
    exec .buildQuery s =
      .next { s with
        hdr := ⟨Config.draw16 s.draws, 0x0100#16, 1, 0, 0, 0⟩
        fld := ⟨0, 0, 0, 0, 1, 0, 0⟩
        tx := Memory.ofBytes 0
          ([(Config.draw16 s.draws).extractLsb' 8 8, (Config.draw16 s.draws).extractLsb' 0 8,
            0x01, 0x00, 0x00, 0x01, 0x00, 0x00, 0x00, 0x00, 0x00, 0x00] ++ wireName ls ++ [0, 1, 0, 1])
        txlen := BitVec.ofNat 9 ((text ls).length + 18)
        cur := BitVec.ofNat 16 (text ls).length
        draws := s.draws + 1
        status := 0b010#3
        errcode := 0
        errsub := 0 }

/-- R154: a name of more than 253 bytes is NAME_TOO_LONG, on NAMELEN alone: no byte of NAME need have a value. -/
def Obligations.NameTooLongOnLengthAlone : Prop :=
  ∀ (i : Instr) (s : State), encodesName i = true → waits s i = false → 253 < s.namelen.toNat →
    exec i s = .next (encodingErrorAt i s 2 0)

/-- R155, R157: the first label that is no legal one is empty: EMPTY_LABEL, CUR where that label starts. -/
def Obligations.EmptyLabelRejected : Prop :=
  ∀ (i : Instr) (s : State) (ls ls' : List (List Byte)), encodesName i = true → waits s i = false →
    nameIs s (ls ++ [] :: ls') → labelsOk ls → (text (ls ++ [] :: ls')).length ≤ 253 →
    exec i s = .next (encodingErrorAt i s 3 (ls.map fun l => l.length + 1).sum)

/-- R156, R157: the first label that is no legal one has more than 63 bytes: LABEL_TOO_LONG, CUR where it starts. -/
def Obligations.LongLabelRejected : Prop :=
  ∀ (i : Instr) (s : State) (ls : List (List Byte)) (l : List Byte) (ls' : List (List Byte)), encodesName i = true →
    waits s i = false → nameIs s (ls ++ l :: ls') → labelsOk ls → 63 < l.length → (text (ls ++ l :: ls')).length ≤ 253 →
    exec i s = .next (encodingErrorAt i s 1 (ls.map fun l => l.length + 1).sum)

/-- R158: an accepted name's wire form is two bytes longer than its text, 3 to 255 bytes. -/
def Obligations.WireLengthLaw : Prop :=
  ∀ s w : List Byte, encodeName s.length (.ok s) = .ok w →
    w.length = s.length + 2 ∧ 3 ≤ w.length ∧ w.length ≤ 255

/-- R166: what TXLEN is after each encoder command, on success and on error, with the bound of each command, and that it
is at most TX_CAP. -/
def Obligations.TxlenBounds : Prop :=
  ∀ (i : Instr) (s t : State), (writeSet i).tx = true → waits s i = false → exec i s = .next t →
    t.txlen.toNat ≤ 271 ∧
    (t.errcode ≠ 0 → t.txlen = 0) ∧
    (t.errcode = 0 →
      match i with
      | .buildHeader => t.txlen.toNat = 12
      | .encodeName => t.txlen.toNat = s.namelen.toNat + 2 ∧ t.txlen.toNat ≤ 255
      | .buildQuestion => t.txlen.toNat = s.namelen.toNat + 6 ∧ t.txlen.toNat ≤ 259
      | _ => t.txlen.toNat = s.namelen.toNat + 18 ∧ t.txlen.toNat ≤ 271)

/-- R127, where the entropy source answers: BUILD_QUERY leaves the bytes of BUILD_HEADER followed by those of BUILD_QUESTION, the header registers of the
one and the cursor of the other. -/
def Obligations.BuildQueryIsHeaderThenQuestion : Prop :=
  ∀ s h q : State, s.entropyReady = true → exec .buildHeader s = .next h → exec .buildQuestion s = .next q → q.errcode = 0 →
    ∃ t : State, exec .buildQuery s = .next t ∧ t.hdr = h.hdr ∧ t.fld = h.fld ∧ t.cur = q.cur ∧ t.draws = h.draws ∧
      t.txlen.toNat = h.txlen.toNat + q.txlen.toNat ∧
      (∀ a < 12, t.tx.read a = h.tx.read a) ∧ (∀ a, t.tx.read (12 + a) = q.tx.read a)

/-- R167: two BUILD_QUERY commands on one name differ only in ID and the first two bytes of TX. -/
def Obligations.QueriesDifferOnlyInId : Prop :=
  ∀ (r r' : Word16) (s t t' : State), buildQueryWith r s = .next t → buildQueryWith r' s = .next t' →
    t' = { t with hdr := { t.hdr with id := t'.hdr.id }, tx := t'.tx } ∧
      (∀ a, 2 ≤ a → t'.tx.read a = t.tx.read a) ∧ (t.errcode = 0 → t.hdr.id = r ∧ t'.hdr.id = r')

/-! ### The Decoder -/

/-- R181, R182: PARSE_HEADER of a message of at least 12 bytes: the six fields, and the flag fields of FLAGS. -/
def Obligations.ParseHeaderResult : Prop :=
  ∀ (s : State) (h : Header), s.rxlen.toNat ≤ s.rxCap.toNat → 12 ≤ s.rxlen.toNat → holdsAt s.rx 0 (headerWire h) →
    exec .parseHeader s =
      .next { s with
        hdr := h
        fld := fieldsOf h.flags
        cur := 12
        dstate := 1
        status := 0b010#3
        errcode := 0
        errsub := 0 }

/-- R182: PARSE_HEADER of fewer than 12 bytes is MalformedHeaderError SHORT_HEADER, whatever RX holds. -/
def Obligations.ShortHeaderRejected : Prop :=
  ∀ s : State, s.rxlen.toNat ≤ s.rxCap.toNat → s.rxlen.toNat < 12 →
    exec .parseHeader s =
      .next { s with
        hdr := ⟨0, 0, 0, 0, 0, 0⟩
        fld := ⟨0, 0, 0, 0, 0, 0, 0⟩
        cur := 0
        dstate := 0
        status := 0b110#3
        errcode := 2
        errsub := 1 }

/-- R185: PARSE_HEADER of the twelve bytes BUILD_HEADER produced recovers every register, for every draw, where RX has
room for them. FLAGS = 0x0100 and RD = 1 rest on the choice of log entry 6. -/
def Obligations.HeaderRoundTrip : Prop :=
  ∀ (r : Word16) (s t : State), buildHeaderWith r s = .next t → 12 ≤ s.rxCap.toNat →
    ∃ u : State, exec .parseHeader { t with rx := t.tx, rxlen := 12 } = .next u ∧
      u.hdr = ⟨r, 0x0100#16, 1, 0, 0, 0⟩ ∧ u.fld = ⟨0, 0, 0, 0, 1, 0, 0⟩ ∧ u.cur = 12 ∧ u.dstate = 1 ∧ u.errcode = 0

/-- R186 under the premise of R188: SKIP_QUESTION puts ANSOFF and CUR at 12 + QLEN. -/
def Obligations.SkipQuestionResult : Prop :=
  ∀ s : State, echoVerbatim s = true →
    exec .skipQuestion s =
      .next { s with
        ansoff := BitVec.ofNat 16 (12 + s.qlen.toNat)
        cur := BitVec.ofNat 16 (12 + s.qlen.toNat)
        dstate := 2
        status := 0b010#3
        errcode := 0
        errsub := 0 }

/-- R186: SKIP_QUESTION cannot fail, whatever the responder echoed. Without the premise of R188 nothing is said of the
offset it leaves (log entry 10), only that it ends in success and what it leaves unchanged. -/
def Obligations.SkipQuestionNeverFails : Prop :=
  ∀ s : State, ∃ t : State, exec .skipQuestion s = .next t ∧ t.status = 0b010#3 ∧ t.errcode = 0 ∧ t.errsub = 0 ∧
    UnchangedOutside (writeSet .skipQuestion) s t

/-- R190 to R194: RESOLVE_OWNER of an owner name the Decoder takes: the pointer, or a literal name (the root name and
names with any label bytes among them). -/
def Obligations.ResolveOwnerSucceeds : Prop :=
  ∀ (s : State) (o : OwnerForm), s.rxlen.toNat ≤ s.rxCap.toNat → ownerFormOk o →
    s.ansoff.toNat + (ownerWire o).length ≤ s.rxlen.toNat → holdsAt s.rx s.ansoff.toNat (ownerWire o) →
    exec .resolveOwner s =
      .next { s with
        own := ownerResult o
        cur := BitVec.ofNat 16 (s.ansoff.toNat + (ownerWire o).length)
        dstate := 3
        status := 0b010#3
        errcode := 0
        errsub := 0 }

/-- R191, R231: with ANSOFF at or beyond RXLEN there is no owner byte: NO_OWNER_BYTES, CUR = ANSOFF. -/
def Obligations.NoOwnerBytes : Prop :=
  ∀ s : State, s.rxlen.toNat ≤ s.rxCap.toNat → s.rxlen.toNat ≤ s.ansoff.toNat →
    exec .resolveOwner s = .next (ownerErrorAt s 3 1 s.ansoff.toNat)

/-- R103, R192: a length byte 0xC0 to 0xFF after labels, or at the start of the name where it is not the pair C0 0C,
is OTHER_POINTER at its index. -/
def Obligations.OtherPointerRejected : Prop :=
  ∀ (s : State) (ls : List (List Byte)) (b : Byte), walked s ls →
    s.ansoff.toNat + (wirePrefix ls).length < s.rxlen.toNat →
    s.rx.read (s.ansoff.toNat + (wirePrefix ls).length) = some b → 0xC0 ≤ b.toNat →
    (ls = [] → b = 0xC0 → s.ansoff.toNat + 1 < s.rxlen.toNat →
      ∃ b' : Byte, s.rx.read (s.ansoff.toNat + 1) = some b' ∧ b' ≠ 0x0C) →
    exec .resolveOwner s = .next (ownerErrorAt s 4 1 (s.ansoff.toNat + (wirePrefix ls).length))

/-- R103, R192: a length byte 0x40 to 0xBF is RESERVED_LABEL_TYPE at its index. -/
def Obligations.ReservedLabelTypeRejected : Prop :=
  ∀ (s : State) (ls : List (List Byte)) (b : Byte), walked s ls →
    s.ansoff.toNat + (wirePrefix ls).length < s.rxlen.toNat →
    s.rx.read (s.ansoff.toNat + (wirePrefix ls).length) = some b → 0x40 ≤ b.toNat → b.toNat ≤ 0xBF →
    exec .resolveOwner s = .next (ownerErrorAt s 4 2 (s.ansoff.toNat + (wirePrefix ls).length))

/-- R192, R193: a name with no terminator before RXLEN is NAME_RUNS_OUT at RXLEN; a label that runs past RXLEN is
NAME_RUNS_OUT at the index of its length byte. -/
def Obligations.NameRunsOutRejected : Prop :=
  (∀ (s : State) (ls : List (List Byte)), walked s ls → ls ≠ [] →
    s.ansoff.toNat + (wirePrefix ls).length = s.rxlen.toNat →
    exec .resolveOwner s = .next (ownerErrorAt s 3 2 s.rxlen.toNat)) ∧
  (∀ (s : State) (ls : List (List Byte)) (b : Byte), walked s ls →
    s.ansoff.toNat + (wirePrefix ls).length < s.rxlen.toNat →
    s.rx.read (s.ansoff.toNat + (wirePrefix ls).length) = some b → 1 ≤ b.toNat → b.toNat ≤ 63 →
    s.rxlen.toNat < s.ansoff.toNat + (wirePrefix ls).length + 1 + b.toNat →
    exec .resolveOwner s = .next (ownerErrorAt s 3 2 (s.ansoff.toNat + (wirePrefix ls).length)))

/-- R192, R193: a label that is there whole but would make the name longer than 255 bytes is LITERAL_TOO_LONG at its
length byte; its bytes need not have a value. -/
def Obligations.LiteralTooLongRejected : Prop :=
  ∀ (s : State) (ls : List (List Byte)) (b : Byte), walked s ls →
    s.rx.read (s.ansoff.toNat + (wirePrefix ls).length) = some b → 1 ≤ b.toNat → b.toNat ≤ 63 →
    s.ansoff.toNat + (wirePrefix ls).length + 1 + b.toNat ≤ s.rxlen.toNat →
    255 < (wirePrefix ls).length + 1 + b.toNat + 1 →
    exec .resolveOwner s = .next (ownerErrorAt s 4 3 (s.ansoff.toNat + (wirePrefix ls).length))

/-- R161, R195: the literal walk undoes the name encoder: wherever an encoded name stands in a message, resolving it
gives back the text and consumes exactly its wire form. -/
def Obligations.NameRoundTrip : Prop :=
  ∀ (s w : List Byte) (m : Memory) (n c : Nat), encodeName s.length (.ok s) = .ok w → holdsAt m c w →
    c + w.length ≤ n → resolveOwner m n c = .ok ⟨2, s, w.length⟩

/-- R161 at the machine: ENCODE_NAME, TX loaded as RX with ANSOFF 0, RESOLVE_OWNER: OWNER is NAME again. -/
def Obligations.EncodeThenResolveRecoversName : Prop :=
  ∀ s t : State, exec .encodeName s = .next t → t.errcode = 0 → 255 ≤ s.rxCap.toNat →
    ∃ u : State,
      exec .resolveOwner { t with rx := t.tx, rxlen := BitVec.ofNat 16 t.txlen.toNat, ansoff := 0 } = .next u ∧
      u.errcode = 0 ∧ u.own.kind = 2 ∧ u.own.namecons.toNat = t.txlen.toNat ∧ u.own.len.toNat = s.namelen.toNat ∧
      ∀ a < s.namelen.toNat, u.own.buf.read a = s.name.read a

/-- R196, R199: PARSE_ANSWER of a type A record with four bytes of RDATA. -/
def Obligations.ParseAnswerAddress : Prop :=
  ∀ (s : State) (o : OwnerForm) (cl : Word16) (ttl : Word32) (b0 b1 b2 b3 : Byte),
    s.rxlen.toNat ≤ s.rxCap.toNat → ownerFormOk o →
    s.ansoff.toNat + (ownerWire o).length + 14 ≤ s.rxlen.toNat →
    holdsAt s.rx s.ansoff.toNat (ownerWire o ++ fixedBytes 1 cl ttl 4 ++ [b0, b1, b2, b3]) →
    exec .parseAnswer s =
      .next { s with
        own := ownerResult o
        ans := ⟨1, cl, ttl, 4, BitVec.ofNat 16 (s.ansoff.toNat + (ownerWire o).length + 10), 1, b0 ++ b1 ++ b2 ++ b3,
          BitVec.ofNat 4 (dottedQuad b0 b1 b2 b3).length, Memory.ofBytes 0 (dottedQuad b0 b1 b2 b3)⟩
        cur := BitVec.ofNat 16 (s.ansoff.toNat + (ownerWire o).length + 14)
        dstate := 5
        status := 0b010#3
        errcode := 0
        errsub := 0 }

/-- R196, R198, R199: PARSE_ANSWER of any other record: RDATA is a window, no address, no error; its bytes need not
have a value. -/
def Obligations.ParseAnswerOpaque : Prop :=
  ∀ (s : State) (o : OwnerForm) (ty cl : Word16) (ttl : Word32) (rdlen : Word16),
    s.rxlen.toNat ≤ s.rxCap.toNat → ownerFormOk o → ¬ (ty = 1 ∧ rdlen = 4) →
    s.ansoff.toNat + (ownerWire o).length + 10 + rdlen.toNat ≤ s.rxlen.toNat →
    holdsAt s.rx s.ansoff.toNat (ownerWire o ++ fixedBytes ty cl ttl rdlen) →
    exec .parseAnswer s =
      .next { s with
        own := ownerResult o
        ans := ⟨ty, cl, ttl, rdlen, BitVec.ofNat 16 (s.ansoff.toNat + (ownerWire o).length + 10), 0, 0, 0, []⟩
        cur := BitVec.ofNat 16 (s.ansoff.toNat + (ownerWire o).length + 10 + rdlen.toNat)
        dstate := 5
        status := 0b010#3
        errcode := 0
        errsub := 0 }

/-- R197: fewer than ten bytes after the owner name: FIXED_FIELDS at the index after the name; no partial record. -/
def Obligations.FixedFieldsTruncated : Prop :=
  ∀ (s : State) (o : OwnerForm), s.rxlen.toNat ≤ s.rxCap.toNat → ownerFormOk o →
    holdsAt s.rx s.ansoff.toNat (ownerWire o) → s.ansoff.toNat + (ownerWire o).length ≤ s.rxlen.toNat →
    s.rxlen.toNat < s.ansoff.toNat + (ownerWire o).length + 10 →
    exec .parseAnswer s = .next (truncatedAt s 3 3 (s.ansoff.toNat + (ownerWire o).length))

/-- R198: fewer than RDLENGTH bytes after the fixed fields: RDATA at the index where RDATA would start. -/
def Obligations.RDataTruncated : Prop :=
  ∀ (s : State) (o : OwnerForm) (ty cl : Word16) (ttl : Word32) (rdlen : Word16),
    s.rxlen.toNat ≤ s.rxCap.toNat → ownerFormOk o →
    holdsAt s.rx s.ansoff.toNat (ownerWire o ++ fixedBytes ty cl ttl rdlen) →
    s.ansoff.toNat + (ownerWire o).length + 10 ≤ s.rxlen.toNat →
    s.rxlen.toNat < s.ansoff.toNat + (ownerWire o).length + 10 + rdlen.toNat →
    exec .parseAnswer s = .next (truncatedAt s 4 4 (s.ansoff.toNat + (ownerWire o).length + 10))

/-- R127, R196: where RESOLVE_OWNER fails, PARSE_ANSWER fails with the same error, cursor and stage, and delivers no
record. -/
def Obligations.ParseAnswerOwnerErrors : Prop :=
  ∀ s t : State, exec .resolveOwner s = .next t → t.errcode ≠ 0 → t.errcode ≠ 5 →
    exec .parseAnswer s = .next { t with ans := ⟨0, 0, 0, 0, 0, 0, 0, 0, []⟩ }

/-- R32: the window of a successful PARSE_ANSWER, or of a DECODE of an echoed question, lies inside RX[0..RXLEN), and
CUR is its end (R201). -/
def Obligations.RDataWindowInsideMessage : Prop :=
  ∀ (i : Instr) (s t : State), (writeSet i).ans = true → promised s i = true → exec i s = .next t → t.errcode = 0 →
    t.ans.rdoff.toNat + t.ans.rdlength.toNat = t.cur.toNat ∧ t.cur.toNat ≤ s.rxlen.toNat

/-- R203 under the premise of R188: DECODE of a response that carries a header, the question as it was sent and a type
A record with four bytes. -/
def Obligations.DecodeAddressResponse : Prop :=
  ∀ (s : State) (h : Header) (o : OwnerForm) (cl : Word16) (ttl : Word32) (b0 b1 b2 b3 : Byte),
    s.rxlen.toNat ≤ s.rxCap.toNat → echoVerbatim s = true → ownerFormOk o →
    holdsAt s.rx 0 (headerWire h) →
    12 + s.qlen.toNat + (ownerWire o).length + 14 ≤ s.rxlen.toNat →
    holdsAt s.rx (12 + s.qlen.toNat) (ownerWire o ++ fixedBytes 1 cl ttl 4 ++ [b0, b1, b2, b3]) →
    exec .decode s =
      .next { s with
        hdr := h
        fld := fieldsOf h.flags
        ansoff := BitVec.ofNat 16 (12 + s.qlen.toNat)
        own := ownerResult o
        ans := ⟨1, cl, ttl, 4, BitVec.ofNat 16 (12 + s.qlen.toNat + (ownerWire o).length + 10), 1, b0 ++ b1 ++ b2 ++ b3,
          BitVec.ofNat 4 (dottedQuad b0 b1 b2 b3).length, Memory.ofBytes 0 (dottedQuad b0 b1 b2 b3)⟩
        cur := BitVec.ofNat 16 (12 + s.qlen.toNat + (ownerWire o).length + 14)
        dstate := 5
        status := 0b010#3
        errcode := 0
        errsub := 0 }

/-- R127, R203 under the premise of R188: DECODE does what PARSE_HEADER, SKIP_QUESTION and PARSE_ANSWER do in that
order, but for one thing: on an error it also clears what the first two had written (D29). -/
def Obligations.DecodeIsItsThreeStages : Prop :=
  ∀ s a b c : State, echoVerbatim s = true → s.rxlen.toNat ≤ s.rxCap.toNat →
    exec .parseHeader s = .next a → exec .skipQuestion a = .next b → exec .parseAnswer b = .next c →
    exec .decode s =
      if c.errcode = 0 then .next c
      else .next { c with hdr := ⟨0, 0, 0, 0, 0, 0⟩, fld := ⟨0, 0, 0, 0, 0, 0, 0⟩, ansoff := 0 }

/-- R200: the address string is the decimals of the four bytes, without leading zeros, with 0x2E between them; it has 7
to 15 bytes, and no two addresses share one. -/
def Obligations.DottedQuadIsFaithful : Prop :=
  (∀ a b c d : Byte, ∃ p0 p1 p2 p3 : List Byte,
    dottedQuad a b c d = p0 ++ 0x2E :: (p1 ++ 0x2E :: (p2 ++ 0x2E :: p3)) ∧
      isDecimal p0 a.toNat ∧ isDecimal p1 b.toNat ∧ isDecimal p2 c.toNat ∧ isDecimal p3 d.toNat) ∧
  (∀ a b c d : Byte, 7 ≤ (dottedQuad a b c d).length ∧ (dottedQuad a b c d).length ≤ 15) ∧
  (∀ a b c d a' b' c' d' : Byte, dottedQuad a b c d = dottedQuad a' b' c' d' →
    a = a' ∧ b = b' ∧ c = c' ∧ d = d')

/-- R207: the position of every error of a parse is one its cursor can show: not before the start, and not beyond the
start or the end of the message, whichever is later. -/
def Obligations.ErrorPositionsFit : Prop :=
  ∀ (m : Memory) (n c : Nat) (e : Cause) (p : Nat), parseRecord m n c = .raise e p → c ≤ p ∧ p ≤ max c n

/-! ### Errors, completion and write sets -/

/-- R122, R234: a code outside the table starts and at once completes with CommandError UNKNOWN_COMMAND; no register or
buffer of any write set changes, and no draw is taken. That the host's access is used up and CMD is empty again is the
model's own (log entries 1, 14). -/
def Obligations.UnknownCommandWritesNothing : Prop :=
  ∀ (s : State) (v : Nat) (rest : List HostAction), s.host = .writeReg 0 v :: rest → s.busy = false →
    wellFormedCode (BitVec.ofNat 8 v) = false →
    step s = .next { s with host := rest, cmd := 0, status := 0b110#3, errcode := 5, errsub := 1 }

/-- R180, R234: a command that reads RX with RXLEN above RX_CAP is BAD_LENGTH and changes nothing else. -/
def Obligations.BadLengthWritesNothing : Prop :=
  ∀ (i : Instr) (s : State), readsRx i = true → s.rxCap.toNat < s.rxlen.toNat →
    exec i s = .next { s with status := 0b110#3, errcode := 5, errsub := 2 }

/-- R36, R237: everything outside a command's write set is as it was, whether the command succeeds or fails; every byte
of every space the command does not write reads as before. That CMD is as before once the command has ended, while one
that waits for its draw (R253) leaves its code there, is the model's own (log entries 14, 28). -/
def Obligations.FrameOfEveryCommand : Prop :=
  ∀ (i : Instr) (s t : State), exec i s = .next t →
    UnchangedOutside (writeSet i) s t ∧
    ∀ (sp : Space) (a : Nat), writesSpace (writeSet i) sp = false →
      (spaceBytes t sp).read a = (spaceBytes s sp).read a

/-- R236: after an error of code 1 to 4 every register of the write set other than CUR and DSTATE is 0, and the buffers
of the write set hold no value (for DECODE where R188 promises its results a meaning). -/
def Obligations.ErrorClearsWriteSet : Prop :=
  ∀ (i : Instr) (s t : State), promised s i = true → exec i s = .next t → t.errcode ≠ 0 → t.errcode ≠ 5 →
    ((writeSet i).flags = true → t.hdr.flags = 0) ∧ ((writeSet i).hdr = true → t.hdr = Header.zero) ∧
    ((writeSet i).fld = true → t.fld = FlagFields.zero) ∧ ((writeSet i).tx = true → t.txlen = 0 ∧ t.tx = []) ∧
    ((writeSet i).ansoff = true → t.ansoff = 0) ∧ ((writeSet i).own = true → t.own = Owner.zero) ∧
    ((writeSet i).ans = true → t.ans = Answer.zero)

/-- R25, R26, R231, R235: a command that has its draw, or needs none, ends in success (STATUS 010, ERRCODE 0, ERRSUB 0)
or in an error (STATUS 110) with a pair of the table that the table lets it raise: FIXED_FIELDS and RDATA are for
PARSE_ANSWER and DECODE alone. -/
def Obligations.CompletionIsSuccessOrListedError : Prop :=
  ∀ (i : Instr) (s t : State), waits s i = false → exec i s = .next t →
    (t.status = 0b010#3 ∧ t.errcode = 0 ∧ t.errsub = 0) ∨
    (t.status = 0b110#3 ∧ legalError t.errcode t.errsub = true ∧
      ((t.errcode = 1 ∧ encodesName i = true) ∨
        (t.errcode = 2 ∧ (writeSet i).dstate = true ∧ (writeSet i).hdr = true) ∨
        ((t.errcode = 3 ∨ t.errcode = 4) ∧ (writeSet i).own = true ∧
          (t.errcode = 3 → (t.errsub = 3 ∨ t.errsub = 4) → (writeSet i).ans = true)) ∨
        (t.errcode = 5 ∧ t.errsub = 2 ∧ readsRx i = true)))

/-- R180, R273, R290: a command whose input bytes the host has written, and to whose draw the entropy source answers,
completes; a command is never refused, and its only fault is a byte that nothing has written. -/
def Obligations.CommandsComplete : Prop :=
  (∀ (i : Instr) (s : State), inputsWritten s i = true → waits s i = false →
    ∃ t : State, exec i s = .next t ∧ t.busy = false ∧ t.doneBit = true) ∧
  (∀ (i : Instr) (s : State) (r : Refusal), exec i s ≠ .refused r) ∧
  (∀ (i : Instr) (s : State) (f : Fault), exec i s = .fault f → ∃ (sp : Space) (a : Nat), f = .unwrittenByte sp a)

/-- R252, R253: BUILD_HEADER and BUILD_QUERY take exactly one draw, succeed or fail, and none while they wait for it; no
other command takes any. -/
def Obligations.DrawsTaken : Prop :=
  ∀ (i : Instr) (s t : State), exec i s = .next t → t.draws = s.draws + if takesDraw i && s.entropyReady then 1 else 0

/-- R18, R35: a command's result is a function of what it reads and of its draw, and of nothing else. Two states that
agree on the read set (in which the spec promises the result a meaning, R188, and the command has its draw) end in the same status and, unless the
command did not run, in the same registers and buffers of the write set. -/
def Obligations.ResultsDependOnReadsAlone : Prop :=
  ∀ (i : Instr) (s s' t t' : State), agreeOnReads s s' i → promised s i = true → promised s' i = true →
    waits s i = false → waits s' i = false → exec i s = .next t → exec i s' = .next t' →
    t.status = t'.status ∧ t.errcode = t'.errcode ∧ t.errsub = t'.errsub ∧
      (t.errcode ≠ 5 → AgreeOnWrites (writeSet i) t t')

/-- R205, R206: the state of the Decoder each of its commands reports, by its outcome (for SKIP_QUESTION and DECODE where
R188 promises their results a meaning); a command that ends with CommandError leaves DSTATE and CUR as they were. -/
def Obligations.DstateReports : Prop :=
  ∀ (i : Instr) (s t : State), (writeSet i).dstate = true → promised s i = true → exec i s = .next t →
    if t.errcode = 5 then t.dstate = s.dstate ∧ t.cur = s.cur
    else match i with
    | .parseHeader => t.dstate = if t.errcode = 0 then 1 else 0
    | .skipQuestion => t.errcode = 0 ∧ t.dstate = 2
    | .resolveOwner => t.dstate = if t.errcode = 0 then 3 else 2
    | .parseAnswer => if t.errcode = 0 then t.dstate = 5 else t.dstate = 2 ∨ t.dstate = 3 ∨ t.dstate = 4
    | _ => if t.errcode = 0 then t.dstate = 5 else t.dstate = 0 ∨ t.dstate = 2 ∨ t.dstate = 3 ∨ t.dstate = 4

/-! ### The command table -/

/-- R120: the codes of the table decode to their commands. -/
def Obligations.CommandCodesDecode : Prop :=
  decode 0x01 = .ok .packFlags ∧ decode 0x02 = .ok .unpackFlags ∧ decode 0x10 = .ok .buildHeader ∧
  decode 0x11 = .ok .encodeName ∧ decode 0x12 = .ok .buildQuestion ∧ decode 0x13 = .ok .buildQuery ∧
  decode 0x20 = .ok .parseHeader ∧ decode 0x21 = .ok .skipQuestion ∧ decode 0x22 = .ok .resolveOwner ∧
  decode 0x23 = .ok .parseAnswer ∧ decode 0x24 = .ok .decode

/-- R120 to R122: decoding and encoding undo each other, and a code decodes exactly where the table has it. -/
def Obligations.DecodeEncodeAgree : Prop :=
  (∀ i : Instr, decode (encode i) = .ok i) ∧
  (∀ (c : Byte) (i : Instr), decode c = .ok i → encode i = c) ∧
  (∀ c : Byte, (∃ i : Instr, decode c = .ok i) ↔ wellFormedCode c = true)

/-! ### The host's accesses -/

/-- R24: a write to CMD while the block is not busy runs the command whose code its low 8 bits are (R22); the host action
is used up, and CMD holds no code when the command runs. The second clause is the same of the model's own placing of a
command (log entries 3 and 18), which first makes the block not busy. -/
def Obligations.StepRunsTheCommand : Prop :=
  (∀ (s : State) (v : Nat) (rest : List HostAction) (i : Instr), s.host = .writeReg 0 v :: rest → s.busy = false →
    decode (BitVec.ofNat 8 v) = .ok i → step s = exec i { s with host := rest, cmd := 0 }) ∧
  (∀ (s : State) (nbits w : Nat) (i : Instr), decodeTableWord nbits w = some i →
    step (s.withFetchWord nbits w) = exec i { s with cmd := 0, status := s.status &&& 0b110#3 })

/-- R22, R23: a host write to a read-write register other than CMD keeps the low W bits of the value and leaves every
other register as it was. -/
def Obligations.RegisterWriteKeepsLowBits : Prop :=
  ∀ (s : State) (r : Reg) (v : Nat), r.access = .rw →
    regRead (regWrite s v r) r = BitVec.ofNat 32 (v % 2 ^ r.width) ∧
    ∀ r' : Reg, r' ≠ r → regRead (regWrite s v r) r' = regRead s r'

/-- R21, R22, R23, R67: a step that writes a register other than CMD writes it where it is read-write, its low bits, and
nothing where it is read-only; every other register, every byte of every space, CMD and what stands outside the block are
as before. -/
def Obligations.StepWritesRegister : Prop :=
  ∀ (s : State) (n v : Nat) (rest : List HostAction) (r : Reg), s.host = .writeReg n v :: rest → s.busy = false →
    Reg.ofNum n = some r → r ≠ .cmd →
    ∃ t : State, step s = .next t ∧ t = regWrite { s with host := rest } v r ∧
      (r.access = .rw → (regRead t r).toNat = v % 2 ^ r.width) ∧
      (r.access = .ro → t = { s with host := rest }) ∧
      (∀ r' : Reg, r' ≠ r → regRead t r' = regRead s r') ∧
      (∀ (sp : Space) (a : Nat), (spaceBytes t sp).read a = (spaceBytes s sp).read a) ∧
      t.cmd = s.cmd ∧ t.host = rest ∧ SameOutside s t

/-- R21, R65, R67: a host read of register number n delivers the n-th of the registers' values, whole, and changes nothing
of the block; CMD reads 0. -/
def Obligations.StepReadsRegister : Prop :=
  ∀ (s : State) (n : Nat) (rest : List HostAction) (r : Reg), s.host = .readReg n :: rest → s.busy = false →
    Reg.ofNum n = some r →
    step s = .next { s with host := rest, readData := some (regRead s r) } ∧ (r = .cmd → regRead s r = 0) ∧
      (registerValues s)[n]? = some (regRead s r).toNat ∧ (regRead s r).toNat < 2 ^ r.width

/-- R24, R281: while BUSY = 1 a host write to a register or to a byte that exists is ignored, a read of STATUS delivers
STATUS, and any other read delivers some value, of which nothing is said, and changes nothing of the block. A run reaches
BUSY = 1 where a command waits for its draw (log entries 4, 28). -/
def Obligations.BusyAccesses : Prop :=
  (∀ (s : State) (n v : Nat) (rest : List HostAction), s.host = .writeReg n v :: rest → s.busy = true → n < 35 →
    step s = .next { s with host := rest }) ∧
  (∀ (s : State) (sp : Space) (a : Nat) (b : Byte) (rest : List HostAction), s.host = .writeByte sp a b :: rest →
    s.busy = true → a < spaceCap s.rxCap sp → step s = .next { s with host := rest }) ∧
  (∀ (s : State) (rest : List HostAction), s.host = .readReg 1 :: rest → s.busy = true →
    step s = .next { s with host := rest, readData := some (s.status.setWidth 32) }) ∧
  (∀ (s : State) (n : Nat) (rest : List HostAction), s.host = .readReg n :: rest → s.busy = true → n < 35 → n ≠ 1 →
    ∃ v : Word32, step s = .next { s with host := rest, readData := some v, busyReads := s.busyReads + 1 }) ∧
  (∀ (s : State) (sp : Space) (a : Nat) (rest : List HostAction), s.host = .readByte sp a :: rest → s.busy = true →
    a < spaceCap s.rxCap sp →
    ∃ v : Word32, step s = .next { s with host := rest, readData := some v, busyReads := s.busyReads + 1 })

/-- R40, R60, R65, R67: a byte the host writes to NAME, RX or Q is the byte it reads back; no other byte of any space, no
register, and nothing outside the block changes. And R42, R285: a host read of any byte that holds a value, of NAME, RX
and Q below the capacity, of TX, OWNER and ADDRSTR below the length register, delivers that byte and changes nothing of
the block. The delivered value is the model's own field (log entries 15, 23). -/
def Obligations.HostBytesReadBack : Prop :=
  (∀ (s : State) (sp : Space) (a : Nat) (b : Byte) (rest : List HostAction),
    s.host = .writeByte sp a b :: .readByte sp a :: rest → s.busy = false → hostWrites sp = true →
    a < spaceCap s.rxCap sp →
    ∃ t : State, step s = .next t ∧
      step t = .next { t with host := rest, readData := some (b.setWidth 32) } ∧
      (∀ (sp' : Space) (a' : Nat), (sp', a') ≠ (sp, a) → (spaceBytes t sp').read a' = (spaceBytes s sp').read a') ∧
      (∀ r : Reg, regRead t r = regRead s r) ∧ t.cmd = s.cmd ∧ t.host = .readByte sp a :: rest ∧ SameOutside s t) ∧
  (∀ (s : State) (sp : Space) (a : Nat) (b : Byte) (rest : List HostAction), s.host = .readByte sp a :: rest →
    s.busy = false → hostCanRead s sp a b →
    step s = .next { s with host := rest, readData := some (b.setWidth 32) })

/-- R42, R285: a host read at or above the length of a block-written space, or of a byte with no value, is a fault. -/
def Obligations.UnspecifiedByteFaults : Prop :=
  ∀ (s : State) (sp : Space) (a : Nat) (rest : List HostAction), s.host = .readByte sp a :: rest → s.busy = false →
    a < spaceCap s.rxCap sp → (readableLen s sp ≤ a ∨ (spaceBytes s sp).read a = none) →
    step s = .fault (.unwrittenByte sp a)

/-- R270, R271, R47: the reset event puts every register at 0 and leaves no buffer byte with a value, busy or not. What
stands outside the block stays (log entries 5, 17), but that a reset of a busy block may have consumed the draw its
command had asked for (log entry 29). -/
def Obligations.ResetEvent : Prop :=
  ∀ (s : State) (rest : List HostAction), s.host = .reset :: rest →
    ∃ t : State, step s = .next t ∧ (∀ r : Reg, regRead t r = 0) ∧ t.cmd = 0 ∧
      (∀ (sp : Space) (a : Nat), (spaceBytes t sp).read a = none) ∧
      t.host = rest ∧ t.rxCap = s.rxCap ∧ t.entropyReady = s.entropyReady ∧ t.busyReads = s.busyReads ∧
      t.readData = s.readData ∧ (s.busy = false → t.draws = s.draws) ∧ (t.draws = s.draws ∨ t.draws = s.draws + 1)

/-- R21, R40, R60, R270: the edges of the port. A register number above 34 or an index at or above a capacity is a fault
of the host; a byte of TX, OWNER or ADDRSTR written while the block is not busy is refused, since the spec gives such a
write no effect (log entries 12 and 13); with no host action waiting the block does nothing (log entry 2). -/
def Obligations.PortEdges : Prop :=
  (∀ (s : State) (n v : Nat) (rest : List HostAction), 35 ≤ n →
    (s.host = .writeReg n v :: rest → step s = .fault (.noSuchRegister n)) ∧
    (s.host = .readReg n :: rest → step s = .fault (.noSuchRegister n))) ∧
  (∀ (s : State) (sp : Space) (a : Nat) (b : Byte) (rest : List HostAction), spaceCap s.rxCap sp ≤ a →
    (s.host = .writeByte sp a b :: rest → step s = .fault (.noSuchByte sp a)) ∧
    (s.host = .readByte sp a :: rest → step s = .fault (.noSuchByte sp a))) ∧
  (∀ (s : State) (sp : Space) (a : Nat) (b : Byte) (rest : List HostAction), s.host = .writeByte sp a b :: rest →
    s.busy = false → a < spaceCap s.rxCap sp → hostWrites sp = false →
    step s = .refused (.blockBufferWrite sp)) ∧
  (∀ s : State, s.host = [] → step s = .next s)

/-! ### The invariant -/

/-- The invariant holds after reset. RX_CAP after reset is the model's own (log entries 5, 22), and so is
the clause on BUSY and CMD (log entries 4, 14, 28). -/
def Obligations.InvariantAtReset : Prop := Inv State.reset

/-- Every step, whatever the host and the entropy source do, keeps the invariant: no command left running or latched but
one that waits for its draw, RX_CAP 1 to 65535, STATUS in agreement with the error registers, the block-written spaces
with a value exactly below their lengths and within their capacities, the owner and answer groups well formed, the
host-written spaces canonical. The clause on BUSY, CMD and the entropy source's switch (BUSY = 1 only where a command waits
for its draw, with its code in CMD and the switch off, and CMD empty otherwise) is the model's choice (log entries 4, 14,
28); RX_CAP as a field (entry 5) and no value beyond a block-written length (entry 9) are so too. After a DECODE or a
SKIP_QUESTION whose question was not echoed R188 promises nothing of the results: that DSTATE, the owner group and the
answer group keep their form there is the model's choice as well (log entry 10). -/
def Obligations.StepKeepsInvariant : Prop :=
  ∀ s t : State, Inv s → step s = .next t → Inv t

/-! ### The entropy source -/

/-- R253, R281, the hold: a command that needs a draw the entropy source does not deliver starts, stays busy and writes
nothing; every host access leaves it so, with every register and every byte as it was; the source's answer, whenever it
comes, ends it as if it had started then; and the answer means nothing to a block that is not busy. The code left in CMD
and the switch that stands for the source are the model's own (log entries 14, 28). The fourth clause takes in busy states
that no run reaches (another command's code in CMD, a source that already answers), of which R253 says nothing: what it
says there is the model's choice (log entry 19); in the states that meet the invariant it follows from R253. -/
def Obligations.EntropyHold : Prop :=
  (∀ (i : Instr) (s : State), waits s i = true →
    exec i s = .next { s with cmd := encode i, status := 0b001#3, errcode := 0, errsub := 0 }) ∧
  (∀ (s t : State) (a : HostAction) (rest : List HostAction), s.busy = true → s.host = a :: rest → a ≠ .reset →
    a ≠ .entropy true → step s = .next t →
    t.busy = true ∧ t.cmd = s.cmd ∧ t.draws = s.draws ∧ (∀ r : Reg, regRead t r = regRead s r) ∧
      ∀ (sp : Space) (x : Nat), (spaceBytes t sp).read x = (spaceBytes s sp).read x) ∧
  (∀ (i : Instr) (s h : State) (rest : List HostAction), waits s i = true → exec i s = .next h →
    step { h with host := .entropy true :: rest } = exec i { s with host := rest, entropyReady := true, cmd := 0 }) ∧
  (∀ (s : State) (i : Instr) (rest : List HostAction), s.busy = true → decode s.cmd = .ok i →
    s.host = .entropy true :: rest → step s = exec i { s with host := rest, entropyReady := true, cmd := 0 }) ∧
  (∀ (s : State) (ready : Bool) (rest : List HostAction), s.busy = false → s.host = .entropy ready :: rest →
    step s = .next { s with host := rest, entropyReady := ready })
end

