-- ==== Sys2Proof/Laws/Memory.lean ====
section
/-! SUPPORT. The laws of a buffer space: read after write, and the canonical form that every operation keeps. -/

namespace Sys2Proof.Machine

@[simp] theorem Memory.read_nil (a : Nat) : Memory.read [] a = none := rfl

theorem Memory.read_cons (x : Nat) (b : Byte) (m : Memory) (a : Nat) :
    Memory.read ((x, b) :: m) a = if x = a then some b else Memory.read m a := rfl

/-- A byte written is the byte read. -/
@[simp] theorem Memory.read_write_self (m : Memory) (a : Nat) (b : Byte) : (m.write a b).read a = some b := by
  induction m with
  | nil => simp [Memory.write, Memory.read]
  | cons cell m ih =>
    obtain ⟨x, c⟩ := cell
    rw [Memory.write]
    split
    · simp [Memory.read_cons]
    · split
      · simp [Memory.read_cons]
      · next h1 h2 => rw [Memory.read_cons, if_neg (fun h => h2 h.symm), ih]

/-- Every other byte is as it was. -/
theorem Memory.read_write_of_ne (m : Memory) {a a' : Nat} (b : Byte) (h : a' ≠ a) :
    (m.write a b).read a' = m.read a' := by
  induction m with
  | nil => simp [Memory.write, Memory.read, h.symm]
  | cons cell m ih =>
    obtain ⟨x, c⟩ := cell
    rw [Memory.write]
    split
    · rw [Memory.read_cons, if_neg h.symm]
    · split
      · next h1 h2 => subst h2; rw [Memory.read_cons, Memory.read_cons, if_neg h.symm, if_neg h.symm]
      · rw [Memory.read_cons, Memory.read_cons, ih]

/-- The canonical form of a longer list: its head below its second entry, and its tail in the form. -/
theorem Memory.wf_cons_cons (x y : Nat) (b c : Byte) (m : Memory) :
    Memory.wf ((x, b) :: (y, c) :: m) = true ↔ x < y ∧ Memory.wf ((y, c) :: m) = true := by
  simp [Memory.wf]

theorem Memory.wf_tail {cell : Host.Cell} {m : Memory} (h : Memory.wf (cell :: m) = true) : Memory.wf m = true := by
  cases m with
  | nil => rfl
  | cons d m => exact ((Memory.wf_cons_cons _ _ _ _ _).mp h).2

/-- A write keeps the canonical form. -/
theorem Memory.wf_write {m : Memory} (a : Nat) (b : Byte) (h : m.wf = true) : (m.write a b).wf = true := by
  induction m with
  | nil => rfl
  | cons cell m ih =>
    obtain ⟨x, c⟩ := cell
    rw [Memory.write]
    split
    · next h1 => exact (Memory.wf_cons_cons _ _ _ _ _).mpr ⟨h1, h⟩
    · next h1 =>
      split
      · next h2 =>
        subst h2
        cases m with
        | nil => rfl
        | cons d m => exact (Memory.wf_cons_cons _ _ _ _ _).mpr ((Memory.wf_cons_cons _ _ _ _ _).mp h)
      · next h2 =>
        have ih := ih (Memory.wf_tail h)
        cases m with
        | nil => exact (Memory.wf_cons_cons _ _ _ _ _).mpr ⟨by omega, rfl⟩
        | cons d m =>
          obtain ⟨y, e⟩ := d
          have hxy := ((Memory.wf_cons_cons _ _ _ _ _).mp h).1
          rw [Memory.write] at ih ⊢
          split
          · next h3 => rw [if_pos h3] at ih; exact (Memory.wf_cons_cons _ _ _ _ _).mpr ⟨by omega, ih⟩
          · next h3 =>
            rw [if_neg h3] at ih
            split
            · next h4 => rw [if_pos h4] at ih; exact (Memory.wf_cons_cons _ _ _ _ _).mpr ⟨by omega, ih⟩
            · next h4 => rw [if_neg h4] at ih; exact (Memory.wf_cons_cons _ _ _ _ _).mpr ⟨hxy, ih⟩

@[simp] theorem Memory.below_nil (cap : Nat) : Memory.below cap [] = true := rfl

theorem Memory.below_cons (cap x : Nat) (b : Byte) (m : Memory) :
    Memory.below cap ((x, b) :: m) = true ↔ x < cap ∧ Memory.below cap m = true := by
  simp [Memory.below]

/-- A write below the capacity keeps every index below it. -/
theorem Memory.below_write {cap : Nat} {m : Memory} {a : Nat} (b : Byte) (ha : a < cap) (h : m.below cap = true) :
    (m.write a b).below cap = true := by
  induction m with
  | nil => exact (Memory.below_cons _ _ _ _).mpr ⟨ha, rfl⟩
  | cons cell m ih =>
    obtain ⟨x, c⟩ := cell
    have hx := (Memory.below_cons _ _ _ _).mp h
    rw [Memory.write]
    split
    · exact (Memory.below_cons _ _ _ _).mpr ⟨ha, h⟩
    · split
      · exact (Memory.below_cons _ _ _ _).mpr ⟨ha, hx.2⟩
      · exact (Memory.below_cons _ _ _ _).mpr ⟨hx.1, ih hx.2⟩

/-- The space made of a byte string holds its bytes, from its base on, and nothing else. -/
theorem Memory.read_ofBytes (base : Nat) (bs : List Byte) (a : Nat) :
    (Memory.ofBytes base bs).read a = if base ≤ a then bs[a - base]? else none := by
  induction bs generalizing base with
  | nil => simp [Memory.ofBytes]
  | cons b bs ih =>
    rw [Memory.ofBytes, Memory.read_cons]
    split
    · next h => subst h; simp
    · next h =>
      rw [ih]
      by_cases h' : base ≤ a
      · have : a - base = (a - (base + 1)) + 1 := by omega
        rw [if_pos (by omega), if_pos h', this, List.getElem?_cons_succ]
      · rw [if_neg (by omega), if_neg h']

@[simp] theorem Memory.read_ofBytes_zero (bs : List Byte) (a : Nat) : (Memory.ofBytes 0 bs).read a = bs[a]? := by
  rw [Memory.read_ofBytes]; simp

/-- The space made of a byte string is in canonical form. -/
theorem Memory.wf_ofBytes (base : Nat) (bs : List Byte) : (Memory.ofBytes base bs).wf = true := by
  induction bs generalizing base with
  | nil => rfl
  | cons b bs ih =>
    cases bs with
    | nil => rfl
    | cons c bs => exact (Memory.wf_cons_cons _ _ _ _ _).mpr ⟨by omega, ih (base + 1)⟩

/-- Its indices lie below its end. -/
theorem Memory.below_ofBytes (base : Nat) (bs : List Byte) {cap : Nat} (h : base + bs.length ≤ cap) :
    (Memory.ofBytes base bs).below cap = true := by
  induction bs generalizing base with
  | nil => rfl
  | cons b bs ih =>
    simp only [List.length_cons] at h
    exact (Memory.below_cons _ _ _ _).mpr ⟨by omega, ih (base + 1) (by omega)⟩

@[simp] theorem Memory.ofBytes_length (base : Nat) (bs : List Byte) : (Memory.ofBytes base bs).length = bs.length := by
  induction bs generalizing base with
  | nil => rfl
  | cons b bs ih => simp [Memory.ofBytes, ih]

end Sys2Proof.Machine
end

