-- ==== Sys2Proof/Laws/State.lean ====
section
/-! SUPPORT. What each named update of the state does to each field: one lemma per field per update, so that no later
proof unfolds a record update. -/

namespace Sys2Proof.Machine

/-! ### setFld -/

@[simp] theorem State.setFld_cmd (s : State) (f : FlagFields) : (s.setFld f).cmd = s.cmd := rfl
@[simp] theorem State.setFld_status (s : State) (f : FlagFields) : (s.setFld f).status = s.status := rfl
@[simp] theorem State.setFld_errcode (s : State) (f : FlagFields) : (s.setFld f).errcode = s.errcode := rfl
@[simp] theorem State.setFld_errsub (s : State) (f : FlagFields) : (s.setFld f).errsub = s.errsub := rfl
@[simp] theorem State.setFld_dstate (s : State) (f : FlagFields) : (s.setFld f).dstate = s.dstate := rfl
@[simp] theorem State.setFld_cur (s : State) (f : FlagFields) : (s.setFld f).cur = s.cur := rfl
@[simp] theorem State.setFld_namelen (s : State) (f : FlagFields) : (s.setFld f).namelen = s.namelen := rfl
@[simp] theorem State.setFld_txlen (s : State) (f : FlagFields) : (s.setFld f).txlen = s.txlen := rfl
@[simp] theorem State.setFld_rxlen (s : State) (f : FlagFields) : (s.setFld f).rxlen = s.rxlen := rfl
@[simp] theorem State.setFld_qlen (s : State) (f : FlagFields) : (s.setFld f).qlen = s.qlen := rfl
@[simp] theorem State.setFld_ansoff (s : State) (f : FlagFields) : (s.setFld f).ansoff = s.ansoff := rfl
@[simp] theorem State.setFld_hdr (s : State) (f : FlagFields) : (s.setFld f).hdr = s.hdr := rfl
@[simp] theorem State.setFld_fld (s : State) (f : FlagFields) : (s.setFld f).fld = f := rfl
@[simp] theorem State.setFld_own (s : State) (f : FlagFields) : (s.setFld f).own = s.own := rfl
@[simp] theorem State.setFld_ans (s : State) (f : FlagFields) : (s.setFld f).ans = s.ans := rfl
@[simp] theorem State.setFld_name (s : State) (f : FlagFields) : (s.setFld f).name = s.name := rfl
@[simp] theorem State.setFld_tx (s : State) (f : FlagFields) : (s.setFld f).tx = s.tx := rfl
@[simp] theorem State.setFld_rx (s : State) (f : FlagFields) : (s.setFld f).rx = s.rx := rfl
@[simp] theorem State.setFld_q (s : State) (f : FlagFields) : (s.setFld f).q = s.q := rfl
@[simp] theorem State.setFld_rxCap (s : State) (f : FlagFields) : (s.setFld f).rxCap = s.rxCap := rfl
@[simp] theorem State.setFld_draws (s : State) (f : FlagFields) : (s.setFld f).draws = s.draws := rfl
@[simp] theorem State.setFld_entropyReady (s : State) (f : FlagFields) : (s.setFld f).entropyReady = s.entropyReady := rfl
@[simp] theorem State.setFld_busyReads (s : State) (f : FlagFields) : (s.setFld f).busyReads = s.busyReads := rfl
@[simp] theorem State.setFld_readData (s : State) (f : FlagFields) : (s.setFld f).readData = s.readData := rfl
@[simp] theorem State.setFld_host (s : State) (f : FlagFields) : (s.setFld f).host = s.host := rfl

/-! ### setHdr -/

@[simp] theorem State.setHdr_cmd (s : State) (h : Header) : (s.setHdr h).cmd = s.cmd := rfl
@[simp] theorem State.setHdr_status (s : State) (h : Header) : (s.setHdr h).status = s.status := rfl
@[simp] theorem State.setHdr_errcode (s : State) (h : Header) : (s.setHdr h).errcode = s.errcode := rfl
@[simp] theorem State.setHdr_errsub (s : State) (h : Header) : (s.setHdr h).errsub = s.errsub := rfl
@[simp] theorem State.setHdr_dstate (s : State) (h : Header) : (s.setHdr h).dstate = s.dstate := rfl
@[simp] theorem State.setHdr_cur (s : State) (h : Header) : (s.setHdr h).cur = s.cur := rfl
@[simp] theorem State.setHdr_namelen (s : State) (h : Header) : (s.setHdr h).namelen = s.namelen := rfl
@[simp] theorem State.setHdr_txlen (s : State) (h : Header) : (s.setHdr h).txlen = s.txlen := rfl
@[simp] theorem State.setHdr_rxlen (s : State) (h : Header) : (s.setHdr h).rxlen = s.rxlen := rfl
@[simp] theorem State.setHdr_qlen (s : State) (h : Header) : (s.setHdr h).qlen = s.qlen := rfl
@[simp] theorem State.setHdr_ansoff (s : State) (h : Header) : (s.setHdr h).ansoff = s.ansoff := rfl
@[simp] theorem State.setHdr_hdr (s : State) (h : Header) : (s.setHdr h).hdr = h := rfl
@[simp] theorem State.setHdr_fld (s : State) (h : Header) : (s.setHdr h).fld = s.fld := rfl
@[simp] theorem State.setHdr_own (s : State) (h : Header) : (s.setHdr h).own = s.own := rfl
@[simp] theorem State.setHdr_ans (s : State) (h : Header) : (s.setHdr h).ans = s.ans := rfl
@[simp] theorem State.setHdr_name (s : State) (h : Header) : (s.setHdr h).name = s.name := rfl
@[simp] theorem State.setHdr_tx (s : State) (h : Header) : (s.setHdr h).tx = s.tx := rfl
@[simp] theorem State.setHdr_rx (s : State) (h : Header) : (s.setHdr h).rx = s.rx := rfl
@[simp] theorem State.setHdr_q (s : State) (h : Header) : (s.setHdr h).q = s.q := rfl
@[simp] theorem State.setHdr_rxCap (s : State) (h : Header) : (s.setHdr h).rxCap = s.rxCap := rfl
@[simp] theorem State.setHdr_draws (s : State) (h : Header) : (s.setHdr h).draws = s.draws := rfl
@[simp] theorem State.setHdr_entropyReady (s : State) (h : Header) : (s.setHdr h).entropyReady = s.entropyReady := rfl
@[simp] theorem State.setHdr_busyReads (s : State) (h : Header) : (s.setHdr h).busyReads = s.busyReads := rfl
@[simp] theorem State.setHdr_readData (s : State) (h : Header) : (s.setHdr h).readData = s.readData := rfl
@[simp] theorem State.setHdr_host (s : State) (h : Header) : (s.setHdr h).host = s.host := rfl

/-! ### setFlags -/

@[simp] theorem State.setFlags_cmd (s : State) (w : Word16) : (s.setFlags w).cmd = s.cmd := rfl
@[simp] theorem State.setFlags_status (s : State) (w : Word16) : (s.setFlags w).status = s.status := rfl
@[simp] theorem State.setFlags_errcode (s : State) (w : Word16) : (s.setFlags w).errcode = s.errcode := rfl
@[simp] theorem State.setFlags_errsub (s : State) (w : Word16) : (s.setFlags w).errsub = s.errsub := rfl
@[simp] theorem State.setFlags_dstate (s : State) (w : Word16) : (s.setFlags w).dstate = s.dstate := rfl
@[simp] theorem State.setFlags_cur (s : State) (w : Word16) : (s.setFlags w).cur = s.cur := rfl
@[simp] theorem State.setFlags_namelen (s : State) (w : Word16) : (s.setFlags w).namelen = s.namelen := rfl
@[simp] theorem State.setFlags_txlen (s : State) (w : Word16) : (s.setFlags w).txlen = s.txlen := rfl
@[simp] theorem State.setFlags_rxlen (s : State) (w : Word16) : (s.setFlags w).rxlen = s.rxlen := rfl
@[simp] theorem State.setFlags_qlen (s : State) (w : Word16) : (s.setFlags w).qlen = s.qlen := rfl
@[simp] theorem State.setFlags_ansoff (s : State) (w : Word16) : (s.setFlags w).ansoff = s.ansoff := rfl
@[simp] theorem State.setFlags_hdr (s : State) (w : Word16) : (s.setFlags w).hdr = { s.hdr with flags := w } := rfl
@[simp] theorem State.setFlags_fld (s : State) (w : Word16) : (s.setFlags w).fld = s.fld := rfl
@[simp] theorem State.setFlags_own (s : State) (w : Word16) : (s.setFlags w).own = s.own := rfl
@[simp] theorem State.setFlags_ans (s : State) (w : Word16) : (s.setFlags w).ans = s.ans := rfl
@[simp] theorem State.setFlags_name (s : State) (w : Word16) : (s.setFlags w).name = s.name := rfl
@[simp] theorem State.setFlags_tx (s : State) (w : Word16) : (s.setFlags w).tx = s.tx := rfl
@[simp] theorem State.setFlags_rx (s : State) (w : Word16) : (s.setFlags w).rx = s.rx := rfl
@[simp] theorem State.setFlags_q (s : State) (w : Word16) : (s.setFlags w).q = s.q := rfl
@[simp] theorem State.setFlags_rxCap (s : State) (w : Word16) : (s.setFlags w).rxCap = s.rxCap := rfl
@[simp] theorem State.setFlags_draws (s : State) (w : Word16) : (s.setFlags w).draws = s.draws := rfl
@[simp] theorem State.setFlags_entropyReady (s : State) (w : Word16) : (s.setFlags w).entropyReady = s.entropyReady := rfl
@[simp] theorem State.setFlags_busyReads (s : State) (w : Word16) : (s.setFlags w).busyReads = s.busyReads := rfl
@[simp] theorem State.setFlags_readData (s : State) (w : Word16) : (s.setFlags w).readData = s.readData := rfl
@[simp] theorem State.setFlags_host (s : State) (w : Word16) : (s.setFlags w).host = s.host := rfl

/-! ### setAnsoff -/

@[simp] theorem State.setAnsoff_cmd (s : State) (a : Nat) : (s.setAnsoff a).cmd = s.cmd := rfl
@[simp] theorem State.setAnsoff_status (s : State) (a : Nat) : (s.setAnsoff a).status = s.status := rfl
@[simp] theorem State.setAnsoff_errcode (s : State) (a : Nat) : (s.setAnsoff a).errcode = s.errcode := rfl
@[simp] theorem State.setAnsoff_errsub (s : State) (a : Nat) : (s.setAnsoff a).errsub = s.errsub := rfl
@[simp] theorem State.setAnsoff_dstate (s : State) (a : Nat) : (s.setAnsoff a).dstate = s.dstate := rfl
@[simp] theorem State.setAnsoff_cur (s : State) (a : Nat) : (s.setAnsoff a).cur = s.cur := rfl
@[simp] theorem State.setAnsoff_namelen (s : State) (a : Nat) : (s.setAnsoff a).namelen = s.namelen := rfl
@[simp] theorem State.setAnsoff_txlen (s : State) (a : Nat) : (s.setAnsoff a).txlen = s.txlen := rfl
@[simp] theorem State.setAnsoff_rxlen (s : State) (a : Nat) : (s.setAnsoff a).rxlen = s.rxlen := rfl
@[simp] theorem State.setAnsoff_qlen (s : State) (a : Nat) : (s.setAnsoff a).qlen = s.qlen := rfl
@[simp] theorem State.setAnsoff_ansoff (s : State) (a : Nat) : (s.setAnsoff a).ansoff = BitVec.ofNat 16 a := rfl
@[simp] theorem State.setAnsoff_hdr (s : State) (a : Nat) : (s.setAnsoff a).hdr = s.hdr := rfl
@[simp] theorem State.setAnsoff_fld (s : State) (a : Nat) : (s.setAnsoff a).fld = s.fld := rfl
@[simp] theorem State.setAnsoff_own (s : State) (a : Nat) : (s.setAnsoff a).own = s.own := rfl
@[simp] theorem State.setAnsoff_ans (s : State) (a : Nat) : (s.setAnsoff a).ans = s.ans := rfl
@[simp] theorem State.setAnsoff_name (s : State) (a : Nat) : (s.setAnsoff a).name = s.name := rfl
@[simp] theorem State.setAnsoff_tx (s : State) (a : Nat) : (s.setAnsoff a).tx = s.tx := rfl
@[simp] theorem State.setAnsoff_rx (s : State) (a : Nat) : (s.setAnsoff a).rx = s.rx := rfl
@[simp] theorem State.setAnsoff_q (s : State) (a : Nat) : (s.setAnsoff a).q = s.q := rfl
@[simp] theorem State.setAnsoff_rxCap (s : State) (a : Nat) : (s.setAnsoff a).rxCap = s.rxCap := rfl
@[simp] theorem State.setAnsoff_draws (s : State) (a : Nat) : (s.setAnsoff a).draws = s.draws := rfl
@[simp] theorem State.setAnsoff_entropyReady (s : State) (a : Nat) : (s.setAnsoff a).entropyReady = s.entropyReady := rfl
@[simp] theorem State.setAnsoff_busyReads (s : State) (a : Nat) : (s.setAnsoff a).busyReads = s.busyReads := rfl
@[simp] theorem State.setAnsoff_readData (s : State) (a : Nat) : (s.setAnsoff a).readData = s.readData := rfl
@[simp] theorem State.setAnsoff_host (s : State) (a : Nat) : (s.setAnsoff a).host = s.host := rfl

/-! ### setOwn -/

@[simp] theorem State.setOwn_cmd (s : State) (o : Owner) : (s.setOwn o).cmd = s.cmd := rfl
@[simp] theorem State.setOwn_status (s : State) (o : Owner) : (s.setOwn o).status = s.status := rfl
@[simp] theorem State.setOwn_errcode (s : State) (o : Owner) : (s.setOwn o).errcode = s.errcode := rfl
@[simp] theorem State.setOwn_errsub (s : State) (o : Owner) : (s.setOwn o).errsub = s.errsub := rfl
@[simp] theorem State.setOwn_dstate (s : State) (o : Owner) : (s.setOwn o).dstate = s.dstate := rfl
@[simp] theorem State.setOwn_cur (s : State) (o : Owner) : (s.setOwn o).cur = s.cur := rfl
@[simp] theorem State.setOwn_namelen (s : State) (o : Owner) : (s.setOwn o).namelen = s.namelen := rfl
@[simp] theorem State.setOwn_txlen (s : State) (o : Owner) : (s.setOwn o).txlen = s.txlen := rfl
@[simp] theorem State.setOwn_rxlen (s : State) (o : Owner) : (s.setOwn o).rxlen = s.rxlen := rfl
@[simp] theorem State.setOwn_qlen (s : State) (o : Owner) : (s.setOwn o).qlen = s.qlen := rfl
@[simp] theorem State.setOwn_ansoff (s : State) (o : Owner) : (s.setOwn o).ansoff = s.ansoff := rfl
@[simp] theorem State.setOwn_hdr (s : State) (o : Owner) : (s.setOwn o).hdr = s.hdr := rfl
@[simp] theorem State.setOwn_fld (s : State) (o : Owner) : (s.setOwn o).fld = s.fld := rfl
@[simp] theorem State.setOwn_own (s : State) (o : Owner) : (s.setOwn o).own = o := rfl
@[simp] theorem State.setOwn_ans (s : State) (o : Owner) : (s.setOwn o).ans = s.ans := rfl
@[simp] theorem State.setOwn_name (s : State) (o : Owner) : (s.setOwn o).name = s.name := rfl
@[simp] theorem State.setOwn_tx (s : State) (o : Owner) : (s.setOwn o).tx = s.tx := rfl
@[simp] theorem State.setOwn_rx (s : State) (o : Owner) : (s.setOwn o).rx = s.rx := rfl
@[simp] theorem State.setOwn_q (s : State) (o : Owner) : (s.setOwn o).q = s.q := rfl
@[simp] theorem State.setOwn_rxCap (s : State) (o : Owner) : (s.setOwn o).rxCap = s.rxCap := rfl
@[simp] theorem State.setOwn_draws (s : State) (o : Owner) : (s.setOwn o).draws = s.draws := rfl
@[simp] theorem State.setOwn_entropyReady (s : State) (o : Owner) : (s.setOwn o).entropyReady = s.entropyReady := rfl
@[simp] theorem State.setOwn_busyReads (s : State) (o : Owner) : (s.setOwn o).busyReads = s.busyReads := rfl
@[simp] theorem State.setOwn_readData (s : State) (o : Owner) : (s.setOwn o).readData = s.readData := rfl
@[simp] theorem State.setOwn_host (s : State) (o : Owner) : (s.setOwn o).host = s.host := rfl

/-! ### setAns -/

@[simp] theorem State.setAns_cmd (s : State) (a : Answer) : (s.setAns a).cmd = s.cmd := rfl
@[simp] theorem State.setAns_status (s : State) (a : Answer) : (s.setAns a).status = s.status := rfl
@[simp] theorem State.setAns_errcode (s : State) (a : Answer) : (s.setAns a).errcode = s.errcode := rfl
@[simp] theorem State.setAns_errsub (s : State) (a : Answer) : (s.setAns a).errsub = s.errsub := rfl
@[simp] theorem State.setAns_dstate (s : State) (a : Answer) : (s.setAns a).dstate = s.dstate := rfl
@[simp] theorem State.setAns_cur (s : State) (a : Answer) : (s.setAns a).cur = s.cur := rfl
@[simp] theorem State.setAns_namelen (s : State) (a : Answer) : (s.setAns a).namelen = s.namelen := rfl
@[simp] theorem State.setAns_txlen (s : State) (a : Answer) : (s.setAns a).txlen = s.txlen := rfl
@[simp] theorem State.setAns_rxlen (s : State) (a : Answer) : (s.setAns a).rxlen = s.rxlen := rfl
@[simp] theorem State.setAns_qlen (s : State) (a : Answer) : (s.setAns a).qlen = s.qlen := rfl
@[simp] theorem State.setAns_ansoff (s : State) (a : Answer) : (s.setAns a).ansoff = s.ansoff := rfl
@[simp] theorem State.setAns_hdr (s : State) (a : Answer) : (s.setAns a).hdr = s.hdr := rfl
@[simp] theorem State.setAns_fld (s : State) (a : Answer) : (s.setAns a).fld = s.fld := rfl
@[simp] theorem State.setAns_own (s : State) (a : Answer) : (s.setAns a).own = s.own := rfl
@[simp] theorem State.setAns_ans (s : State) (a : Answer) : (s.setAns a).ans = a := rfl
@[simp] theorem State.setAns_name (s : State) (a : Answer) : (s.setAns a).name = s.name := rfl
@[simp] theorem State.setAns_tx (s : State) (a : Answer) : (s.setAns a).tx = s.tx := rfl
@[simp] theorem State.setAns_rx (s : State) (a : Answer) : (s.setAns a).rx = s.rx := rfl
@[simp] theorem State.setAns_q (s : State) (a : Answer) : (s.setAns a).q = s.q := rfl
@[simp] theorem State.setAns_rxCap (s : State) (a : Answer) : (s.setAns a).rxCap = s.rxCap := rfl
@[simp] theorem State.setAns_draws (s : State) (a : Answer) : (s.setAns a).draws = s.draws := rfl
@[simp] theorem State.setAns_entropyReady (s : State) (a : Answer) : (s.setAns a).entropyReady = s.entropyReady := rfl
@[simp] theorem State.setAns_busyReads (s : State) (a : Answer) : (s.setAns a).busyReads = s.busyReads := rfl
@[simp] theorem State.setAns_readData (s : State) (a : Answer) : (s.setAns a).readData = s.readData := rfl
@[simp] theorem State.setAns_host (s : State) (a : Answer) : (s.setAns a).host = s.host := rfl

/-! ### setCur -/

@[simp] theorem State.setCur_cmd (s : State) (p : Nat) : (s.setCur p).cmd = s.cmd := rfl
@[simp] theorem State.setCur_status (s : State) (p : Nat) : (s.setCur p).status = s.status := rfl
@[simp] theorem State.setCur_errcode (s : State) (p : Nat) : (s.setCur p).errcode = s.errcode := rfl
@[simp] theorem State.setCur_errsub (s : State) (p : Nat) : (s.setCur p).errsub = s.errsub := rfl
@[simp] theorem State.setCur_dstate (s : State) (p : Nat) : (s.setCur p).dstate = s.dstate := rfl
@[simp] theorem State.setCur_cur (s : State) (p : Nat) : (s.setCur p).cur = BitVec.ofNat 16 p := rfl
@[simp] theorem State.setCur_namelen (s : State) (p : Nat) : (s.setCur p).namelen = s.namelen := rfl
@[simp] theorem State.setCur_txlen (s : State) (p : Nat) : (s.setCur p).txlen = s.txlen := rfl
@[simp] theorem State.setCur_rxlen (s : State) (p : Nat) : (s.setCur p).rxlen = s.rxlen := rfl
@[simp] theorem State.setCur_qlen (s : State) (p : Nat) : (s.setCur p).qlen = s.qlen := rfl
@[simp] theorem State.setCur_ansoff (s : State) (p : Nat) : (s.setCur p).ansoff = s.ansoff := rfl
@[simp] theorem State.setCur_hdr (s : State) (p : Nat) : (s.setCur p).hdr = s.hdr := rfl
@[simp] theorem State.setCur_fld (s : State) (p : Nat) : (s.setCur p).fld = s.fld := rfl
@[simp] theorem State.setCur_own (s : State) (p : Nat) : (s.setCur p).own = s.own := rfl
@[simp] theorem State.setCur_ans (s : State) (p : Nat) : (s.setCur p).ans = s.ans := rfl
@[simp] theorem State.setCur_name (s : State) (p : Nat) : (s.setCur p).name = s.name := rfl
@[simp] theorem State.setCur_tx (s : State) (p : Nat) : (s.setCur p).tx = s.tx := rfl
@[simp] theorem State.setCur_rx (s : State) (p : Nat) : (s.setCur p).rx = s.rx := rfl
@[simp] theorem State.setCur_q (s : State) (p : Nat) : (s.setCur p).q = s.q := rfl
@[simp] theorem State.setCur_rxCap (s : State) (p : Nat) : (s.setCur p).rxCap = s.rxCap := rfl
@[simp] theorem State.setCur_draws (s : State) (p : Nat) : (s.setCur p).draws = s.draws := rfl
@[simp] theorem State.setCur_entropyReady (s : State) (p : Nat) : (s.setCur p).entropyReady = s.entropyReady := rfl
@[simp] theorem State.setCur_busyReads (s : State) (p : Nat) : (s.setCur p).busyReads = s.busyReads := rfl
@[simp] theorem State.setCur_readData (s : State) (p : Nat) : (s.setCur p).readData = s.readData := rfl
@[simp] theorem State.setCur_host (s : State) (p : Nat) : (s.setCur p).host = s.host := rfl

/-! ### setDstate -/

@[simp] theorem State.setDstate_cmd (s : State) (d : DState) : (s.setDstate d).cmd = s.cmd := rfl
@[simp] theorem State.setDstate_status (s : State) (d : DState) : (s.setDstate d).status = s.status := rfl
@[simp] theorem State.setDstate_errcode (s : State) (d : DState) : (s.setDstate d).errcode = s.errcode := rfl
@[simp] theorem State.setDstate_errsub (s : State) (d : DState) : (s.setDstate d).errsub = s.errsub := rfl
@[simp] theorem State.setDstate_dstate (s : State) (d : DState) : (s.setDstate d).dstate = d.num := rfl
@[simp] theorem State.setDstate_cur (s : State) (d : DState) : (s.setDstate d).cur = s.cur := rfl
@[simp] theorem State.setDstate_namelen (s : State) (d : DState) : (s.setDstate d).namelen = s.namelen := rfl
@[simp] theorem State.setDstate_txlen (s : State) (d : DState) : (s.setDstate d).txlen = s.txlen := rfl
@[simp] theorem State.setDstate_rxlen (s : State) (d : DState) : (s.setDstate d).rxlen = s.rxlen := rfl
@[simp] theorem State.setDstate_qlen (s : State) (d : DState) : (s.setDstate d).qlen = s.qlen := rfl
@[simp] theorem State.setDstate_ansoff (s : State) (d : DState) : (s.setDstate d).ansoff = s.ansoff := rfl
@[simp] theorem State.setDstate_hdr (s : State) (d : DState) : (s.setDstate d).hdr = s.hdr := rfl
@[simp] theorem State.setDstate_fld (s : State) (d : DState) : (s.setDstate d).fld = s.fld := rfl
@[simp] theorem State.setDstate_own (s : State) (d : DState) : (s.setDstate d).own = s.own := rfl
@[simp] theorem State.setDstate_ans (s : State) (d : DState) : (s.setDstate d).ans = s.ans := rfl
@[simp] theorem State.setDstate_name (s : State) (d : DState) : (s.setDstate d).name = s.name := rfl
@[simp] theorem State.setDstate_tx (s : State) (d : DState) : (s.setDstate d).tx = s.tx := rfl
@[simp] theorem State.setDstate_rx (s : State) (d : DState) : (s.setDstate d).rx = s.rx := rfl
@[simp] theorem State.setDstate_q (s : State) (d : DState) : (s.setDstate d).q = s.q := rfl
@[simp] theorem State.setDstate_rxCap (s : State) (d : DState) : (s.setDstate d).rxCap = s.rxCap := rfl
@[simp] theorem State.setDstate_draws (s : State) (d : DState) : (s.setDstate d).draws = s.draws := rfl
@[simp] theorem State.setDstate_entropyReady (s : State) (d : DState) : (s.setDstate d).entropyReady = s.entropyReady := rfl
@[simp] theorem State.setDstate_busyReads (s : State) (d : DState) : (s.setDstate d).busyReads = s.busyReads := rfl
@[simp] theorem State.setDstate_readData (s : State) (d : DState) : (s.setDstate d).readData = s.readData := rfl
@[simp] theorem State.setDstate_host (s : State) (d : DState) : (s.setDstate d).host = s.host := rfl

/-! ### setTx -/

@[simp] theorem State.setTx_cmd (s : State) (bs : List Byte) : (s.setTx bs).cmd = s.cmd := rfl
@[simp] theorem State.setTx_status (s : State) (bs : List Byte) : (s.setTx bs).status = s.status := rfl
@[simp] theorem State.setTx_errcode (s : State) (bs : List Byte) : (s.setTx bs).errcode = s.errcode := rfl
@[simp] theorem State.setTx_errsub (s : State) (bs : List Byte) : (s.setTx bs).errsub = s.errsub := rfl
@[simp] theorem State.setTx_dstate (s : State) (bs : List Byte) : (s.setTx bs).dstate = s.dstate := rfl
@[simp] theorem State.setTx_cur (s : State) (bs : List Byte) : (s.setTx bs).cur = s.cur := rfl
@[simp] theorem State.setTx_namelen (s : State) (bs : List Byte) : (s.setTx bs).namelen = s.namelen := rfl
@[simp] theorem State.setTx_txlen (s : State) (bs : List Byte) : (s.setTx bs).txlen = BitVec.ofNat 9 bs.length := rfl
@[simp] theorem State.setTx_rxlen (s : State) (bs : List Byte) : (s.setTx bs).rxlen = s.rxlen := rfl
@[simp] theorem State.setTx_qlen (s : State) (bs : List Byte) : (s.setTx bs).qlen = s.qlen := rfl
@[simp] theorem State.setTx_ansoff (s : State) (bs : List Byte) : (s.setTx bs).ansoff = s.ansoff := rfl
@[simp] theorem State.setTx_hdr (s : State) (bs : List Byte) : (s.setTx bs).hdr = s.hdr := rfl
@[simp] theorem State.setTx_fld (s : State) (bs : List Byte) : (s.setTx bs).fld = s.fld := rfl
@[simp] theorem State.setTx_own (s : State) (bs : List Byte) : (s.setTx bs).own = s.own := rfl
@[simp] theorem State.setTx_ans (s : State) (bs : List Byte) : (s.setTx bs).ans = s.ans := rfl
@[simp] theorem State.setTx_name (s : State) (bs : List Byte) : (s.setTx bs).name = s.name := rfl
@[simp] theorem State.setTx_tx (s : State) (bs : List Byte) : (s.setTx bs).tx = Memory.ofBytes 0 bs := rfl
@[simp] theorem State.setTx_rx (s : State) (bs : List Byte) : (s.setTx bs).rx = s.rx := rfl
@[simp] theorem State.setTx_q (s : State) (bs : List Byte) : (s.setTx bs).q = s.q := rfl
@[simp] theorem State.setTx_rxCap (s : State) (bs : List Byte) : (s.setTx bs).rxCap = s.rxCap := rfl
@[simp] theorem State.setTx_draws (s : State) (bs : List Byte) : (s.setTx bs).draws = s.draws := rfl
@[simp] theorem State.setTx_entropyReady (s : State) (bs : List Byte) : (s.setTx bs).entropyReady = s.entropyReady := rfl
@[simp] theorem State.setTx_busyReads (s : State) (bs : List Byte) : (s.setTx bs).busyReads = s.busyReads := rfl
@[simp] theorem State.setTx_readData (s : State) (bs : List Byte) : (s.setTx bs).readData = s.readData := rfl
@[simp] theorem State.setTx_host (s : State) (bs : List Byte) : (s.setTx bs).host = s.host := rfl

/-! ### takeDraw -/

@[simp] theorem State.takeDraw_cmd (s : State) : (s.takeDraw).cmd = s.cmd := rfl
@[simp] theorem State.takeDraw_status (s : State) : (s.takeDraw).status = s.status := rfl
@[simp] theorem State.takeDraw_errcode (s : State) : (s.takeDraw).errcode = s.errcode := rfl
@[simp] theorem State.takeDraw_errsub (s : State) : (s.takeDraw).errsub = s.errsub := rfl
@[simp] theorem State.takeDraw_dstate (s : State) : (s.takeDraw).dstate = s.dstate := rfl
@[simp] theorem State.takeDraw_cur (s : State) : (s.takeDraw).cur = s.cur := rfl
@[simp] theorem State.takeDraw_namelen (s : State) : (s.takeDraw).namelen = s.namelen := rfl
@[simp] theorem State.takeDraw_txlen (s : State) : (s.takeDraw).txlen = s.txlen := rfl
@[simp] theorem State.takeDraw_rxlen (s : State) : (s.takeDraw).rxlen = s.rxlen := rfl
@[simp] theorem State.takeDraw_qlen (s : State) : (s.takeDraw).qlen = s.qlen := rfl
@[simp] theorem State.takeDraw_ansoff (s : State) : (s.takeDraw).ansoff = s.ansoff := rfl
@[simp] theorem State.takeDraw_hdr (s : State) : (s.takeDraw).hdr = s.hdr := rfl
@[simp] theorem State.takeDraw_fld (s : State) : (s.takeDraw).fld = s.fld := rfl
@[simp] theorem State.takeDraw_own (s : State) : (s.takeDraw).own = s.own := rfl
@[simp] theorem State.takeDraw_ans (s : State) : (s.takeDraw).ans = s.ans := rfl
@[simp] theorem State.takeDraw_name (s : State) : (s.takeDraw).name = s.name := rfl
@[simp] theorem State.takeDraw_tx (s : State) : (s.takeDraw).tx = s.tx := rfl
@[simp] theorem State.takeDraw_rx (s : State) : (s.takeDraw).rx = s.rx := rfl
@[simp] theorem State.takeDraw_q (s : State) : (s.takeDraw).q = s.q := rfl
@[simp] theorem State.takeDraw_rxCap (s : State) : (s.takeDraw).rxCap = s.rxCap := rfl
@[simp] theorem State.takeDraw_draws (s : State) : (s.takeDraw).draws = s.draws + 1 := rfl
@[simp] theorem State.takeDraw_entropyReady (s : State) : (s.takeDraw).entropyReady = s.entropyReady := rfl
@[simp] theorem State.takeDraw_busyReads (s : State) : (s.takeDraw).busyReads = s.busyReads := rfl
@[simp] theorem State.takeDraw_readData (s : State) : (s.takeDraw).readData = s.readData := rfl
@[simp] theorem State.takeDraw_host (s : State) : (s.takeDraw).host = s.host := rfl

/-! ### setEntropy -/

@[simp] theorem State.setEntropy_cmd (s : State) (b : Bool) : (s.setEntropy b).cmd = s.cmd := rfl
@[simp] theorem State.setEntropy_status (s : State) (b : Bool) : (s.setEntropy b).status = s.status := rfl
@[simp] theorem State.setEntropy_errcode (s : State) (b : Bool) : (s.setEntropy b).errcode = s.errcode := rfl
@[simp] theorem State.setEntropy_errsub (s : State) (b : Bool) : (s.setEntropy b).errsub = s.errsub := rfl
@[simp] theorem State.setEntropy_dstate (s : State) (b : Bool) : (s.setEntropy b).dstate = s.dstate := rfl
@[simp] theorem State.setEntropy_cur (s : State) (b : Bool) : (s.setEntropy b).cur = s.cur := rfl
@[simp] theorem State.setEntropy_namelen (s : State) (b : Bool) : (s.setEntropy b).namelen = s.namelen := rfl
@[simp] theorem State.setEntropy_txlen (s : State) (b : Bool) : (s.setEntropy b).txlen = s.txlen := rfl
@[simp] theorem State.setEntropy_rxlen (s : State) (b : Bool) : (s.setEntropy b).rxlen = s.rxlen := rfl
@[simp] theorem State.setEntropy_qlen (s : State) (b : Bool) : (s.setEntropy b).qlen = s.qlen := rfl
@[simp] theorem State.setEntropy_ansoff (s : State) (b : Bool) : (s.setEntropy b).ansoff = s.ansoff := rfl
@[simp] theorem State.setEntropy_hdr (s : State) (b : Bool) : (s.setEntropy b).hdr = s.hdr := rfl
@[simp] theorem State.setEntropy_fld (s : State) (b : Bool) : (s.setEntropy b).fld = s.fld := rfl
@[simp] theorem State.setEntropy_own (s : State) (b : Bool) : (s.setEntropy b).own = s.own := rfl
@[simp] theorem State.setEntropy_ans (s : State) (b : Bool) : (s.setEntropy b).ans = s.ans := rfl
@[simp] theorem State.setEntropy_name (s : State) (b : Bool) : (s.setEntropy b).name = s.name := rfl
@[simp] theorem State.setEntropy_tx (s : State) (b : Bool) : (s.setEntropy b).tx = s.tx := rfl
@[simp] theorem State.setEntropy_rx (s : State) (b : Bool) : (s.setEntropy b).rx = s.rx := rfl
@[simp] theorem State.setEntropy_q (s : State) (b : Bool) : (s.setEntropy b).q = s.q := rfl
@[simp] theorem State.setEntropy_rxCap (s : State) (b : Bool) : (s.setEntropy b).rxCap = s.rxCap := rfl
@[simp] theorem State.setEntropy_draws (s : State) (b : Bool) : (s.setEntropy b).draws = s.draws := rfl
@[simp] theorem State.setEntropy_entropyReady (s : State) (b : Bool) : (s.setEntropy b).entropyReady = b := rfl
@[simp] theorem State.setEntropy_busyReads (s : State) (b : Bool) : (s.setEntropy b).busyReads = s.busyReads := rfl
@[simp] theorem State.setEntropy_readData (s : State) (b : Bool) : (s.setEntropy b).readData = s.readData := rfl
@[simp] theorem State.setEntropy_host (s : State) (b : Bool) : (s.setEntropy b).host = s.host := rfl

/-! ### latchCmd -/

@[simp] theorem State.latchCmd_cmd (s : State) (v : Nat) : (s.latchCmd v).cmd = BitVec.ofNat 8 v := rfl
@[simp] theorem State.latchCmd_status (s : State) (v : Nat) : (s.latchCmd v).status = s.status := rfl
@[simp] theorem State.latchCmd_errcode (s : State) (v : Nat) : (s.latchCmd v).errcode = s.errcode := rfl
@[simp] theorem State.latchCmd_errsub (s : State) (v : Nat) : (s.latchCmd v).errsub = s.errsub := rfl
@[simp] theorem State.latchCmd_dstate (s : State) (v : Nat) : (s.latchCmd v).dstate = s.dstate := rfl
@[simp] theorem State.latchCmd_cur (s : State) (v : Nat) : (s.latchCmd v).cur = s.cur := rfl
@[simp] theorem State.latchCmd_namelen (s : State) (v : Nat) : (s.latchCmd v).namelen = s.namelen := rfl
@[simp] theorem State.latchCmd_txlen (s : State) (v : Nat) : (s.latchCmd v).txlen = s.txlen := rfl
@[simp] theorem State.latchCmd_rxlen (s : State) (v : Nat) : (s.latchCmd v).rxlen = s.rxlen := rfl
@[simp] theorem State.latchCmd_qlen (s : State) (v : Nat) : (s.latchCmd v).qlen = s.qlen := rfl
@[simp] theorem State.latchCmd_ansoff (s : State) (v : Nat) : (s.latchCmd v).ansoff = s.ansoff := rfl
@[simp] theorem State.latchCmd_hdr (s : State) (v : Nat) : (s.latchCmd v).hdr = s.hdr := rfl
@[simp] theorem State.latchCmd_fld (s : State) (v : Nat) : (s.latchCmd v).fld = s.fld := rfl
@[simp] theorem State.latchCmd_own (s : State) (v : Nat) : (s.latchCmd v).own = s.own := rfl
@[simp] theorem State.latchCmd_ans (s : State) (v : Nat) : (s.latchCmd v).ans = s.ans := rfl
@[simp] theorem State.latchCmd_name (s : State) (v : Nat) : (s.latchCmd v).name = s.name := rfl
@[simp] theorem State.latchCmd_tx (s : State) (v : Nat) : (s.latchCmd v).tx = s.tx := rfl
@[simp] theorem State.latchCmd_rx (s : State) (v : Nat) : (s.latchCmd v).rx = s.rx := rfl
@[simp] theorem State.latchCmd_q (s : State) (v : Nat) : (s.latchCmd v).q = s.q := rfl
@[simp] theorem State.latchCmd_rxCap (s : State) (v : Nat) : (s.latchCmd v).rxCap = s.rxCap := rfl
@[simp] theorem State.latchCmd_draws (s : State) (v : Nat) : (s.latchCmd v).draws = s.draws := rfl
@[simp] theorem State.latchCmd_entropyReady (s : State) (v : Nat) : (s.latchCmd v).entropyReady = s.entropyReady := rfl
@[simp] theorem State.latchCmd_busyReads (s : State) (v : Nat) : (s.latchCmd v).busyReads = s.busyReads := rfl
@[simp] theorem State.latchCmd_readData (s : State) (v : Nat) : (s.latchCmd v).readData = s.readData := rfl
@[simp] theorem State.latchCmd_host (s : State) (v : Nat) : (s.latchCmd v).host = s.host := rfl

/-! ### consumeCmd -/

@[simp] theorem State.consumeCmd_cmd (s : State) : (s.consumeCmd).cmd = 0 := rfl
@[simp] theorem State.consumeCmd_status (s : State) : (s.consumeCmd).status = s.status := rfl
@[simp] theorem State.consumeCmd_errcode (s : State) : (s.consumeCmd).errcode = s.errcode := rfl
@[simp] theorem State.consumeCmd_errsub (s : State) : (s.consumeCmd).errsub = s.errsub := rfl
@[simp] theorem State.consumeCmd_dstate (s : State) : (s.consumeCmd).dstate = s.dstate := rfl
@[simp] theorem State.consumeCmd_cur (s : State) : (s.consumeCmd).cur = s.cur := rfl
@[simp] theorem State.consumeCmd_namelen (s : State) : (s.consumeCmd).namelen = s.namelen := rfl
@[simp] theorem State.consumeCmd_txlen (s : State) : (s.consumeCmd).txlen = s.txlen := rfl
@[simp] theorem State.consumeCmd_rxlen (s : State) : (s.consumeCmd).rxlen = s.rxlen := rfl
@[simp] theorem State.consumeCmd_qlen (s : State) : (s.consumeCmd).qlen = s.qlen := rfl
@[simp] theorem State.consumeCmd_ansoff (s : State) : (s.consumeCmd).ansoff = s.ansoff := rfl
@[simp] theorem State.consumeCmd_hdr (s : State) : (s.consumeCmd).hdr = s.hdr := rfl
@[simp] theorem State.consumeCmd_fld (s : State) : (s.consumeCmd).fld = s.fld := rfl
@[simp] theorem State.consumeCmd_own (s : State) : (s.consumeCmd).own = s.own := rfl
@[simp] theorem State.consumeCmd_ans (s : State) : (s.consumeCmd).ans = s.ans := rfl
@[simp] theorem State.consumeCmd_name (s : State) : (s.consumeCmd).name = s.name := rfl
@[simp] theorem State.consumeCmd_tx (s : State) : (s.consumeCmd).tx = s.tx := rfl
@[simp] theorem State.consumeCmd_rx (s : State) : (s.consumeCmd).rx = s.rx := rfl
@[simp] theorem State.consumeCmd_q (s : State) : (s.consumeCmd).q = s.q := rfl
@[simp] theorem State.consumeCmd_rxCap (s : State) : (s.consumeCmd).rxCap = s.rxCap := rfl
@[simp] theorem State.consumeCmd_draws (s : State) : (s.consumeCmd).draws = s.draws := rfl
@[simp] theorem State.consumeCmd_entropyReady (s : State) : (s.consumeCmd).entropyReady = s.entropyReady := rfl
@[simp] theorem State.consumeCmd_busyReads (s : State) : (s.consumeCmd).busyReads = s.busyReads := rfl
@[simp] theorem State.consumeCmd_readData (s : State) : (s.consumeCmd).readData = s.readData := rfl
@[simp] theorem State.consumeCmd_host (s : State) : (s.consumeCmd).host = s.host := rfl

/-! ### start -/

@[simp] theorem State.start_cmd (s : State) : (s.start).cmd = s.cmd := rfl
@[simp] theorem State.start_status (s : State) : (s.start).status = statusBusy := rfl
@[simp] theorem State.start_errcode (s : State) : (s.start).errcode = 0 := rfl
@[simp] theorem State.start_errsub (s : State) : (s.start).errsub = 0 := rfl
@[simp] theorem State.start_dstate (s : State) : (s.start).dstate = s.dstate := rfl
@[simp] theorem State.start_cur (s : State) : (s.start).cur = s.cur := rfl
@[simp] theorem State.start_namelen (s : State) : (s.start).namelen = s.namelen := rfl
@[simp] theorem State.start_txlen (s : State) : (s.start).txlen = s.txlen := rfl
@[simp] theorem State.start_rxlen (s : State) : (s.start).rxlen = s.rxlen := rfl
@[simp] theorem State.start_qlen (s : State) : (s.start).qlen = s.qlen := rfl
@[simp] theorem State.start_ansoff (s : State) : (s.start).ansoff = s.ansoff := rfl
@[simp] theorem State.start_hdr (s : State) : (s.start).hdr = s.hdr := rfl
@[simp] theorem State.start_fld (s : State) : (s.start).fld = s.fld := rfl
@[simp] theorem State.start_own (s : State) : (s.start).own = s.own := rfl
@[simp] theorem State.start_ans (s : State) : (s.start).ans = s.ans := rfl
@[simp] theorem State.start_name (s : State) : (s.start).name = s.name := rfl
@[simp] theorem State.start_tx (s : State) : (s.start).tx = s.tx := rfl
@[simp] theorem State.start_rx (s : State) : (s.start).rx = s.rx := rfl
@[simp] theorem State.start_q (s : State) : (s.start).q = s.q := rfl
@[simp] theorem State.start_rxCap (s : State) : (s.start).rxCap = s.rxCap := rfl
@[simp] theorem State.start_draws (s : State) : (s.start).draws = s.draws := rfl
@[simp] theorem State.start_entropyReady (s : State) : (s.start).entropyReady = s.entropyReady := rfl
@[simp] theorem State.start_busyReads (s : State) : (s.start).busyReads = s.busyReads := rfl
@[simp] theorem State.start_readData (s : State) : (s.start).readData = s.readData := rfl
@[simp] theorem State.start_host (s : State) : (s.start).host = s.host := rfl

/-! ### hold -/

@[simp] theorem State.hold_cmd (s : State) (i : Instr) : (s.hold i).cmd = encode i := rfl
@[simp] theorem State.hold_status (s : State) (i : Instr) : (s.hold i).status = statusBusy := rfl
@[simp] theorem State.hold_errcode (s : State) (i : Instr) : (s.hold i).errcode = 0 := rfl
@[simp] theorem State.hold_errsub (s : State) (i : Instr) : (s.hold i).errsub = 0 := rfl
@[simp] theorem State.hold_dstate (s : State) (i : Instr) : (s.hold i).dstate = s.dstate := rfl
@[simp] theorem State.hold_cur (s : State) (i : Instr) : (s.hold i).cur = s.cur := rfl
@[simp] theorem State.hold_namelen (s : State) (i : Instr) : (s.hold i).namelen = s.namelen := rfl
@[simp] theorem State.hold_txlen (s : State) (i : Instr) : (s.hold i).txlen = s.txlen := rfl
@[simp] theorem State.hold_rxlen (s : State) (i : Instr) : (s.hold i).rxlen = s.rxlen := rfl
@[simp] theorem State.hold_qlen (s : State) (i : Instr) : (s.hold i).qlen = s.qlen := rfl
@[simp] theorem State.hold_ansoff (s : State) (i : Instr) : (s.hold i).ansoff = s.ansoff := rfl
@[simp] theorem State.hold_hdr (s : State) (i : Instr) : (s.hold i).hdr = s.hdr := rfl
@[simp] theorem State.hold_fld (s : State) (i : Instr) : (s.hold i).fld = s.fld := rfl
@[simp] theorem State.hold_own (s : State) (i : Instr) : (s.hold i).own = s.own := rfl
@[simp] theorem State.hold_ans (s : State) (i : Instr) : (s.hold i).ans = s.ans := rfl
@[simp] theorem State.hold_name (s : State) (i : Instr) : (s.hold i).name = s.name := rfl
@[simp] theorem State.hold_tx (s : State) (i : Instr) : (s.hold i).tx = s.tx := rfl
@[simp] theorem State.hold_rx (s : State) (i : Instr) : (s.hold i).rx = s.rx := rfl
@[simp] theorem State.hold_q (s : State) (i : Instr) : (s.hold i).q = s.q := rfl
@[simp] theorem State.hold_rxCap (s : State) (i : Instr) : (s.hold i).rxCap = s.rxCap := rfl
@[simp] theorem State.hold_draws (s : State) (i : Instr) : (s.hold i).draws = s.draws := rfl
@[simp] theorem State.hold_entropyReady (s : State) (i : Instr) : (s.hold i).entropyReady = s.entropyReady := rfl
@[simp] theorem State.hold_busyReads (s : State) (i : Instr) : (s.hold i).busyReads = s.busyReads := rfl
@[simp] theorem State.hold_readData (s : State) (i : Instr) : (s.hold i).readData = s.readData := rfl
@[simp] theorem State.hold_host (s : State) (i : Instr) : (s.hold i).host = s.host := rfl

/-- A command that waits for its draw is busy (R253). -/
@[simp] theorem State.hold_busy (s : State) (i : Instr) : (s.hold i).busy = true := by
  unfold State.busy; rw [State.hold_status]; decide

/-! ### succeed -/

@[simp] theorem State.succeed_cmd (s : State) : (s.succeed).cmd = s.cmd := rfl
@[simp] theorem State.succeed_status (s : State) : (s.succeed).status = statusDone := rfl
@[simp] theorem State.succeed_errcode (s : State) : (s.succeed).errcode = 0 := rfl
@[simp] theorem State.succeed_errsub (s : State) : (s.succeed).errsub = 0 := rfl
@[simp] theorem State.succeed_dstate (s : State) : (s.succeed).dstate = s.dstate := rfl
@[simp] theorem State.succeed_cur (s : State) : (s.succeed).cur = s.cur := rfl
@[simp] theorem State.succeed_namelen (s : State) : (s.succeed).namelen = s.namelen := rfl
@[simp] theorem State.succeed_txlen (s : State) : (s.succeed).txlen = s.txlen := rfl
@[simp] theorem State.succeed_rxlen (s : State) : (s.succeed).rxlen = s.rxlen := rfl
@[simp] theorem State.succeed_qlen (s : State) : (s.succeed).qlen = s.qlen := rfl
@[simp] theorem State.succeed_ansoff (s : State) : (s.succeed).ansoff = s.ansoff := rfl
@[simp] theorem State.succeed_hdr (s : State) : (s.succeed).hdr = s.hdr := rfl
@[simp] theorem State.succeed_fld (s : State) : (s.succeed).fld = s.fld := rfl
@[simp] theorem State.succeed_own (s : State) : (s.succeed).own = s.own := rfl
@[simp] theorem State.succeed_ans (s : State) : (s.succeed).ans = s.ans := rfl
@[simp] theorem State.succeed_name (s : State) : (s.succeed).name = s.name := rfl
@[simp] theorem State.succeed_tx (s : State) : (s.succeed).tx = s.tx := rfl
@[simp] theorem State.succeed_rx (s : State) : (s.succeed).rx = s.rx := rfl
@[simp] theorem State.succeed_q (s : State) : (s.succeed).q = s.q := rfl
@[simp] theorem State.succeed_rxCap (s : State) : (s.succeed).rxCap = s.rxCap := rfl
@[simp] theorem State.succeed_draws (s : State) : (s.succeed).draws = s.draws := rfl
@[simp] theorem State.succeed_entropyReady (s : State) : (s.succeed).entropyReady = s.entropyReady := rfl
@[simp] theorem State.succeed_busyReads (s : State) : (s.succeed).busyReads = s.busyReads := rfl
@[simp] theorem State.succeed_readData (s : State) : (s.succeed).readData = s.readData := rfl
@[simp] theorem State.succeed_host (s : State) : (s.succeed).host = s.host := rfl

/-! ### commandError -/

@[simp] theorem State.commandError_cmd (s : State) (c : Cause) : (s.commandError c).cmd = s.cmd := rfl
@[simp] theorem State.commandError_status (s : State) (c : Cause) : (s.commandError c).status = statusError := rfl
@[simp] theorem State.commandError_errcode (s : State) (c : Cause) : (s.commandError c).errcode = c.code := rfl
@[simp] theorem State.commandError_errsub (s : State) (c : Cause) : (s.commandError c).errsub = c.sub := rfl
@[simp] theorem State.commandError_dstate (s : State) (c : Cause) : (s.commandError c).dstate = s.dstate := rfl
@[simp] theorem State.commandError_cur (s : State) (c : Cause) : (s.commandError c).cur = s.cur := rfl
@[simp] theorem State.commandError_namelen (s : State) (c : Cause) : (s.commandError c).namelen = s.namelen := rfl
@[simp] theorem State.commandError_txlen (s : State) (c : Cause) : (s.commandError c).txlen = s.txlen := rfl
@[simp] theorem State.commandError_rxlen (s : State) (c : Cause) : (s.commandError c).rxlen = s.rxlen := rfl
@[simp] theorem State.commandError_qlen (s : State) (c : Cause) : (s.commandError c).qlen = s.qlen := rfl
@[simp] theorem State.commandError_ansoff (s : State) (c : Cause) : (s.commandError c).ansoff = s.ansoff := rfl
@[simp] theorem State.commandError_hdr (s : State) (c : Cause) : (s.commandError c).hdr = s.hdr := rfl
@[simp] theorem State.commandError_fld (s : State) (c : Cause) : (s.commandError c).fld = s.fld := rfl
@[simp] theorem State.commandError_own (s : State) (c : Cause) : (s.commandError c).own = s.own := rfl
@[simp] theorem State.commandError_ans (s : State) (c : Cause) : (s.commandError c).ans = s.ans := rfl
@[simp] theorem State.commandError_name (s : State) (c : Cause) : (s.commandError c).name = s.name := rfl
@[simp] theorem State.commandError_tx (s : State) (c : Cause) : (s.commandError c).tx = s.tx := rfl
@[simp] theorem State.commandError_rx (s : State) (c : Cause) : (s.commandError c).rx = s.rx := rfl
@[simp] theorem State.commandError_q (s : State) (c : Cause) : (s.commandError c).q = s.q := rfl
@[simp] theorem State.commandError_rxCap (s : State) (c : Cause) : (s.commandError c).rxCap = s.rxCap := rfl
@[simp] theorem State.commandError_draws (s : State) (c : Cause) : (s.commandError c).draws = s.draws := rfl
@[simp] theorem State.commandError_entropyReady (s : State) (c : Cause) : (s.commandError c).entropyReady = s.entropyReady := rfl
@[simp] theorem State.commandError_busyReads (s : State) (c : Cause) : (s.commandError c).busyReads = s.busyReads := rfl
@[simp] theorem State.commandError_readData (s : State) (c : Cause) : (s.commandError c).readData = s.readData := rfl
@[simp] theorem State.commandError_host (s : State) (c : Cause) : (s.commandError c).host = s.host := rfl

/-! ### clear -/

@[simp] theorem State.clear_cmd (s : State) (w : WriteSet) : (s.clear w).cmd = s.cmd := rfl
@[simp] theorem State.clear_status (s : State) (w : WriteSet) : (s.clear w).status = s.status := rfl
@[simp] theorem State.clear_errcode (s : State) (w : WriteSet) : (s.clear w).errcode = s.errcode := rfl
@[simp] theorem State.clear_errsub (s : State) (w : WriteSet) : (s.clear w).errsub = s.errsub := rfl
@[simp] theorem State.clear_dstate (s : State) (w : WriteSet) : (s.clear w).dstate = s.dstate := rfl
@[simp] theorem State.clear_cur (s : State) (w : WriteSet) : (s.clear w).cur = s.cur := rfl
@[simp] theorem State.clear_namelen (s : State) (w : WriteSet) : (s.clear w).namelen = s.namelen := rfl
@[simp] theorem State.clear_txlen (s : State) (w : WriteSet) : (s.clear w).txlen = if w.tx then 0 else s.txlen := rfl
@[simp] theorem State.clear_rxlen (s : State) (w : WriteSet) : (s.clear w).rxlen = s.rxlen := rfl
@[simp] theorem State.clear_qlen (s : State) (w : WriteSet) : (s.clear w).qlen = s.qlen := rfl
@[simp] theorem State.clear_ansoff (s : State) (w : WriteSet) : (s.clear w).ansoff = if w.ansoff then 0 else s.ansoff := rfl
@[simp] theorem State.clear_hdr (s : State) (w : WriteSet) : (s.clear w).hdr = s.hdr.clear w := rfl
@[simp] theorem State.clear_fld (s : State) (w : WriteSet) : (s.clear w).fld = if w.fld then FlagFields.zero else s.fld := rfl
@[simp] theorem State.clear_own (s : State) (w : WriteSet) : (s.clear w).own = if w.own then Owner.zero else s.own := rfl
@[simp] theorem State.clear_ans (s : State) (w : WriteSet) : (s.clear w).ans = if w.ans then Answer.zero else s.ans := rfl
@[simp] theorem State.clear_name (s : State) (w : WriteSet) : (s.clear w).name = s.name := rfl
@[simp] theorem State.clear_tx (s : State) (w : WriteSet) : (s.clear w).tx = if w.tx then [] else s.tx := rfl
@[simp] theorem State.clear_rx (s : State) (w : WriteSet) : (s.clear w).rx = s.rx := rfl
@[simp] theorem State.clear_q (s : State) (w : WriteSet) : (s.clear w).q = s.q := rfl
@[simp] theorem State.clear_rxCap (s : State) (w : WriteSet) : (s.clear w).rxCap = s.rxCap := rfl
@[simp] theorem State.clear_draws (s : State) (w : WriteSet) : (s.clear w).draws = s.draws := rfl
@[simp] theorem State.clear_entropyReady (s : State) (w : WriteSet) : (s.clear w).entropyReady = s.entropyReady := rfl
@[simp] theorem State.clear_busyReads (s : State) (w : WriteSet) : (s.clear w).busyReads = s.busyReads := rfl
@[simp] theorem State.clear_readData (s : State) (w : WriteSet) : (s.clear w).readData = s.readData := rfl
@[simp] theorem State.clear_host (s : State) (w : WriteSet) : (s.clear w).host = s.host := rfl

/-! ### fail -/

@[simp] theorem State.fail_cmd (s : State) (w : WriteSet) (c : Cause) (p : Nat) :
    (s.fail w c p).cmd = s.cmd := rfl
@[simp] theorem State.fail_status (s : State) (w : WriteSet) (c : Cause) (p : Nat) :
    (s.fail w c p).status = statusError := rfl
@[simp] theorem State.fail_errcode (s : State) (w : WriteSet) (c : Cause) (p : Nat) :
    (s.fail w c p).errcode = c.code := rfl
@[simp] theorem State.fail_errsub (s : State) (w : WriteSet) (c : Cause) (p : Nat) :
    (s.fail w c p).errsub = c.sub := rfl
@[simp] theorem State.fail_dstate (s : State) (w : WriteSet) (c : Cause) (p : Nat) :
    (s.fail w c p).dstate = if w.dstate then (match c.stage with | some d => d.num | none => s.dstate) else s.dstate := rfl
@[simp] theorem State.fail_cur (s : State) (w : WriteSet) (c : Cause) (p : Nat) :
    (s.fail w c p).cur = if w.cur then BitVec.ofNat 16 p else s.cur := rfl
@[simp] theorem State.fail_namelen (s : State) (w : WriteSet) (c : Cause) (p : Nat) :
    (s.fail w c p).namelen = s.namelen := rfl
@[simp] theorem State.fail_txlen (s : State) (w : WriteSet) (c : Cause) (p : Nat) :
    (s.fail w c p).txlen = if w.tx then 0 else s.txlen := rfl
@[simp] theorem State.fail_rxlen (s : State) (w : WriteSet) (c : Cause) (p : Nat) :
    (s.fail w c p).rxlen = s.rxlen := rfl
@[simp] theorem State.fail_qlen (s : State) (w : WriteSet) (c : Cause) (p : Nat) :
    (s.fail w c p).qlen = s.qlen := rfl
@[simp] theorem State.fail_ansoff (s : State) (w : WriteSet) (c : Cause) (p : Nat) :
    (s.fail w c p).ansoff = if w.ansoff then 0 else s.ansoff := rfl
@[simp] theorem State.fail_hdr (s : State) (w : WriteSet) (c : Cause) (p : Nat) :
    (s.fail w c p).hdr = s.hdr.clear w := rfl
@[simp] theorem State.fail_fld (s : State) (w : WriteSet) (c : Cause) (p : Nat) :
    (s.fail w c p).fld = if w.fld then FlagFields.zero else s.fld := rfl
@[simp] theorem State.fail_own (s : State) (w : WriteSet) (c : Cause) (p : Nat) :
    (s.fail w c p).own = if w.own then Owner.zero else s.own := rfl
@[simp] theorem State.fail_ans (s : State) (w : WriteSet) (c : Cause) (p : Nat) :
    (s.fail w c p).ans = if w.ans then Answer.zero else s.ans := rfl
@[simp] theorem State.fail_name (s : State) (w : WriteSet) (c : Cause) (p : Nat) :
    (s.fail w c p).name = s.name := rfl
@[simp] theorem State.fail_tx (s : State) (w : WriteSet) (c : Cause) (p : Nat) :
    (s.fail w c p).tx = if w.tx then [] else s.tx := rfl
@[simp] theorem State.fail_rx (s : State) (w : WriteSet) (c : Cause) (p : Nat) :
    (s.fail w c p).rx = s.rx := rfl
@[simp] theorem State.fail_q (s : State) (w : WriteSet) (c : Cause) (p : Nat) :
    (s.fail w c p).q = s.q := rfl
@[simp] theorem State.fail_rxCap (s : State) (w : WriteSet) (c : Cause) (p : Nat) :
    (s.fail w c p).rxCap = s.rxCap := rfl
@[simp] theorem State.fail_draws (s : State) (w : WriteSet) (c : Cause) (p : Nat) :
    (s.fail w c p).draws = s.draws := rfl
@[simp] theorem State.fail_entropyReady (s : State) (w : WriteSet) (c : Cause) (p : Nat) :
    (s.fail w c p).entropyReady = s.entropyReady := rfl
@[simp] theorem State.fail_busyReads (s : State) (w : WriteSet) (c : Cause) (p : Nat) :
    (s.fail w c p).busyReads = s.busyReads := rfl
@[simp] theorem State.fail_readData (s : State) (w : WriteSet) (c : Cause) (p : Nat) :
    (s.fail w c p).readData = s.readData := rfl
@[simp] theorem State.fail_host (s : State) (w : WriteSet) (c : Cause) (p : Nat) :
    (s.fail w c p).host = s.host := rfl

end Sys2Proof.Machine
end

