-- ==== Sys2Proof/Laws/Ops.lean ====
section
/-! SUPPORT. What each shared operation can do, said once: the work inside a command (`Res`), reads of bytes, the end of
a command (`conclude`), the test of RXLEN (`guardRxLen`) and the wait for a draw (`withDraw`). -/

namespace Sys2Proof.Machine

/-! ### Res.bind -/

@[simp] theorem Res.bind_ok {α β : Type} (a : α) (k : α → Res β) : (Res.ok a).bind k = k a := rfl
@[simp] theorem Res.bind_raise {α β : Type} (c : Cause) (p : Nat) (k : α → Res β) :
    (Res.raise c p : Res α).bind k = .raise c p := rfl
@[simp] theorem Res.bind_fault {α β : Type} (f : Fault) (k : α → Res β) : (Res.fault f : Res α).bind k = .fault f := rfl

/-- The work ends in a value only through a value of its first part. -/
theorem Res.bind_eq_ok {α β : Type} {r : Res α} {k : α → Res β} {b : β} :
    r.bind k = .ok b ↔ ∃ a, r = .ok a ∧ k a = .ok b := by
  cases r <;> simp

/-- The work raises where its first part does, or where the rest does on its value. -/
theorem Res.bind_eq_raise {α β : Type} {r : Res α} {k : α → Res β} {c : Cause} {p : Nat} :
    r.bind k = .raise c p ↔ r = .raise c p ∨ ∃ a, r = .ok a ∧ k a = .raise c p := by
  cases r <;> simp

/-- The work faults where its first part does, or where the rest does on its value. -/
theorem Res.bind_eq_fault {α β : Type} {r : Res α} {k : α → Res β} {f : Fault} :
    r.bind k = .fault f ↔ r = .fault f ∨ ∃ a, r = .ok a ∧ k a = .fault f := by
  cases r <;> simp

/-! ### Reads -/

theorem readByte_eq_ok {sp : Space} {m : Memory} {a : Nat} {b : Byte} : readByte sp m a = .ok b ↔ m.read a = some b := by
  unfold readByte; split <;> simp_all

/-- A read of a byte raises nothing. -/
@[simp] theorem readByte_ne_raise (sp : Space) (m : Memory) (a : Nat) (c : Cause) (p : Nat) :
    readByte sp m a ≠ .raise c p := by
  unfold readByte; split <;> simp

theorem readByte_eq_fault {sp : Space} {m : Memory} {a : Nat} {f : Fault} :
    readByte sp m a = .fault f ↔ m.read a = none ∧ f = .unwrittenByte sp a := by
  unfold readByte
  cases m.read a <;> simp [eq_comm]

/-- Two spaces that agree on a byte are read alike. -/
theorem readByte_congr {sp : Space} {m m' : Memory} {a : Nat} (h : m.read a = m'.read a) :
    readByte sp m a = readByte sp m' a := by
  unfold readByte; rw [h]

@[simp] theorem readBytes_zero (sp : Space) (m : Memory) (a : Nat) : readBytes sp m a 0 = .ok [] := rfl

theorem readBytes_succ (sp : Space) (m : Memory) (a k : Nat) :
    readBytes sp m a (k + 1) =
      (readByte sp m a).bind fun b => (readBytes sp m (a + 1) k).bind fun bs => .ok (b :: bs) := rfl

/-- `k` bytes read are the `k` bytes that stand there. -/
theorem readBytes_eq_ok {sp : Space} {m : Memory} {a k : Nat} {bs : List Byte} :
    readBytes sp m a k = .ok bs ↔ bs.length = k ∧ Safety.holdsAt m a bs := by
  induction k generalizing a bs with
  | zero =>
    constructor
    · intro h; cases h; exact ⟨rfl, fun k hk => absurd hk (by simp)⟩
    · intro h; rw [List.length_eq_zero_iff] at h; rw [h.1]; rfl
  | succ k ih =>
    rw [readBytes_succ, Res.bind_eq_ok]
    constructor
    · rintro ⟨b, hb, h⟩
      obtain ⟨bs', hbs, h⟩ := Res.bind_eq_ok.mp h
      cases h
      obtain ⟨hl, hh⟩ := ih.mp hbs
      refine ⟨by simp [hl], fun j hj => ?_⟩
      cases j with
      | zero => simpa using readByte_eq_ok.mp hb
      | succ j =>
        have := hh j (by simpa using hj)
        simpa [Nat.add_assoc, Nat.add_comm 1 j] using this
    · rintro ⟨hl, hh⟩
      cases bs with
      | nil => simp at hl
      | cons b bs =>
        have h0 := hh 0 (by simp)
        refine ⟨b, readByte_eq_ok.mpr (by simpa using h0), Res.bind_eq_ok.mpr ⟨bs, ih.mpr ⟨by simpa using hl, ?_⟩, rfl⟩⟩
        intro j hj
        have := hh (j + 1) (by simpa using hj)
        simpa [Nat.add_assoc, Nat.add_comm 1 j] using this

/-- Reads of bytes raise nothing. -/
@[simp] theorem readBytes_ne_raise (sp : Space) (m : Memory) (a k : Nat) (c : Cause) (p : Nat) :
    readBytes sp m a k ≠ .raise c p := by
  induction k generalizing a with
  | zero => simp
  | succ k ih =>
    rw [readBytes_succ, Ne, Res.bind_eq_raise]
    rintro (h | ⟨b, -, h⟩)
    · exact readByte_ne_raise _ _ _ _ _ h
    · rcases Res.bind_eq_raise.mp h with h | ⟨bs, -, h⟩
      · exact ih _ h
      · cases h

/-- A read of bytes faults only at a byte of its range that holds no value. -/
theorem readBytes_eq_fault {sp : Space} {m : Memory} {a k : Nat} {f : Fault} (h : readBytes sp m a k = .fault f) :
    ∃ j < k, m.read (a + j) = none ∧ f = .unwrittenByte sp (a + j) := by
  induction k generalizing a with
  | zero => cases h
  | succ k ih =>
    rcases Res.bind_eq_fault.mp h with h | ⟨b, -, h⟩
    · obtain ⟨h1, h2⟩ := readByte_eq_fault.mp h
      exact ⟨0, by omega, by simpa using h1, by simpa using h2⟩
    · rcases Res.bind_eq_fault.mp h with h | ⟨bs, -, h⟩
      · obtain ⟨j, hj, h1, h2⟩ := ih h
        exact ⟨j + 1, by omega, by rw [← h1]; congr 1; omega, by rw [h2]; congr 1; omega⟩
      · cases h

/-- Two spaces that agree on a range are read alike there. -/
theorem readBytes_congr {sp : Space} {m m' : Memory} {a k : Nat} (h : ∀ j < k, m.read (a + j) = m'.read (a + j)) :
    readBytes sp m a k = readBytes sp m' a k := by
  induction k generalizing a with
  | zero => rfl
  | succ k ih =>
    rw [readBytes_succ, readBytes_succ, readByte_congr (a := a) (by simpa using h 0 (by omega))]
    rw [ih fun j hj => by have := h (j + 1) (by omega); rwa [← Nat.add_assoc, Nat.add_right_comm] at this]

/-! ### The end of a command -/

@[simp] theorem conclude_ok {α : Type} (w : WriteSet) (s : State) (a : α) (f : α → State) :
    conclude w s (.ok a) f = .next (f a).succeed := rfl
@[simp] theorem conclude_raise {α : Type} (w : WriteSet) (s : State) (c : Cause) (p : Nat) (f : α → State) :
    conclude w s (.raise c p) f = .next (s.fail w c p) := rfl
@[simp] theorem conclude_fault {α : Type} (w : WriteSet) (s : State) (x : Fault) (f : α → State) :
    conclude w s (.fault x) f = .fault x := rfl

/-- All that `conclude` can do when it answers a next state: success with the results, or the error raised. -/
theorem conclude_eq_next {α : Type} {w : WriteSet} {s t : State} {r : Res α} {f : α → State}
    (h : conclude w s r f = .next t) :
    (∃ a, r = .ok a ∧ t = (f a).succeed) ∨ (∃ c p, r = .raise c p ∧ t = s.fail w c p) := by
  cases r with
  | ok a => exact .inl ⟨a, rfl, by simpa using h.symm⟩
  | raise c p => exact .inr ⟨c, p, rfl, by simpa using h.symm⟩
  | fault x => simp at h

/-- A fault of `conclude` is the fault of the work. -/
theorem conclude_eq_fault {α : Type} {w : WriteSet} {s : State} {r : Res α} {f : α → State} {x : Fault}
    (h : conclude w s r f = .fault x) : r = .fault x := by
  cases r <;> simp_all

theorem conclude_ne_refused {α : Type} (w : WriteSet) (s : State) (r : Res α) (f : α → State) (x : Refusal) :
    conclude w s r f ≠ .refused x := by
  cases r <;> simp

/-- The test of RXLEN passed. -/
theorem guardRxLen_pass {s : State} {k : Host.Outcome State Fault Refusal} (h : s.rxlen.toNat ≤ s.rxCap.toNat) :
    guardRxLen s k = k := if_neg (by omega)

/-- The test of RXLEN failed: CommandError BAD_LENGTH. -/
theorem guardRxLen_fail {s : State} {k : Host.Outcome State Fault Refusal} (h : s.rxCap.toNat < s.rxlen.toNat) :
    guardRxLen s k = .next (s.commandError .badLength) := if_pos h

/-- The two ways a command that reads RX goes. -/
theorem guardRxLen_cases (s : State) (k : Host.Outcome State Fault Refusal) :
    (s.rxCap.toNat < s.rxlen.toNat ∧ guardRxLen s k = .next (s.commandError .badLength)) ∨
      (s.rxlen.toNat ≤ s.rxCap.toNat ∧ guardRxLen s k = k) := by
  by_cases h : s.rxCap.toNat < s.rxlen.toNat
  · exact .inl ⟨h, guardRxLen_fail h⟩
  · exact .inr ⟨by omega, guardRxLen_pass (by omega)⟩

/-! ### The draw (R252, R253) -/

section Draw
variable {i : Instr} {s t : State} {k : Word16 → State → Host.Outcome State Fault Refusal}

theorem withDraw_ready (h : s.entropyReady = true) : withDraw i s k = k (Config.draw16 s.draws) s.takeDraw := if_pos h

theorem withDraw_wait (h : s.entropyReady = false) : withDraw i s k = .next (s.hold i) := by
  unfold withDraw; rw [h]; rfl

/-- All that a command that needs a draw can do: wait for it, or go on with it. -/
theorem withDraw_eq_next (h : withDraw i s k = .next t) :
    (s.entropyReady = false ∧ t = s.hold i) ∨
      (s.entropyReady = true ∧ k (Config.draw16 s.draws) s.takeDraw = .next t) := by
  cases hr : s.entropyReady with
  | false => rw [withDraw_wait hr] at h; cases h; exact .inl ⟨rfl, rfl⟩
  | true => rw [withDraw_ready hr] at h; exact .inr ⟨rfl, h⟩

end Draw

end Sys2Proof.Machine
end

