-- ==== Sys2Proof/Laws/Names.lean ====
section
/-! SUPPORT. The name encoder and the literal walk: text and wire form, what `encodeName` and `resolveOwner` can answer,
and that the passes allowed to the walk are enough. -/

namespace Sys2Proof.Machine

open Sys2Proof.Safety

/-! ### Text form -/

theorem consFirst_ne_nil (b : Byte) (ls : List (List Byte)) : consFirst b ls ≠ [] := by cases ls <;> simp [consFirst]

theorem split_cons (b : Byte) (bs : List Byte) :
    split (b :: bs) = if b = Config.sep then [] :: split bs else consFirst b (split bs) := rfl

/-- A byte string splits into at least one label. -/
theorem split_ne_nil (s : List Byte) : split s ≠ [] := by
  cases s with
  | nil => simp [split]
  | cons b bs => rw [split_cons]; split <;> simp [consFirst_ne_nil]

theorem join_cons_cons (l l' : List Byte) (ls : List (List Byte)) :
    join (l :: l' :: ls) = l ++ Config.sep :: join (l' :: ls) := rfl

theorem join_nil_cons {ls : List (List Byte)} (h : ls ≠ []) : join ([] :: ls) = Config.sep :: join ls := by
  cases ls with
  | nil => exact absurd rfl h
  | cons l ls => rfl

theorem join_consFirst {ls : List (List Byte)} (b : Byte) (h : ls ≠ []) : join (consFirst b ls) = b :: join ls := by
  cases ls with
  | nil => exact absurd rfl h
  | cons l ls => cases ls <;> rfl

/-- Splitting and joining is the identity (R99). -/
@[simp] theorem join_split (s : List Byte) : join (split s) = s := by
  induction s with
  | nil => rfl
  | cons b bs ih =>
    rw [split_cons]
    split
    · next h => rw [join_nil_cons (split_ne_nil bs), ih, h]
    · rw [join_consFirst b (split_ne_nil bs), ih]

/-- No label of a split contains the separator. -/
theorem noSep_split (s : List Byte) : noSep (split s) := by
  induction s with
  | nil => simp [noSep, split]
  | cons b bs ih =>
    rw [split_cons]
    split
    · intro l hl
      rcases List.mem_cons.mp hl with h | h
      · simp [h]
      · exact ih l h
    · next hb =>
      cases hs : split bs with
      | nil => exact absurd hs (split_ne_nil bs)
      | cons l ls =>
        rw [hs] at ih
        intro l' hl'
        rcases List.mem_cons.mp hl' with h | h
        · subst h
          simp only [List.mem_cons, not_or]
          exact ⟨fun h => hb h.symm, ih l (by simp)⟩
        · exact ih l' (List.mem_cons_of_mem _ h)

theorem split_of_noSep {l : List Byte} (h : Config.sep ∉ l) : split l = [l] := by
  induction l with
  | nil => rfl
  | cons b bs ih =>
    simp only [List.mem_cons, not_or] at h
    rw [split_cons, if_neg (fun e => h.1 e.symm), ih h.2]; rfl

theorem split_append_sep {l : List Byte} (h : Config.sep ∉ l) (s : List Byte) :
    split (l ++ Config.sep :: s) = l :: split s := by
  induction l with
  | nil => simp [split_cons]
  | cons b bs ih =>
    simp only [List.mem_cons, not_or] at h
    rw [List.cons_append, split_cons, if_neg (fun e => h.1 e.symm), ih h.2]; rfl

/-- Labels without a separator come back from their text (R99). -/
theorem split_join {ls : List (List Byte)} (h : ls ≠ []) (hs : noSep ls) : split (join ls) = ls := by
  induction ls with
  | nil => exact absurd rfl h
  | cons l ls ih =>
    have hl : Config.sep ∉ l := hs l (by simp)
    cases ls with
    | nil => simpa [join] using split_of_noSep hl
    | cons l' ls =>
      rw [join_cons_cons, split_append_sep hl, ih (by simp) fun x hx => hs x (List.mem_cons_of_mem _ hx)]

/-- `join` is the text form claims speak of. -/
theorem join_eq_text (ls : List (List Byte)) : join ls = text ls := by
  induction ls with
  | nil => rfl
  | cons l ls ih =>
    cases ls with
    | nil => simp [join, text, List.intercalate]
    | cons l' ls =>
      rw [join_cons_cons, ih]
      simp [text, List.intercalate, List.intersperse]

/-! ### Wire form -/

theorem wireLabels_eq_prefix (ls : List (List Byte)) : wireLabels ls = wirePrefix ls := by
  induction ls with
  | nil => rfl
  | cons l ls ih => simp [wireLabels, wirePrefix, ih]

/-- `wire` is the wire form claims speak of. -/
theorem wire_eq_wireName (ls : List (List Byte)) : wire ls = wireName ls := by
  rw [wire, wireLabels_eq_prefix, wireName]

theorem wirePrefix_cons (l : List Byte) (ls : List (List Byte)) :
    wirePrefix (l :: ls) = BitVec.ofNat 8 l.length :: l ++ wirePrefix ls := rfl

@[simp] theorem wirePrefix_nil : wirePrefix [] = [] := rfl

theorem length_wirePrefix_cons (l : List Byte) (ls : List (List Byte)) :
    (wirePrefix (l :: ls)).length = l.length + 1 + (wirePrefix ls).length := by
  rw [wirePrefix_cons]; simp; omega

@[simp] theorem length_wireName (ls : List (List Byte)) : (wireName ls).length = (wirePrefix ls).length + 1 := by
  simp [wireName]

/-- The labels in wire form are one byte longer than the text (R158). -/
theorem length_wirePrefix {ls : List (List Byte)} (h : ls ≠ []) : (wirePrefix ls).length = (join ls).length + 1 := by
  induction ls with
  | nil => exact absurd rfl h
  | cons l ls ih =>
    rw [length_wirePrefix_cons]
    cases ls with
    | nil => simp [join]
    | cons l' ls => rw [ih (by simp), join_cons_cons]; simp; omega

/-- Every legal label takes at least two bytes. -/
theorem two_mul_length_le {ls : List (List Byte)} (h : labelsOk ls) : 2 * ls.length ≤ (wirePrefix ls).length := by
  induction ls with
  | nil => simp
  | cons l ls ih =>
    have h1 := h l (by simp)
    have h2 := ih fun x hx => h x (List.mem_cons_of_mem _ hx)
    rw [length_wirePrefix_cons]; simp; omega

/-! ### The name encoder -/

theorem labelsOk_cons {l : List Byte} {ls : List (List Byte)} :
    labelsOk (l :: ls) ↔ (1 ≤ l.length ∧ l.length ≤ 63) ∧ labelsOk ls := by
  simp [labelsOk]

theorem checkLabels_cons (start : Nat) (l : List Byte) (ls : List (List Byte)) :
    checkLabels start (l :: ls) =
      if l.length = 0 then .raise .emptyLabel start
      else if Config.maxLabel < l.length then .raise .labelTooLong start
      else checkLabels (start + l.length + 1) ls := rfl

/-- The check passes over legal labels. -/
theorem checkLabels_append {ls : List (List Byte)} (h : labelsOk ls) (start : Nat) (ls' : List (List Byte)) :
    checkLabels start (ls ++ ls') = checkLabels (start + (ls.map fun l => l.length + 1).sum) ls' := by
  induction ls generalizing start with
  | nil => simp
  | cons l ls ih =>
    obtain ⟨⟨h1, h2⟩, h3⟩ := labelsOk_cons.mp h
    rw [List.cons_append, checkLabels_cons, if_neg (by omega), if_neg (by simp only [Config.maxLabel]; omega), ih h3]
    congr 1; simp; omega

/-- The check passes exactly over legal labels. -/
theorem checkLabels_eq_ok {start : Nat} {ls : List (List Byte)} : checkLabels start ls = .ok () ↔ labelsOk ls := by
  constructor
  · intro h
    induction ls generalizing start with
    | nil => simp [labelsOk]
    | cons l ls ih =>
      rw [checkLabels_cons] at h
      split at h
      · cases h
      · split at h
        · cases h
        · next h1 h2 => exact labelsOk_cons.mpr ⟨⟨by omega, by simp only [Config.maxLabel] at h2; omega⟩, ih h⟩
  · intro h
    have := checkLabels_append h start []
    rw [List.append_nil] at this
    rw [this]; rfl

/-- What the check raises: EMPTY_LABEL or LABEL_TOO_LONG, at the start of a label. -/
theorem checkLabels_eq_raise {start : Nat} {ls : List (List Byte)} {c : Cause} {p : Nat}
    (h : checkLabels start ls = .raise c p) :
    (c = .emptyLabel ∨ c = .labelTooLong) ∧ start ≤ p ∧ p ≤ start + (join ls).length := by
  induction ls generalizing start with
  | nil => cases h
  | cons l ls ih =>
    have hle : l.length ≤ (join (l :: ls)).length := by cases ls <;> simp [join]
    rw [checkLabels_cons] at h
    split at h
    · cases h; exact ⟨.inl rfl, by omega, by omega⟩
    · split at h
      · cases h; exact ⟨.inr rfl, by omega, by omega⟩
      · obtain ⟨h1, h2, h3⟩ := ih h
        refine ⟨h1, by omega, ?_⟩
        cases ls with
        | nil => cases h
        | cons l' ls => rw [join_cons_cons]; simp only [List.length_append, List.length_cons]; omega

theorem checkLabels_ne_fault (start : Nat) (ls : List (List Byte)) (f : Fault) : checkLabels start ls ≠ .fault f := by
  induction ls generalizing start with
  | nil => simp [checkLabels]
  | cons l ls ih => rw [checkLabels_cons]; split <;> [simp; (split <;> [simp; exact ih _])]

/-- All an accepted name can be: at most 253 bytes, its labels legal, its wire form the answer. -/
theorem encodeName_eq_ok {n : Nat} {r : Res (List Byte)} {w : List Byte} :
    encodeName n r = .ok w ↔ n ≤ 253 ∧ ∃ s, r = .ok s ∧ labelsOk (split s) ∧ w = wire (split s) := by
  unfold encodeName
  by_cases hn : Config.maxNameWire < n + 2
  · rw [if_pos hn]
    simp only [Config.maxNameWire] at hn
    simp; omega
  · rw [if_neg hn]
    simp only [Config.maxNameWire] at hn
    constructor
    · intro h
      obtain ⟨s, hs, h⟩ := Res.bind_eq_ok.mp h
      obtain ⟨u, hu, h⟩ := Res.bind_eq_ok.mp h
      exact ⟨by omega, s, hs, checkLabels_eq_ok.mp hu, by cases h; rfl⟩
    · rintro ⟨-, s, hs, hl, rfl⟩
      rw [hs, Res.bind_ok, checkLabels_eq_ok.mpr hl, Res.bind_ok]

/-- What the encoder raises, when its bytes come from reads. -/
theorem encodeName_eq_raise {n : Nat} {r : Res (List Byte)} {c : Cause} {p : Nat} (hr : ∀ c p, r ≠ .raise c p)
    (h : encodeName n r = .raise c p) :
    (c = .nameTooLong ∧ p = 0 ∧ 253 < n) ∨
      (n ≤ 253 ∧ (c = .emptyLabel ∨ c = .labelTooLong) ∧ ∃ s, r = .ok s ∧ p ≤ s.length) := by
  unfold encodeName at h
  split at h
  · next hn => cases h; simp only [Config.maxNameWire] at hn; exact .inl ⟨rfl, rfl, by omega⟩
  · next hn =>
    simp only [Config.maxNameWire] at hn
    rcases Res.bind_eq_raise.mp h with h | ⟨s, hs, h⟩
    · exact absurd h (hr _ _)
    · rcases Res.bind_eq_raise.mp h with h | ⟨u, -, h⟩
      · obtain ⟨h1, -, h3⟩ := checkLabels_eq_raise h
        exact .inr ⟨by omega, h1, s, hs, by simpa using h3⟩
      · cases h

theorem encodeName_eq_fault {n : Nat} {r : Res (List Byte)} {f : Fault} (h : encodeName n r = .fault f) :
    r = .fault f := by
  unfold encodeName at h
  split at h
  · cases h
  · rcases Res.bind_eq_fault.mp h with h | ⟨s, -, h⟩
    · exact h
    · rcases Res.bind_eq_fault.mp h with h | ⟨u, -, h⟩
      · exact absurd h (checkLabels_ne_fault _ _ _)
      · cases h

/-! ### Bytes that stand in a space -/

theorem holdsAt_append {m : Memory} {a : Nat} {bs cs : List Byte} :
    holdsAt m a (bs ++ cs) ↔ holdsAt m a bs ∧ holdsAt m (a + bs.length) cs := by
  constructor
  · intro h
    refine ⟨fun k hk => ?_, fun k hk => ?_⟩
    · rw [h k (by simp; omega), List.getElem?_append_left hk]
    · have := h (bs.length + k) (by simp; omega)
      rw [List.getElem?_append_right (by omega), Nat.add_sub_cancel_left, ← Nat.add_assoc] at this
      exact this
  · rintro ⟨h1, h2⟩ k hk
    by_cases hb : k < bs.length
    · rw [List.getElem?_append_left hb]; exact h1 k hb
    · rw [List.getElem?_append_right (by omega)]
      have := h2 (k - bs.length) (by simp at hk; omega)
      rwa [show a + bs.length + (k - bs.length) = a + k by omega] at this

theorem holdsAt_cons {m : Memory} {a : Nat} {b : Byte} {bs : List Byte} :
    holdsAt m a (b :: bs) ↔ m.read a = some b ∧ holdsAt m (a + 1) bs := by
  have := holdsAt_append (m := m) (a := a) (bs := [b]) (cs := bs)
  rw [List.singleton_append] at this
  rw [this]
  refine and_congr_left fun _ => ⟨fun h => by simpa using h 0 (by simp), fun h k hk => ?_⟩
  obtain rfl : k = 0 := by simpa using hk
  simpa using h

@[simp] theorem holdsAt_nil (m : Memory) (a : Nat) : holdsAt m a [] := fun k hk => absurd hk (by simp)

theorem holdsAt_ofBytes (bs : List Byte) : holdsAt (Memory.ofBytes 0 bs) 0 bs := fun k _ => by simp

/-! ### The literal walk -/

theorem needRx_pass {n c k : Nat} {e : Cause} {p : Nat} (h : c + k ≤ n) : needRx n c k e p = .ok () := by
  unfold needRx rem; rw [if_neg (by omega)]

theorem needRx_fail {n c k : Nat} {e : Cause} {p : Nat} (h : n < c + k) (hk : 1 ≤ k) :
    needRx n c k e p = .raise e p := by
  unfold needRx rem; rw [if_pos (by omega)]

/-- A bounds check passes, for at least one byte, exactly where the bytes remain. -/
theorem needRx_eq_ok {n c k : Nat} {e : Cause} {p : Nat} (u : Unit) (hk : 1 ≤ k) :
    needRx n c k e p = .ok u ↔ c + k ≤ n := by
  constructor
  · intro hu
    by_cases h : c + k ≤ n
    · exact h
    · rw [needRx_fail (show n < c + k by omega) hk] at hu; cases hu
  · exact needRx_pass

theorem needRx_eq_raise {n c k : Nat} {e e' : Cause} {p p' : Nat} (h : needRx n c k e p = .raise e' p') :
    e' = e ∧ p' = p ∧ n < c + k := by
  unfold needRx rem at h
  split at h
  · cases h; exact ⟨rfl, rfl, by omega⟩
  · cases h

@[simp] theorem needRx_ne_fault (n c k : Nat) (e : Cause) (p : Nat) (f : Fault) : needRx n c k e p ≠ .fault f := by
  unfold needRx; split <;> simp

theorem rxU8_eq_ok {m : Memory} {c : Nat} {b : Byte} : rxU8 m c = .ok b ↔ m.read c = some b := readByte_eq_ok

@[simp] theorem rxU8_ne_raise (m : Memory) (c : Nat) (e : Cause) (p : Nat) : rxU8 m c ≠ .raise e p :=
  readByte_ne_raise _ _ _ _ _

theorem rxU8_congr {m m' : Memory} {c : Nat} (h : m.read c = m'.read c) : rxU8 m c = rxU8 m' c := readByte_congr h

/-- What one pass of the walk does with a length byte that is there. -/
theorem literalWalk_byte {m : Memory} {n c fuel p : Nat} {acc : List (List Byte)} {len : Byte} (hp : p < n)
    (hb : m.read p = some len) :
    literalWalk m n c (fuel + 1) p acc =
      if len.toNat = 0 then .ok ⟨kindLiteral, join acc, p + 1 - c⟩
      else if 0xC0 ≤ len.toNat then .raise .otherPointer p
      else if 0x40 ≤ len.toNat then .raise .reservedLabelType p
      else (needRx n (p + 1) len.toNat .nameRunsOut p).bind fun _ =>
        if Config.maxNameWire < (p + 1 + len.toNat - c) + 1 then .raise .literalTooLong p
        else (rxBytes m (p + 1) len.toNat).bind fun label =>
          literalWalk m n c fuel (p + 1 + len.toNat) (acc ++ [label]) := by
  rw [literalWalk, needRx_pass (by omega), Res.bind_ok, rxU8_eq_ok.mpr hb, Res.bind_ok]

/-- A pass over a legal label moves the cursor past it. -/
theorem literalWalk_label {m : Memory} {n c fuel p : Nat} {acc : List (List Byte)} {l : List Byte}
    (h1 : 1 ≤ l.length) (h2 : l.length ≤ 63) (hn : p + 1 + l.length ≤ n) (hw : p + 1 + l.length - c + 1 ≤ 255)
    (hm : holdsAt m p (BitVec.ofNat 8 l.length :: l)) :
    literalWalk m n c (fuel + 1) p acc = literalWalk m n c fuel (p + 1 + l.length) (acc ++ [l]) := by
  obtain ⟨hb, hl⟩ := holdsAt_cons.mp hm
  have hlen : (BitVec.ofNat 8 l.length).toNat = l.length := by
    rw [BitVec.toNat_ofNat]; exact Nat.mod_eq_of_lt (by omega)
  rw [literalWalk_byte (by omega) hb, hlen, if_neg (by omega), if_neg (by omega), if_neg (by omega), needRx_pass hn,
    Res.bind_ok, if_neg (by simp only [Config.maxNameWire]; omega), rxBytes, readBytes_eq_ok.mpr ⟨rfl, hl⟩, Res.bind_ok]

/-- The walk passes over legal labels that leave room for a terminator. -/
theorem literalWalk_labels {m : Memory} {n c : Nat} {ls : List (List Byte)} (fuel p : Nat) (acc : List (List Byte))
    (hl : labelsOk ls) (hn : p + (wirePrefix ls).length ≤ n) (hw : p + (wirePrefix ls).length - c + 1 ≤ 255)
    (hm : holdsAt m p (wirePrefix ls)) :
    literalWalk m n c (fuel + ls.length) p acc =
      literalWalk m n c fuel (p + (wirePrefix ls).length) (acc ++ ls) := by
  induction ls generalizing p acc with
  | nil => simp
  | cons l ls ih =>
    obtain ⟨⟨h1, h2⟩, h3⟩ := labelsOk_cons.mp hl
    rw [length_wirePrefix_cons] at hn hw ⊢
    rw [wirePrefix_cons] at hm
    obtain ⟨hm1, hm2⟩ := holdsAt_append.mp hm
    rw [List.length_cons, ← Nat.add_assoc, literalWalk_label h1 h2 (by omega) (by omega) hm1,
      ih (p + 1 + l.length) (acc ++ [l]) h3 (by omega) (by omega) (by
        have : p + (BitVec.ofNat 8 l.length :: l).length = p + 1 + l.length := by simp; omega
        rwa [this] at hm2)]
    congr 1
    · omega
    · simp

/-- All a walk that ends in a name can be: legal labels, then the zero byte, at most 255 bytes from its start. -/
theorem literalWalk_eq_ok {m : Memory} {n c fuel p : Nat} {acc : List (List Byte)} {o : OwnerName}
    (h : literalWalk m n c fuel p acc = .ok o) :
    ∃ ls, labelsOk ls ∧ holdsAt m p (wireName ls) ∧ p + (wireName ls).length ≤ n ∧
      (p - c + 1 ≤ 255 → p + (wireName ls).length - c ≤ 255) ∧
      o = ⟨kindLiteral, join (acc ++ ls), p + (wireName ls).length - c⟩ := by
  induction fuel generalizing p acc with
  | zero => cases h
  | succ fuel ih =>
    rw [literalWalk] at h
    obtain ⟨u, hu, h⟩ := Res.bind_eq_ok.mp h
    have hp := (needRx_eq_ok u (le_refl 1)).mp hu
    obtain ⟨len, hb, h⟩ := Res.bind_eq_ok.mp h
    have hb := rxU8_eq_ok.mp hb
    split at h
    · next h0 =>
      cases h
      refine ⟨[], by simp [labelsOk], ?_, by simpa using hp, by simp; omega, by simp⟩
      have : len = 0 := BitVec.eq_of_toNat_eq (by simpa using h0)
      subst this
      exact holdsAt_cons.mpr ⟨hb, holdsAt_nil _ _⟩
    · split at h
      · cases h
      · split at h
        · cases h
        · next h0 h1 h2 =>
          obtain ⟨u, hu, h⟩ := Res.bind_eq_ok.mp h
          have hn := (needRx_eq_ok u (by omega)).mp hu
          split at h
          · cases h
          · next h3 =>
            simp only [Config.maxNameWire] at h3
            obtain ⟨l, hl, h⟩ := Res.bind_eq_ok.mp h
            obtain ⟨hl1, hl2⟩ := readBytes_eq_ok.mp hl
            obtain ⟨ls, i1, i2, i3, i4, rfl⟩ := ih h
            have hlen : BitVec.ofNat 8 l.length = len := by rw [hl1]; simp
            simp only [length_wireName] at i3 i4
            refine ⟨l :: ls, labelsOk_cons.mpr ⟨⟨by omega, by omega⟩, i1⟩, ?_, ?_, ?_, ?_⟩
            · rw [wireName, wirePrefix_cons, List.append_assoc, hlen]
              refine holdsAt_append.mpr ⟨holdsAt_cons.mpr ⟨hb, hl2⟩, ?_⟩
              have : p + (len :: l).length = p + 1 + len.toNat := by simp; omega
              rw [this]; exact i2
            · simp only [length_wireName, length_wirePrefix_cons]; omega
            · simp only [length_wireName, length_wirePrefix_cons]; omega
            · simp only [length_wireName, length_wirePrefix_cons, OwnerName.mk.injEq, true_and]
              exact ⟨by simp, by omega⟩

/-- The causes the walk raises, and where. -/
theorem literalWalk_eq_raise {m : Memory} {n c fuel p : Nat} {acc : List (List Byte)} {e : Cause} {q : Nat}
    (h : literalWalk m n c fuel p acc = .raise e q) :
    (e = .nameRunsOut ∨ e = .otherPointer ∨ e = .reservedLabelType ∨ e = .literalTooLong) ∧ p ≤ q ∧ q ≤ max p n := by
  induction fuel generalizing p acc with
  | zero => cases h; simp
  | succ fuel ih =>
    rw [literalWalk] at h
    rcases Res.bind_eq_raise.mp h with h | ⟨u, hu, h⟩
    · obtain ⟨rfl, rfl, -⟩ := needRx_eq_raise h; exact ⟨.inl rfl, by omega, by omega⟩
    · rcases Res.bind_eq_raise.mp h with h | ⟨len, -, h⟩
      · exact absurd h (rxU8_ne_raise _ _ _ _)
      · split at h
        · cases h
        · split at h
          · cases h; exact ⟨by simp, by omega, by omega⟩
          · split at h
            · cases h; exact ⟨by simp, by omega, by omega⟩
            · rcases Res.bind_eq_raise.mp h with h | ⟨u, hu', h⟩
              · obtain ⟨rfl, rfl, -⟩ := needRx_eq_raise h; exact ⟨.inl rfl, by omega, by omega⟩
              · split at h
                · cases h; exact ⟨by simp, by omega, by omega⟩
                · rcases Res.bind_eq_raise.mp h with h | ⟨l, -, h⟩
                  · exact absurd h (readBytes_ne_raise _ _ _ _ _ _)
                  · obtain ⟨h1, h2, h3⟩ := ih h
                    have := (needRx_eq_ok u (by omega)).mp hu'
                    exact ⟨h1, by omega, by omega⟩

/-- A walk faults only at a byte below the end of the message that holds no value. -/
theorem literalWalk_eq_fault {m : Memory} {n c fuel p : Nat} {acc : List (List Byte)} {f : Fault}
    (h : literalWalk m n c fuel p acc = .fault f) : ∃ a < n, m.read a = none ∧ f = .unwrittenByte .rx a := by
  induction fuel generalizing p acc with
  | zero => cases h
  | succ fuel ih =>
    rw [literalWalk] at h
    rcases Res.bind_eq_fault.mp h with h | ⟨u, hu, h⟩
    · exact absurd h (needRx_ne_fault _ _ _ _ _ _)
    · have hp := (needRx_eq_ok u (le_refl 1)).mp hu
      rcases Res.bind_eq_fault.mp h with h | ⟨len, -, h⟩
      · obtain ⟨h1, h2⟩ := readByte_eq_fault.mp h; exact ⟨p, by omega, h1, h2⟩
      · split at h
        · cases h
        · split at h
          · cases h
          · split at h
            · cases h
            · rcases Res.bind_eq_fault.mp h with h | ⟨u, hu, h⟩
              · exact absurd h (needRx_ne_fault _ _ _ _ _ _)
              · have hn := (needRx_eq_ok u (by omega)).mp hu
                split at h
                · cases h
                · rcases Res.bind_eq_fault.mp h with h | ⟨l, -, h⟩
                  · obtain ⟨j, hj, h1, h2⟩ := readBytes_eq_fault h; exact ⟨p + 1 + j, by omega, h1, h2⟩
                  · exact ih h

/-- Two messages that agree below their end are walked alike. -/
theorem literalWalk_congr {m m' : Memory} {n : Nat} (hm : ∀ a < n, m.read a = m'.read a) (c fuel p : Nat)
    (acc : List (List Byte)) : literalWalk m n c fuel p acc = literalWalk m' n c fuel p acc := by
  induction fuel generalizing p acc with
  | zero => rfl
  | succ fuel ih =>
    rw [literalWalk, literalWalk]
    by_cases hp : p + 1 ≤ n
    · rw [rxU8_congr (hm p (by omega))]
      cases rxU8 m' p with
      | raise e q => rfl
      | fault f => rfl
      | ok len =>
        by_cases hn : p + 1 + len.toNat ≤ n
        · have key : rxBytes m (p + 1) len.toNat = rxBytes m' (p + 1) len.toNat :=
            readBytes_congr fun j hj => hm (p + 1 + j) (by omega)
          simp only [Res.bind_ok, key, ih]
        · by_cases h0 : len.toNat = 0
          · simp only [Res.bind_ok, h0, if_true]
          · simp only [Res.bind_ok, needRx_fail (show n < p + 1 + len.toNat by omega) (by omega), Res.bind_raise]
    · rw [needRx_fail (by omega) (by omega), Res.bind_raise, Res.bind_raise]

/-- The passes are enough (DEDUCED, safe, log entry 16): with two bytes of room for each, one more pass changes nothing. -/
theorem literalWalk_fuel {m : Memory} {n c fuel p : Nat} {acc : List (List Byte)} (hc : c ≤ p)
    (hf : 254 < p - c + 2 * fuel) (hp : p - c ≤ 254) :
    literalWalk m n c (fuel + 1) p acc = literalWalk m n c fuel p acc := by
  induction fuel generalizing p acc with
  | zero => omega
  | succ fuel ih =>
    rw [literalWalk]
    conv => rhs; rw [literalWalk]
    congr 1; funext _; congr 1; funext len
    split
    · rfl
    · split
      · rfl
      · split
        · rfl
        · congr 1; funext _
          split
          · rfl
          · next h0 _ _ h3 =>
            simp only [Config.maxNameWire] at h3
            congr 1; funext l
            exact ih (by omega) (by omega) (by omega)

/-- `resolveOwner` gives the walk enough passes: any number more answers the same. -/
theorem walkFuel_enough (m : Memory) (n c k : Nat) (acc : List (List Byte)) :
    literalWalk m n c (walkFuel + k) c acc = literalWalk m n c walkFuel c acc := by
  induction k with
  | zero => rfl
  | succ k ih => rw [← Nat.add_assoc, literalWalk_fuel (le_refl c) (by simp only [walkFuel]; omega) (by omega), ih]

/-! ### The owner name -/

theorem pointerAt_ne_raise (m : Memory) (n c : Nat) (e : Cause) (p : Nat) : pointerAt m n c ≠ .raise e p := by
  unfold pointerAt
  split
  · simp
  · rw [Ne, Res.bind_eq_raise]
    rintro (h | ⟨b, -, h⟩)
    · exact rxU8_ne_raise _ _ _ _ h
    · split at h
      · rcases Res.bind_eq_raise.mp h with h | ⟨b', -, h⟩
        · exact rxU8_ne_raise _ _ _ _ h
        · cases h
      · cases h

/-- The pointer test says yes exactly where the pair C0 0C stands whole in the message. -/
theorem pointerAt_eq_true {m : Memory} {n c : Nat} :
    pointerAt m n c = .ok true ↔ c + 2 ≤ n ∧ holdsAt m c [0xC0, 0x0C] := by
  unfold pointerAt rem
  by_cases hn : n - c < 2
  · rw [if_pos hn]; simp; omega
  · rw [if_neg hn]
    constructor
    · intro h
      obtain ⟨b, hb, h⟩ := Res.bind_eq_ok.mp h
      split at h
      · next hc =>
        obtain ⟨b', hb', h⟩ := Res.bind_eq_ok.mp h
        have h : b' = Config.ptrLo := by simpa using h
        subst hc h
        exact ⟨by omega, holdsAt_cons.mpr ⟨rxU8_eq_ok.mp hb, holdsAt_cons.mpr ⟨rxU8_eq_ok.mp hb', holdsAt_nil _ _⟩⟩⟩
      · cases h
    · rintro ⟨-, h⟩
      obtain ⟨h0, h⟩ := holdsAt_cons.mp h
      obtain ⟨h1, -⟩ := holdsAt_cons.mp h
      rw [rxU8_eq_ok.mpr h0, Res.bind_ok, if_pos (by rfl), rxU8_eq_ok.mpr h1, Res.bind_ok]; rfl

/-- The pointer test says no at a first byte that is not C0. -/
theorem pointerAt_first_ne {m : Memory} {n c : Nat} {b : Byte} (h : m.read c = some b) (hb : b ≠ 0xC0) :
    pointerAt m n c = .ok false := by
  unfold pointerAt
  split
  · rfl
  · rw [rxU8_eq_ok.mpr h, Res.bind_ok, if_neg (show ¬ b = Config.ptrHi from hb)]

theorem pointerAt_eq_fault {m : Memory} {n c : Nat} {f : Fault} (h : pointerAt m n c = .fault f) :
    ∃ a < n, m.read a = none ∧ f = .unwrittenByte .rx a := by
  unfold pointerAt rem at h
  split at h
  · cases h
  · next hn =>
    rcases Res.bind_eq_fault.mp h with h | ⟨b, -, h⟩
    · obtain ⟨h1, h2⟩ := readByte_eq_fault.mp h; exact ⟨c, by omega, h1, h2⟩
    · split at h
      · rcases Res.bind_eq_fault.mp h with h | ⟨b', -, h⟩
        · obtain ⟨h1, h2⟩ := readByte_eq_fault.mp h; exact ⟨c + 1, by omega, h1, h2⟩
        · cases h
      · cases h

/-- The bytes of a literal name resolve to its text (R192). -/
theorem resolveOwner_literal {m : Memory} {n c : Nat} {ls : List (List Byte)} (hl : labelsOk ls)
    (hw : (wireName ls).length ≤ 255) (hn : c + (wireName ls).length ≤ n) (hm : holdsAt m c (wireName ls)) :
    resolveOwner m n c = .ok ⟨kindLiteral, join ls, (wireName ls).length⟩ := by
  have hlen := length_wireName ls
  have hp : pointerAt m n c = .ok false := by
    cases ls with
    | nil => exact pointerAt_first_ne (holdsAt_cons.mp hm).1 (by decide)
    | cons l ls =>
      obtain ⟨⟨h1, h2⟩, -⟩ := labelsOk_cons.mp hl
      refine pointerAt_first_ne (holdsAt_cons.mp hm).1 fun h => ?_
      have := congrArg BitVec.toNat h
      rw [BitVec.toNat_ofNat, Nat.mod_eq_of_lt (by omega)] at this
      simp at this; omega
  have h2 := two_mul_length_le hl
  obtain ⟨hm1, hm2⟩ := holdsAt_append.mp (show holdsAt m c (wirePrefix ls ++ [0]) from hm)
  obtain ⟨k, hk⟩ : ∃ k, walkFuel = (k + 1) + ls.length := ⟨walkFuel - 1 - ls.length, by simp only [walkFuel]; omega⟩
  rw [resolveOwner, needRx_pass (by omega), Res.bind_ok, hp, Res.bind_ok, if_neg (by simp), hk,
    literalWalk_labels _ _ _ hl (by omega) (by omega) hm1,
    literalWalk_byte (by omega) (holdsAt_cons.mp hm2).1, if_pos (show BitVec.toNat (0 : Byte) = 0 from rfl)]
  simp; omega

/-- The forms `resolveOwner` takes are resolved (R191, R192). -/
theorem resolveOwner_of_form {m : Memory} {n c : Nat} {o : OwnerForm} (ho : ownerFormOk o)
    (hn : c + (ownerWire o).length ≤ n) (hm : holdsAt m c (ownerWire o)) :
    ∃ r, resolveOwner m n c = .ok r ∧ r.group = ownerResult o ∧ r.cons = (ownerWire o).length := by
  cases o with
  | none =>
    have hn : c + 2 ≤ n := hn
    refine ⟨⟨kindPointer, [], 2⟩, ?_, rfl, rfl⟩
    rw [resolveOwner, needRx_pass (by omega), Res.bind_ok, pointerAt_eq_true.mpr ⟨hn, hm⟩, Res.bind_ok, if_pos rfl]
  | some ls =>
    refine ⟨_, resolveOwner_literal ho.1 ho.2 hn hm, ?_, rfl⟩
    simp [OwnerName.group, ownerResult, kindLiteral, join_eq_text]

/-- And only they are (R191, R192). -/
theorem resolveOwner_eq_ok {m : Memory} {n c : Nat} {r : OwnerName} (h : resolveOwner m n c = .ok r) :
    ∃ o : OwnerForm, ownerFormOk o ∧ c + (ownerWire o).length ≤ n ∧ holdsAt m c (ownerWire o) ∧
      r.group = ownerResult o ∧ r.cons = (ownerWire o).length := by
  unfold resolveOwner at h
  obtain ⟨u, hu, h⟩ := Res.bind_eq_ok.mp h
  obtain ⟨b, hb, h⟩ := Res.bind_eq_ok.mp h
  cases b with
  | true =>
    cases h
    obtain ⟨h1, h2⟩ := pointerAt_eq_true.mp hb
    exact ⟨none, trivial, h1, h2, rfl, rfl⟩
  | false =>
    obtain ⟨ls, h1, h2, h3, h4, rfl⟩ := literalWalk_eq_ok (show literalWalk m n c walkFuel c [] = .ok r from h)
    refine ⟨some ls, ⟨h1, ?_⟩, h3, h2, ?_, ?_⟩
    · have := h4 (by omega); omega
    · simp [OwnerName.group, ownerResult, kindLiteral, join_eq_text]
    · simp [ownerWire]

/-- The causes `resolveOwner` raises, and where. -/
theorem resolveOwner_eq_raise {m : Memory} {n c : Nat} {e : Cause} {p : Nat} (h : resolveOwner m n c = .raise e p) :
    (e = .noOwnerBytes ∨ e = .nameRunsOut ∨ e = .otherPointer ∨ e = .reservedLabelType ∨ e = .literalTooLong) ∧
      c ≤ p ∧ p ≤ max c n := by
  unfold resolveOwner at h
  rcases Res.bind_eq_raise.mp h with h | ⟨u, -, h⟩
  · obtain ⟨rfl, rfl, -⟩ := needRx_eq_raise h; exact ⟨.inl rfl, by omega, by omega⟩
  · rcases Res.bind_eq_raise.mp h with h | ⟨b, -, h⟩
    · exact absurd h (pointerAt_ne_raise _ _ _ _ _)
    · split at h
      · cases h
      · obtain ⟨h1, h2⟩ := literalWalk_eq_raise h
        exact ⟨by tauto, h2⟩

theorem resolveOwner_eq_fault {m : Memory} {n c : Nat} {f : Fault} (h : resolveOwner m n c = .fault f) :
    ∃ a < n, m.read a = none ∧ f = .unwrittenByte .rx a := by
  unfold resolveOwner at h
  rcases Res.bind_eq_fault.mp h with h | ⟨u, -, h⟩
  · exact absurd h (needRx_ne_fault _ _ _ _ _ _)
  · rcases Res.bind_eq_fault.mp h with h | ⟨b, -, h⟩
    · exact pointerAt_eq_fault h
    · split at h
      · cases h
      · exact literalWalk_eq_fault h

/-- Two messages that agree below their end have the same owner name. -/
theorem resolveOwner_congr {m m' : Memory} {n : Nat} (hm : ∀ a < n, m.read a = m'.read a) (c : Nat) :
    resolveOwner m n c = resolveOwner m' n c := by
  unfold resolveOwner pointerAt
  simp only [literalWalk_congr hm]
  by_cases h1 : c + 1 ≤ n
  · rw [rxU8_congr (hm c (by omega))]
    by_cases h2 : c + 2 ≤ n
    · rw [rxU8_congr (hm (c + 1) (by omega))]
    · rw [if_pos (by unfold rem; omega), if_pos (by unfold rem; omega)]
  · rw [needRx_fail (by omega) (by omega), Res.bind_raise, Res.bind_raise]

end Sys2Proof.Machine
end

