-- ==== Sys2Proof/Laws/Decoder.lean ====
section
/-! SUPPORT. What the stages of the Decoder can answer: the header, the fixed fields, RDATA and the whole record, with the
positions of their errors and the bytes they read. -/

namespace Sys2Proof.Machine

open Sys2Proof.Safety

/-! ### Big-endian fields -/

theorem be16_bytes16 (v : Word16) : be16 (v.extractLsb' 8 8) (v.extractLsb' 0 8) = v := by
  apply BitVec.eq_of_getLsbD_eq
  intro i hi
  simp only [be16, BitVec.getLsbD_append, BitVec.getLsbD_extractLsb']
  by_cases h : i < 8
  · simp [h]
  · simp [h, show i - 8 < 8 by omega, show 8 + (i - 8) = i by omega]

theorem be32_bytes32 (v : Word32) :
    be32 (v.extractLsb' 24 8) (v.extractLsb' 16 8) (v.extractLsb' 8 8) (v.extractLsb' 0 8) = v := by
  apply BitVec.eq_of_getLsbD_eq
  intro i hi
  simp only [be32, BitVec.getLsbD_append, BitVec.getLsbD_extractLsb']
  by_cases h1 : i < 8
  · simp [h1]
  by_cases h2 : i < 16
  · simp [h1, show i - 8 < 8 by omega, show 8 + (i - 8) = i by omega]
  by_cases h3 : i < 24
  · simp [h1, show ¬ i - 8 < 8 by omega, show i - 8 - 8 < 8 by omega, show 16 + (i - 8 - 8) = i by omega]
  · simp [h1, show ¬ i - 8 < 8 by omega, show ¬ i - 8 - 8 < 8 by omega, show i - 8 - 8 - 8 < 8 by omega,
      show 24 + (i - 8 - 8 - 8) = i by omega]

theorem bytes16_be16 (b0 b1 : Byte) : bytes16 (be16 b0 b1) = [b0, b1] := by
  have h0 : (be16 b0 b1).extractLsb' 8 8 = b0 := by
    apply BitVec.eq_of_getLsbD_eq
    intro i hi
    simp only [be16, BitVec.getLsbD_append, BitVec.getLsbD_extractLsb']
    simp [hi, show ¬ 8 + i < 8 by omega]
  have h1 : (be16 b0 b1).extractLsb' 0 8 = b1 := by
    apply BitVec.eq_of_getLsbD_eq
    intro i hi
    simp only [be16, BitVec.getLsbD_append, BitVec.getLsbD_extractLsb']
    simp [hi]
  rw [bytes16, h0, h1]

theorem bytes32_be32 (b0 b1 b2 b3 : Byte) : bytes32 (be32 b0 b1 b2 b3) = [b0, b1, b2, b3] := by
  have h0 : (be32 b0 b1 b2 b3).extractLsb' 24 8 = b0 := by
    apply BitVec.eq_of_getLsbD_eq
    intro i hi
    simp only [be32, BitVec.getLsbD_append, BitVec.getLsbD_extractLsb']
    simp [hi, show ¬ 24 + i < 8 by omega, show ¬ 24 + i - 8 < 8 by omega,
      show ¬ 24 + i - 8 - 8 < 8 by omega, show 24 + i - 8 - 8 - 8 = i by omega]
  have h1 : (be32 b0 b1 b2 b3).extractLsb' 16 8 = b1 := by
    apply BitVec.eq_of_getLsbD_eq
    intro i hi
    simp only [be32, BitVec.getLsbD_append, BitVec.getLsbD_extractLsb']
    simp [hi, show ¬ 16 + i < 8 by omega, show ¬ 16 + i - 8 < 8 by omega,
      show 16 + i - 8 - 8 = i by omega]
  have h2 : (be32 b0 b1 b2 b3).extractLsb' 8 8 = b2 := by
    apply BitVec.eq_of_getLsbD_eq
    intro i hi
    simp only [be32, BitVec.getLsbD_append, BitVec.getLsbD_extractLsb']
    simp [hi, show ¬ 8 + i < 8 by omega,
      show 8 + i - 8 = i by omega]
  have h3 : (be32 b0 b1 b2 b3).extractLsb' 0 8 = b3 := by
    apply BitVec.eq_of_getLsbD_eq
    intro i hi
    simp only [be32, BitVec.getLsbD_append, BitVec.getLsbD_extractLsb']
    simp [hi]
  rw [bytes32, h0, h1, h2, h3]

@[simp] theorem length_bytes16 (v : Word16) : (bytes16 v).length = 2 := rfl
@[simp] theorem length_bytes32 (v : Word32) : (bytes32 v).length = 4 := rfl

/-- A 16-bit read is the field whose two bytes stand there, the first the more significant. -/
theorem rxU16_eq_ok {m : Memory} {c : Nat} {v : Word16} : rxU16 m c = .ok v ↔ holdsAt m c (bytes16 v) := by
  unfold rxU16
  constructor
  · intro h
    obtain ⟨b0, h0, h⟩ := Res.bind_eq_ok.mp h
    obtain ⟨b1, h1, h⟩ := Res.bind_eq_ok.mp h
    cases h
    rw [bytes16_be16]
    exact holdsAt_cons.mpr ⟨rxU8_eq_ok.mp h0, holdsAt_cons.mpr ⟨rxU8_eq_ok.mp h1, holdsAt_nil _ _⟩⟩
  · intro h
    obtain ⟨h0, h⟩ := holdsAt_cons.mp h
    obtain ⟨h1, -⟩ := holdsAt_cons.mp h
    rw [rxU8_eq_ok.mpr h0, Res.bind_ok, rxU8_eq_ok.mpr h1, Res.bind_ok, be16_bytes16]

/-- A 32-bit read is the field whose four bytes stand there. -/
theorem rxU32_eq_ok {m : Memory} {c : Nat} {v : Word32} : rxU32 m c = .ok v ↔ holdsAt m c (bytes32 v) := by
  unfold rxU32
  constructor
  · intro h
    obtain ⟨b0, h0, h⟩ := Res.bind_eq_ok.mp h
    obtain ⟨b1, h1, h⟩ := Res.bind_eq_ok.mp h
    obtain ⟨b2, h2, h⟩ := Res.bind_eq_ok.mp h
    obtain ⟨b3, h3, h⟩ := Res.bind_eq_ok.mp h
    cases h
    rw [bytes32_be32]
    exact holdsAt_cons.mpr ⟨rxU8_eq_ok.mp h0, holdsAt_cons.mpr ⟨rxU8_eq_ok.mp h1,
      holdsAt_cons.mpr ⟨rxU8_eq_ok.mp h2, holdsAt_cons.mpr ⟨rxU8_eq_ok.mp h3, holdsAt_nil _ _⟩⟩⟩⟩
  · intro h
    obtain ⟨h0, h⟩ := holdsAt_cons.mp h
    obtain ⟨h1, h⟩ := holdsAt_cons.mp h
    obtain ⟨h2, h⟩ := holdsAt_cons.mp h
    obtain ⟨h3, -⟩ := holdsAt_cons.mp h
    rw [rxU8_eq_ok.mpr h0, Res.bind_ok, rxU8_eq_ok.mpr h1, Res.bind_ok, rxU8_eq_ok.mpr h2, Res.bind_ok,
      rxU8_eq_ok.mpr h3, Res.bind_ok, be32_bytes32]

/-! ### Reads raise nothing, and fault only at a byte without a value -/

theorem rxU16_ne_raise (m : Memory) (c : Nat) (e : Cause) (p : Nat) : rxU16 m c ≠ .raise e p := by
  unfold rxU16
  rw [Ne, Res.bind_eq_raise]
  rintro (h | ⟨b, -, h⟩)
  · exact rxU8_ne_raise _ _ _ _ h
  · rcases Res.bind_eq_raise.mp h with h | ⟨b, -, h⟩
    · exact rxU8_ne_raise _ _ _ _ h
    · cases h

theorem rxU32_ne_raise (m : Memory) (c : Nat) (e : Cause) (p : Nat) : rxU32 m c ≠ .raise e p := by
  unfold rxU32
  rw [Ne, Res.bind_eq_raise]
  rintro (h | ⟨b, -, h⟩)
  · exact rxU8_ne_raise _ _ _ _ h
  rcases Res.bind_eq_raise.mp h with h | ⟨b, -, h⟩
  · exact rxU8_ne_raise _ _ _ _ h
  rcases Res.bind_eq_raise.mp h with h | ⟨b, -, h⟩
  · exact rxU8_ne_raise _ _ _ _ h
  rcases Res.bind_eq_raise.mp h with h | ⟨b, -, h⟩
  · exact rxU8_ne_raise _ _ _ _ h
  · cases h

theorem rxU8_eq_fault {m : Memory} {c : Nat} {f : Fault} (h : rxU8 m c = .fault f) :
    m.read c = none ∧ f = .unwrittenByte .rx c := readByte_eq_fault.mp h

theorem rxU16_eq_fault {m : Memory} {c : Nat} {f : Fault} (h : rxU16 m c = .fault f) :
    ∃ j < 2, m.read (c + j) = none ∧ f = .unwrittenByte .rx (c + j) := by
  unfold rxU16 at h
  rcases Res.bind_eq_fault.mp h with h | ⟨b, -, h⟩
  · exact ⟨0, by omega, rxU8_eq_fault h⟩
  · rcases Res.bind_eq_fault.mp h with h | ⟨b, -, h⟩
    · exact ⟨1, by omega, rxU8_eq_fault h⟩
    · cases h

theorem rxU32_eq_fault {m : Memory} {c : Nat} {f : Fault} (h : rxU32 m c = .fault f) :
    ∃ j < 4, m.read (c + j) = none ∧ f = .unwrittenByte .rx (c + j) := by
  unfold rxU32 at h
  rcases Res.bind_eq_fault.mp h with h | ⟨b, -, h⟩
  · exact ⟨0, by omega, rxU8_eq_fault h⟩
  rcases Res.bind_eq_fault.mp h with h | ⟨b, -, h⟩
  · exact ⟨1, by omega, rxU8_eq_fault h⟩
  rcases Res.bind_eq_fault.mp h with h | ⟨b, -, h⟩
  · exact ⟨2, by omega, rxU8_eq_fault h⟩
  rcases Res.bind_eq_fault.mp h with h | ⟨b, -, h⟩
  · exact ⟨3, by omega, rxU8_eq_fault h⟩
  · cases h

theorem rxU16_congr {m m' : Memory} {c : Nat} (h : ∀ j < 2, m.read (c + j) = m'.read (c + j)) :
    rxU16 m c = rxU16 m' c := by
  unfold rxU16
  rw [rxU8_congr (c := c) (h 0 (by omega)), rxU8_congr (h 1 (by omega))]

theorem rxU32_congr {m m' : Memory} {c : Nat} (h : ∀ j < 4, m.read (c + j) = m'.read (c + j)) :
    rxU32 m c = rxU32 m' c := by
  unfold rxU32
  rw [rxU8_congr (c := c) (h 0 (by omega)), rxU8_congr (h 1 (by omega)), rxU8_congr (h 2 (by omega)),
    rxU8_congr (h 3 (by omega))]

/-! ### Stage 0: the header -/

/-- A header is parsed exactly where 12 bytes remain and its bytes stand at index 0. -/
theorem parseHeader_eq_ok {m : Memory} {n : Nat} {h : Header} :
    parseHeader m n = .ok h ↔ 12 ≤ n ∧ holdsAt m 0 (headerWire h) := by
  obtain ⟨id, flags, qd, an, ns, ar⟩ := h
  unfold parseHeader headerWire
  simp only [holdsAt_append, List.length_append, length_bytes16, Nat.zero_add, Nat.reduceAdd]
  constructor
  · intro h
    obtain ⟨u, hu, h⟩ := Res.bind_eq_ok.mp h
    have hn := (needRx_eq_ok u (by decide)).mp hu
    simp only [Config.headerLen] at hn
    obtain ⟨v0, h0, h⟩ := Res.bind_eq_ok.mp h
    obtain ⟨v1, h1, h⟩ := Res.bind_eq_ok.mp h
    obtain ⟨v2, h2, h⟩ := Res.bind_eq_ok.mp h
    obtain ⟨v3, h3, h⟩ := Res.bind_eq_ok.mp h
    obtain ⟨v4, h4, h⟩ := Res.bind_eq_ok.mp h
    obtain ⟨v5, h5, h⟩ := Res.bind_eq_ok.mp h
    cases h
    exact ⟨by omega, ⟨⟨⟨⟨⟨rxU16_eq_ok.mp h0, rxU16_eq_ok.mp h1⟩, rxU16_eq_ok.mp h2⟩, rxU16_eq_ok.mp h3⟩,
      rxU16_eq_ok.mp h4⟩, rxU16_eq_ok.mp h5⟩⟩
  · rintro ⟨hn, ⟨⟨⟨⟨⟨h0, h1⟩, h2⟩, h3⟩, h4⟩, h5⟩⟩
    rw [needRx_pass (by simp only [Config.headerLen]; omega), Res.bind_ok, rxU16_eq_ok.mpr h0, Res.bind_ok,
      rxU16_eq_ok.mpr h1, Res.bind_ok, rxU16_eq_ok.mpr h2, Res.bind_ok, rxU16_eq_ok.mpr h3, Res.bind_ok,
      rxU16_eq_ok.mpr h4, Res.bind_ok, rxU16_eq_ok.mpr h5, Res.bind_ok]

/-- A header raises SHORT_HEADER at 0, exactly where fewer than 12 bytes remain. -/
theorem parseHeader_eq_raise {m : Memory} {n : Nat} {e : Cause} {p : Nat} :
    parseHeader m n = .raise e p ↔ n < 12 ∧ e = .shortHeader ∧ p = 0 := by
  unfold parseHeader
  constructor
  · intro h
    rcases Res.bind_eq_raise.mp h with h | ⟨u, -, h⟩
    · obtain ⟨rfl, rfl, hn⟩ := needRx_eq_raise h
      simp only [Config.headerLen] at hn
      exact ⟨by omega, rfl, rfl⟩
    rcases Res.bind_eq_raise.mp h with h | ⟨v, -, h⟩
    · exact absurd h (rxU16_ne_raise _ _ _ _)
    rcases Res.bind_eq_raise.mp h with h | ⟨v, -, h⟩
    · exact absurd h (rxU16_ne_raise _ _ _ _)
    rcases Res.bind_eq_raise.mp h with h | ⟨v, -, h⟩
    · exact absurd h (rxU16_ne_raise _ _ _ _)
    rcases Res.bind_eq_raise.mp h with h | ⟨v, -, h⟩
    · exact absurd h (rxU16_ne_raise _ _ _ _)
    rcases Res.bind_eq_raise.mp h with h | ⟨v, -, h⟩
    · exact absurd h (rxU16_ne_raise _ _ _ _)
    rcases Res.bind_eq_raise.mp h with h | ⟨v, -, h⟩
    · exact absurd h (rxU16_ne_raise _ _ _ _)
    · cases h
  · rintro ⟨hn, rfl, rfl⟩
    rw [needRx_fail (by simp only [Config.headerLen]; omega) (by decide), Res.bind_raise]

theorem parseHeader_eq_fault {m : Memory} {n : Nat} {f : Fault} (h : parseHeader m n = .fault f) :
    ∃ a < 12, a < n ∧ m.read a = none ∧ f = .unwrittenByte .rx a := by
  unfold parseHeader at h
  rcases Res.bind_eq_fault.mp h with h | ⟨u, hu, h⟩
  · exact absurd h (needRx_ne_fault _ _ _ _ _ _)
  have hn := (needRx_eq_ok u (by decide)).mp hu
  simp only [Config.headerLen] at hn
  rcases Res.bind_eq_fault.mp h with h | ⟨v, -, h⟩
  · obtain ⟨j, hj, h⟩ := rxU16_eq_fault h; exact ⟨0 + j, by omega, by omega, h⟩
  rcases Res.bind_eq_fault.mp h with h | ⟨v, -, h⟩
  · obtain ⟨j, hj, h⟩ := rxU16_eq_fault h; exact ⟨2 + j, by omega, by omega, h⟩
  rcases Res.bind_eq_fault.mp h with h | ⟨v, -, h⟩
  · obtain ⟨j, hj, h⟩ := rxU16_eq_fault h; exact ⟨4 + j, by omega, by omega, h⟩
  rcases Res.bind_eq_fault.mp h with h | ⟨v, -, h⟩
  · obtain ⟨j, hj, h⟩ := rxU16_eq_fault h; exact ⟨6 + j, by omega, by omega, h⟩
  rcases Res.bind_eq_fault.mp h with h | ⟨v, -, h⟩
  · obtain ⟨j, hj, h⟩ := rxU16_eq_fault h; exact ⟨8 + j, by omega, by omega, h⟩
  rcases Res.bind_eq_fault.mp h with h | ⟨v, -, h⟩
  · obtain ⟨j, hj, h⟩ := rxU16_eq_fault h; exact ⟨10 + j, by omega, by omega, h⟩
  · cases h

theorem parseHeader_congr {m m' : Memory} {n : Nat} (hm : ∀ a < 12, a < n → m.read a = m'.read a) :
    parseHeader m n = parseHeader m' n := by
  unfold parseHeader
  by_cases hn : 12 ≤ n
  · rw [rxU16_congr fun j hj => hm (0 + j) (by omega) (by omega), rxU16_congr fun j hj => hm (2 + j) (by omega) (by omega),
      rxU16_congr fun j hj => hm (4 + j) (by omega) (by omega), rxU16_congr fun j hj => hm (6 + j) (by omega) (by omega),
      rxU16_congr fun j hj => hm (8 + j) (by omega) (by omega), rxU16_congr fun j hj => hm (10 + j) (by omega) (by omega)]
  · rw [needRx_fail (by simp only [Config.headerLen]; omega) (by decide), Res.bind_raise, Res.bind_raise]

/-! ### Stage 3: the fixed fields -/

theorem fixedFields_eq_ok {m : Memory} {n p : Nat} {f : FixedFields} :
    fixedFields m n p = .ok f ↔ p + 10 ≤ n ∧ holdsAt m p (fixedBytes f.atype f.aclass f.ttl f.rdlength) := by
  obtain ⟨ty, cl, ttl, rd⟩ := f
  unfold fixedFields fixedBytes
  simp only [holdsAt_append, List.length_append, length_bytes16, length_bytes32, Nat.reduceAdd]
  constructor
  · intro h
    obtain ⟨u, hu, h⟩ := Res.bind_eq_ok.mp h
    have hn := (needRx_eq_ok u (by decide)).mp hu
    simp only [Config.rrFixedLen] at hn
    obtain ⟨v0, h0, h⟩ := Res.bind_eq_ok.mp h
    obtain ⟨v1, h1, h⟩ := Res.bind_eq_ok.mp h
    obtain ⟨v2, h2, h⟩ := Res.bind_eq_ok.mp h
    obtain ⟨v3, h3, h⟩ := Res.bind_eq_ok.mp h
    cases h
    exact ⟨by omega, ⟨⟨rxU16_eq_ok.mp h0, rxU16_eq_ok.mp h1⟩, rxU32_eq_ok.mp h2⟩, rxU16_eq_ok.mp h3⟩
  · rintro ⟨hn, ⟨⟨h0, h1⟩, h2⟩, h3⟩
    rw [needRx_pass (by simp only [Config.rrFixedLen]; omega), Res.bind_ok, rxU16_eq_ok.mpr h0, Res.bind_ok,
      rxU16_eq_ok.mpr h1, Res.bind_ok, rxU32_eq_ok.mpr h2, Res.bind_ok, rxU16_eq_ok.mpr h3, Res.bind_ok]

theorem fixedFields_eq_raise {m : Memory} {n p : Nat} {e : Cause} {q : Nat} :
    fixedFields m n p = .raise e q ↔ n < p + 10 ∧ e = .fixedFields ∧ q = p := by
  unfold fixedFields
  constructor
  · intro h
    rcases Res.bind_eq_raise.mp h with h | ⟨u, -, h⟩
    · obtain ⟨rfl, rfl, hn⟩ := needRx_eq_raise h
      simp only [Config.rrFixedLen] at hn
      exact ⟨by omega, rfl, rfl⟩
    rcases Res.bind_eq_raise.mp h with h | ⟨v, -, h⟩
    · exact absurd h (rxU16_ne_raise _ _ _ _)
    rcases Res.bind_eq_raise.mp h with h | ⟨v, -, h⟩
    · exact absurd h (rxU16_ne_raise _ _ _ _)
    rcases Res.bind_eq_raise.mp h with h | ⟨v, -, h⟩
    · exact absurd h (rxU32_ne_raise _ _ _ _)
    rcases Res.bind_eq_raise.mp h with h | ⟨v, -, h⟩
    · exact absurd h (rxU16_ne_raise _ _ _ _)
    · cases h
  · rintro ⟨hn, rfl, rfl⟩
    rw [needRx_fail (by simp only [Config.rrFixedLen]; omega) (by decide), Res.bind_raise]

theorem fixedFields_eq_fault {m : Memory} {n p : Nat} {f : Fault} (h : fixedFields m n p = .fault f) :
    ∃ a < n, m.read a = none ∧ f = .unwrittenByte .rx a := by
  unfold fixedFields at h
  rcases Res.bind_eq_fault.mp h with h | ⟨u, hu, h⟩
  · exact absurd h (needRx_ne_fault _ _ _ _ _ _)
  have hn := (needRx_eq_ok u (by decide)).mp hu
  simp only [Config.rrFixedLen] at hn
  rcases Res.bind_eq_fault.mp h with h | ⟨v, -, h⟩
  · obtain ⟨j, hj, h⟩ := rxU16_eq_fault h; exact ⟨_, by omega, h⟩
  rcases Res.bind_eq_fault.mp h with h | ⟨v, -, h⟩
  · obtain ⟨j, hj, h⟩ := rxU16_eq_fault h; exact ⟨_, by omega, h⟩
  rcases Res.bind_eq_fault.mp h with h | ⟨v, -, h⟩
  · obtain ⟨j, hj, h⟩ := rxU32_eq_fault h; exact ⟨_, by omega, h⟩
  rcases Res.bind_eq_fault.mp h with h | ⟨v, -, h⟩
  · obtain ⟨j, hj, h⟩ := rxU16_eq_fault h; exact ⟨_, by omega, h⟩
  · cases h

theorem fixedFields_congr {m m' : Memory} {n : Nat} (hm : ∀ a < n, m.read a = m'.read a) (p : Nat) :
    fixedFields m n p = fixedFields m' n p := by
  unfold fixedFields
  by_cases hn : p + 10 ≤ n
  · rw [rxU16_congr fun j hj => hm (p + j) (by omega), rxU16_congr fun j hj => hm (p + 2 + j) (by omega),
      rxU32_congr fun j hj => hm (p + 4 + j) (by omega), rxU16_congr fun j hj => hm (p + 8 + j) (by omega)]
  · rw [needRx_fail (by simp only [Config.rrFixedLen]; omega) (by decide), Res.bind_raise, Res.bind_raise]

/-! ### Stage 4: RDATA -/

/-- A bounds check of any number of bytes, from a cursor inside the message. -/
theorem needRx_pass_iff {n c k : Nat} {e : Cause} {p : Nat} (u : Unit) (hc : c ≤ n) :
    needRx n c k e p = .ok u ↔ c + k ≤ n := by
  cases k with
  | zero => simp only [Nat.add_zero, hc, iff_true]; exact needRx_pass (by omega)
  | succ k => exact needRx_eq_ok u (by omega)

/-- RDATA is taken as an address. -/
theorem takeRData_addr {m : Memory} {n q : Nat} {f : FixedFields} {b0 b1 b2 b3 : Byte} (hn : q + 4 ≤ n)
    (h1 : f.atype = 1) (h2 : f.rdlength = 4) (hm : holdsAt m q [b0, b1, b2, b3]) :
    takeRData m n f q = .ok (answerWithAddr f q b0 b1 b2 b3) := by
  obtain ⟨m0, hm⟩ := holdsAt_cons.mp hm
  obtain ⟨m1, hm⟩ := holdsAt_cons.mp hm
  obtain ⟨m2, hm⟩ := holdsAt_cons.mp hm
  obtain ⟨m3, -⟩ := holdsAt_cons.mp hm
  rw [takeRData, needRx_pass (by rw [h2]; exact hn), Res.bind_ok, if_pos ⟨h1, h2⟩, rxU8_eq_ok.mpr m0, Res.bind_ok,
    rxU8_eq_ok.mpr m1, Res.bind_ok, rxU8_eq_ok.mpr m2, Res.bind_ok, rxU8_eq_ok.mpr m3, Res.bind_ok]

/-- RDATA is taken as a window. -/
theorem takeRData_opaque {m : Memory} {n q : Nat} {f : FixedFields} (hn : q + f.rdlength.toNat ≤ n)
    (h : ¬ (f.atype = 1 ∧ f.rdlength = 4)) : takeRData m n f q = .ok (answerOpaque f q) := by
  rw [takeRData, needRx_pass hn, Res.bind_ok, if_neg (show ¬ (f.atype = Config.typeA ∧ f.rdlength = 4) from h)]

/-- All that RDATA can be taken as. -/
theorem takeRData_eq_ok {m : Memory} {n q : Nat} {f : FixedFields} {a : Answer} (hq : q ≤ n)
    (h : takeRData m n f q = .ok a) :
    q + f.rdlength.toNat ≤ n ∧
      ((f.atype = 1 ∧ f.rdlength = 4 ∧ ∃ b0 b1 b2 b3, holdsAt m q [b0, b1, b2, b3] ∧ a = answerWithAddr f q b0 b1 b2 b3) ∨
        (¬ (f.atype = 1 ∧ f.rdlength = 4) ∧ a = answerOpaque f q)) := by
  unfold takeRData at h
  obtain ⟨u, hu, h⟩ := Res.bind_eq_ok.mp h
  refine ⟨(needRx_pass_iff u hq).mp hu, ?_⟩
  split at h
  · next hc =>
    obtain ⟨b0, h0, h⟩ := Res.bind_eq_ok.mp h
    obtain ⟨b1, h1, h⟩ := Res.bind_eq_ok.mp h
    obtain ⟨b2, h2, h⟩ := Res.bind_eq_ok.mp h
    obtain ⟨b3, h3, h⟩ := Res.bind_eq_ok.mp h
    cases h
    exact .inl ⟨hc.1, hc.2, b0, b1, b2, b3, holdsAt_cons.mpr ⟨rxU8_eq_ok.mp h0, holdsAt_cons.mpr ⟨rxU8_eq_ok.mp h1,
      holdsAt_cons.mpr ⟨rxU8_eq_ok.mp h2, holdsAt_cons.mpr ⟨rxU8_eq_ok.mp h3, holdsAt_nil _ _⟩⟩⟩⟩, rfl⟩
  · next hc => cases h; exact .inr ⟨hc, rfl⟩

theorem takeRData_eq_raise {m : Memory} {n q : Nat} {f : FixedFields} {e : Cause} {p : Nat}
    (h : takeRData m n f q = .raise e p) : e = .rdata ∧ p = q ∧ n < q + f.rdlength.toNat := by
  unfold takeRData at h
  rcases Res.bind_eq_raise.mp h with h | ⟨u, -, h⟩
  · exact needRx_eq_raise h
  · split at h
    · rcases Res.bind_eq_raise.mp h with h | ⟨b, -, h⟩
      · exact absurd h (rxU8_ne_raise _ _ _ _)
      rcases Res.bind_eq_raise.mp h with h | ⟨b, -, h⟩
      · exact absurd h (rxU8_ne_raise _ _ _ _)
      rcases Res.bind_eq_raise.mp h with h | ⟨b, -, h⟩
      · exact absurd h (rxU8_ne_raise _ _ _ _)
      rcases Res.bind_eq_raise.mp h with h | ⟨b, -, h⟩
      · exact absurd h (rxU8_ne_raise _ _ _ _)
      · cases h
    · cases h

theorem takeRData_eq_fault {m : Memory} {n q : Nat} {f : FixedFields} {x : Fault} (hq : q ≤ n)
    (h : takeRData m n f q = .fault x) : ∃ a < n, m.read a = none ∧ x = .unwrittenByte .rx a := by
  unfold takeRData at h
  rcases Res.bind_eq_fault.mp h with h | ⟨u, hu, h⟩
  · exact absurd h (needRx_ne_fault _ _ _ _ _ _)
  have hn := (needRx_pass_iff u hq).mp hu
  split at h
  · next hc =>
    rw [hc.2] at hn
    have hn : q + 4 ≤ n := hn
    rcases Res.bind_eq_fault.mp h with h | ⟨b, -, h⟩
    · exact ⟨q, by omega, rxU8_eq_fault h⟩
    rcases Res.bind_eq_fault.mp h with h | ⟨b, -, h⟩
    · exact ⟨q + 1, by omega, rxU8_eq_fault h⟩
    rcases Res.bind_eq_fault.mp h with h | ⟨b, -, h⟩
    · exact ⟨q + 2, by omega, rxU8_eq_fault h⟩
    rcases Res.bind_eq_fault.mp h with h | ⟨b, -, h⟩
    · exact ⟨q + 3, by omega, rxU8_eq_fault h⟩
    · cases h
  · cases h

theorem takeRData_congr {m m' : Memory} {n q : Nat} (hm : ∀ a < n, m.read a = m'.read a) (hq : q ≤ n)
    (f : FixedFields) : takeRData m n f q = takeRData m' n f q := by
  unfold takeRData
  by_cases hn : q + f.rdlength.toNat ≤ n
  · by_cases hc : f.atype = Config.typeA ∧ f.rdlength = 4
    · rw [hc.2] at hn
      have hn : q + 4 ≤ n := hn
      rw [if_pos hc, if_pos hc, rxU8_congr (hm q (by omega)), rxU8_congr (hm (q + 1) (by omega)),
        rxU8_congr (hm (q + 2) (by omega)), rxU8_congr (hm (q + 3) (by omega))]
    · rw [if_neg hc, if_neg hc]
  · rw [needRx_fail (by omega) (by omega), Res.bind_raise, Res.bind_raise]

/-! ### The whole record -/

/-- All a parsed record can be. -/
theorem parseRecord_eq_ok {m : Memory} {n c : Nat} {r : ParsedRecord} (h : parseRecord m n c = .ok r) :
    ∃ (o : OwnerName) (f : FixedFields), resolveOwner m n c = .ok o ∧ fixedFields m n (c + o.cons) = .ok f ∧
      takeRData m n f (c + o.cons + 10) = .ok r.answer ∧ r.owner = o ∧ c + o.cons + 10 ≤ n ∧
      r.stop = c + o.cons + 10 + f.rdlength.toNat ∧ r.stop ≤ n := by
  unfold parseRecord at h
  obtain ⟨o, ho, h⟩ := Res.bind_eq_ok.mp h
  obtain ⟨f, hf, h⟩ := Res.bind_eq_ok.mp h
  obtain ⟨a, ha, h⟩ := Res.bind_eq_ok.mp h
  cases h
  have hn := (fixedFields_eq_ok.mp hf).1
  exact ⟨o, f, ho, hf, ha, rfl, hn, rfl, (takeRData_eq_ok hn ha).1⟩

/-- The causes a record raises, and where. -/
theorem parseRecord_eq_raise {m : Memory} {n c : Nat} {e : Cause} {p : Nat} (h : parseRecord m n c = .raise e p) :
    resolveOwner m n c = .raise e p ∨
      ∃ o, resolveOwner m n c = .ok o ∧ c + o.cons ≤ n ∧
        ((e = .fixedFields ∧ p = c + o.cons) ∨ (e = .rdata ∧ p = c + o.cons + 10 ∧ p ≤ n)) := by
  unfold parseRecord at h
  rcases Res.bind_eq_raise.mp h with h | ⟨o, ho, h⟩
  · exact .inl h
  · obtain ⟨_, -, h3, -, -, h4⟩ := resolveOwner_eq_ok ho
    rcases Res.bind_eq_raise.mp h with h | ⟨f, hf, h⟩
    · obtain ⟨-, rfl, rfl⟩ := fixedFields_eq_raise.mp h
      exact .inr ⟨o, ho, by omega, .inl ⟨rfl, rfl⟩⟩
    · rcases Res.bind_eq_raise.mp h with h | ⟨a, -, h⟩
      · obtain ⟨rfl, rfl, -⟩ := takeRData_eq_raise h
        exact .inr ⟨o, ho, by omega, .inr ⟨rfl, rfl, (fixedFields_eq_ok.mp hf).1⟩⟩
      · cases h

theorem parseRecord_eq_fault {m : Memory} {n c : Nat} {f : Fault} (h : parseRecord m n c = .fault f) :
    ∃ a < n, m.read a = none ∧ f = .unwrittenByte .rx a := by
  unfold parseRecord at h
  rcases Res.bind_eq_fault.mp h with h | ⟨o, -, h⟩
  · exact resolveOwner_eq_fault h
  · rcases Res.bind_eq_fault.mp h with h | ⟨x, hx, h⟩
    · exact fixedFields_eq_fault h
    · rcases Res.bind_eq_fault.mp h with h | ⟨a, -, h⟩
      · exact takeRData_eq_fault (fixedFields_eq_ok.mp hx).1 h
      · cases h

/-- Two messages that agree below their end have the same record. -/
theorem parseRecord_congr {m m' : Memory} {n : Nat} (hm : ∀ a < n, m.read a = m'.read a) (c : Nat) :
    parseRecord m n c = parseRecord m' n c := by
  unfold parseRecord
  rw [resolveOwner_congr hm]
  cases resolveOwner m' n c with
  | raise e p => rfl
  | fault f => rfl
  | ok o =>
    rw [Res.bind_ok, Res.bind_ok, fixedFields_congr hm]
    cases hf : fixedFields m' n (c + o.cons) with
    | raise e p => rfl
    | fault f => rfl
    | ok f =>
      rw [Res.bind_ok, Res.bind_ok,
        takeRData_congr (q := c + o.cons + Config.rrFixedLen) hm (fixedFields_eq_ok.mp hf).1]

end Sys2Proof.Machine
end

