-- ==== Sys2Proof/Laws/Exec.lean ====
section
/-! SUPPORT. What each command can do when it answers a next state: one inversion lemma per command. -/

namespace Sys2Proof.Machine

open Sys2Proof.Safety

/-! ### The encoder's commands -/

/-- An encoded name is the wire form of the legal labels NAME holds. -/
theorem encodedName_eq_ok {s : State} {out : List Byte} :
    encodedName s = .ok out ↔ s.namelen.toNat ≤ 253 ∧ ∃ bs, bs.length = s.namelen.toNat ∧ holdsAt s.name 0 bs ∧
      labelsOk (split bs) ∧ out = wire (split bs) := by
  unfold encodedName nameBytes
  rw [encodeName_eq_ok]
  simp only [readBytes_eq_ok, and_assoc]

/-- It is two bytes longer than NAMELEN says (R158). -/
theorem length_encodedName {s : State} {out : List Byte} (h : encodedName s = .ok out) :
    out.length = s.namelen.toNat + 2 ∧ out.length ≤ 255 := by
  obtain ⟨h1, bs, h2, -, -, rfl⟩ := encodedName_eq_ok.mp h
  have := length_wirePrefix (split_ne_nil bs)
  rw [join_split, h2] at this
  rw [wire_eq_wireName, length_wireName, this]
  omega

/-- The causes the encoding of NAME raises, and where. -/
theorem encodedName_eq_raise {s : State} {c : Cause} {p : Nat} (h : encodedName s = .raise c p) :
    (c = .nameTooLong ∨ c = .emptyLabel ∨ c = .labelTooLong) ∧ p ≤ s.namelen.toNat := by
  rcases encodeName_eq_raise (fun c p => readBytes_ne_raise _ _ _ _ c p) h with ⟨rfl, rfl, -⟩ | ⟨-, h1, bs, hb, hp⟩
  · exact ⟨.inl rfl, by omega⟩
  · exact ⟨.inr h1, by rw [← (readBytes_eq_ok.mp hb).1]; exact hp⟩

theorem encodedName_eq_fault {s : State} {f : Fault} (h : encodedName s = .fault f) :
    ∃ a < s.namelen.toNat, s.name.read a = none ∧ f = .unwrittenByte .name a := by
  obtain ⟨j, hj, h1, h2⟩ := readBytes_eq_fault (encodeName_eq_fault h)
  exact ⟨0 + j, by omega, h1, h2⟩

/-- Two states with the same NAME below NAMELEN encode it alike. -/
theorem encodedName_congr {s t : State} (hn : s.namelen = t.namelen)
    (hm : ∀ a < s.namelen.toNat, s.name.read a = t.name.read a) : encodedName s = encodedName t := by
  unfold encodedName nameBytes
  rw [← hn, readBytes_congr fun j hj => hm (0 + j) (by omega)]

/-- ENCODE_NAME answers the encoded name, or the error it raised. -/
theorem execEncodeName_eq_next {s t : State} (h : execEncodeName s = .next t) :
    (∃ out, encodedName s = .ok out ∧ t = ((s.start.setTx out).setCur s.namelen.toNat).succeed) ∨
      (∃ c p, encodedName s = .raise c p ∧ t = s.start.fail (writeSet .encodeName) c p) := conclude_eq_next h

/-- BUILD_QUESTION answers the question, or the error raised. -/
theorem execBuildQuestion_eq_next {s t : State} (h : execBuildQuestion s = .next t) :
    (∃ out, encodedName s = .ok out ∧ t = ((s.start.setTx (questionBytes out)).setCur s.namelen.toNat).succeed) ∨
      (∃ c p, encodedName s = .raise c p ∧ t = s.start.fail (writeSet .buildQuestion) c p) := conclude_eq_next h

/-- BUILD_QUERY answers the query, or the error raised. -/
theorem buildQueryWith_eq_next {r : Word16} {s t : State} (h : buildQueryWith r s = .next t) :
    (∃ out, encodedName s = .ok out ∧ t = (((s.start.setQueryHeader r).setTx
        (headerBytes (queryHeader r) ++ questionBytes out)).setCur s.namelen.toNat).succeed) ∨
      (∃ c p, encodedName s = .raise c p ∧ t = s.start.fail (writeSet .buildQuery) c p) := conclude_eq_next h

/-- BUILD_HEADER waits for its draw, or answers the header of a query with it. -/
theorem execBuildHeader_eq_next {s t : State} (h : execBuildHeader s = .next t) :
    (s.entropyReady = false ∧ t = s.hold .buildHeader) ∨
      (s.entropyReady = true ∧ buildHeaderWith (Config.draw16 s.draws) s.takeDraw = .next t) := withDraw_eq_next h

/-- BUILD_QUERY waits for its draw, or answers what it answers with it. -/
theorem execBuildQuery_eq_next {s t : State} (h : execBuildQuery s = .next t) :
    (s.entropyReady = false ∧ t = s.hold .buildQuery) ∨
      (s.entropyReady = true ∧ buildQueryWith (Config.draw16 s.draws) s.takeDraw = .next t) := withDraw_eq_next h

/-! ### The decoder's commands -/

/-- PARSE_HEADER answers BAD_LENGTH, the header, or the error raised. -/
theorem execParseHeader_eq_next {s t : State} (h : execParseHeader s = .next t) :
    (s.rxCap.toNat < s.rxlen.toNat ∧ t = s.start.commandError .badLength) ∨
    (s.rxlen.toNat ≤ s.rxCap.toNat ∧
      ((∃ r, parseHeader s.rx s.rxlen.toNat = .ok r ∧
          t = (((s.start.setParsedHeader r).setCur Config.headerLen).setDstate .awaitingQuestionSkip).succeed) ∨
        (∃ c p, parseHeader s.rx s.rxlen.toNat = .raise c p ∧ t = s.start.fail (writeSet .parseHeader) c p))) := by
  unfold execParseHeader at h
  rcases guardRxLen_cases s.start _ with ⟨hl, hg⟩ | ⟨hl, hg⟩ <;> rw [hg] at h
  · exact .inl ⟨hl, by simpa using h.symm⟩
  · exact .inr ⟨hl, conclude_eq_next h⟩

/-- RESOLVE_OWNER answers BAD_LENGTH, the owner name, or the error raised. -/
theorem execResolveOwner_eq_next {s t : State} (h : execResolveOwner s = .next t) :
    (s.rxCap.toNat < s.rxlen.toNat ∧ t = s.start.commandError .badLength) ∨
    (s.rxlen.toNat ≤ s.rxCap.toNat ∧
      ((∃ o, resolveOwner s.rx s.rxlen.toNat s.ansoff.toNat = .ok o ∧
          t = (((s.start.setOwn o.group).setCur (s.ansoff.toNat + o.cons)).setDstate .awaitingFixedFields).succeed) ∨
        (∃ c p, resolveOwner s.rx s.rxlen.toNat s.ansoff.toNat = .raise c p ∧
          t = s.start.fail (writeSet .resolveOwner) c p))) := by
  unfold execResolveOwner at h
  rcases guardRxLen_cases s.start _ with ⟨hl, hg⟩ | ⟨hl, hg⟩ <;> rw [hg] at h
  · exact .inl ⟨hl, by simpa using h.symm⟩
  · exact .inr ⟨hl, conclude_eq_next h⟩

/-- PARSE_ANSWER answers BAD_LENGTH, the record, or the error raised. -/
theorem execParseAnswer_eq_next {s t : State} (h : execParseAnswer s = .next t) :
    (s.rxCap.toNat < s.rxlen.toNat ∧ t = s.start.commandError .badLength) ∨
    (s.rxlen.toNat ≤ s.rxCap.toNat ∧
      ((∃ r, parseRecord s.rx s.rxlen.toNat s.ansoff.toNat = .ok r ∧ t = (s.start.setRecord r).succeed) ∨
        (∃ c p, parseRecord s.rx s.rxlen.toNat s.ansoff.toNat = .raise c p ∧
          t = s.start.fail (writeSet .parseAnswer) c p))) := by
  unfold execParseAnswer at h
  rcases guardRxLen_cases s.start _ with ⟨hl, hg⟩ | ⟨hl, hg⟩ <;> rw [hg] at h
  · exact .inl ⟨hl, by simpa using h.symm⟩
  · exact .inr ⟨hl, conclude_eq_next h⟩

/-- The stages of DECODE: the header, then the record at the offset of the answer. -/
theorem decodeStages_eq_ok {s : State} {hr : Header × ParsedRecord} :
    decodeStages s = .ok hr ↔ parseHeader s.rx s.rxlen.toNat = .ok hr.1 ∧
      parseRecord s.rx s.rxlen.toNat (answerOffset s) = .ok hr.2 := by
  obtain ⟨h, r⟩ := hr
  unfold decodeStages
  constructor
  · intro hd
    obtain ⟨h', h1, hd⟩ := Res.bind_eq_ok.mp hd
    obtain ⟨r', h2, hd⟩ := Res.bind_eq_ok.mp hd
    cases hd; exact ⟨h1, h2⟩
  · rintro ⟨h1, h2⟩; rw [h1, Res.bind_ok, h2, Res.bind_ok]

theorem decodeStages_eq_raise {s : State} {c : Cause} {p : Nat} :
    decodeStages s = .raise c p ↔ parseHeader s.rx s.rxlen.toNat = .raise c p ∨
      ∃ h, parseHeader s.rx s.rxlen.toNat = .ok h ∧ parseRecord s.rx s.rxlen.toNat (answerOffset s) = .raise c p := by
  unfold decodeStages
  simp [Res.bind_eq_raise]

theorem decodeStages_eq_fault {s : State} {f : Fault} (h : decodeStages s = .fault f) :
    ∃ a < s.rxlen.toNat, s.rx.read a = none ∧ f = .unwrittenByte .rx a := by
  unfold decodeStages at h
  rcases Res.bind_eq_fault.mp h with h | ⟨x, -, h⟩
  · obtain ⟨a, -, h⟩ := parseHeader_eq_fault h; exact ⟨a, h⟩
  · rcases Res.bind_eq_fault.mp h with h | ⟨r, -, h⟩
    · exact parseRecord_eq_fault h
    · cases h

/-- DECODE answers BAD_LENGTH, the header and the record, or the error raised. -/
theorem execDecode_eq_next {s t : State} (h : execDecode s = .next t) :
    (s.rxCap.toNat < s.rxlen.toNat ∧ t = s.start.commandError .badLength) ∨
    (s.rxlen.toNat ≤ s.rxCap.toNat ∧
      ((∃ hr, decodeStages s = .ok hr ∧
          t = (((s.start.setParsedHeader hr.1).setAnsoff (answerOffset s)).setRecord hr.2).succeed) ∨
        (∃ c p, decodeStages s = .raise c p ∧ t = s.start.fail (writeSet .decode) c p))) := by
  unfold execDecode at h
  rcases guardRxLen_cases s.start _ with ⟨hl, hg⟩ | ⟨hl, hg⟩ <;> rw [hg] at h
  · exact .inl ⟨hl, by simpa using h.symm⟩
  · exact .inr ⟨hl, conclude_eq_next h⟩

/-! ### Every command -/

/-- Every cause has a code (R231). -/
theorem Cause.code_ne_zero (c : Cause) : c.code ≠ 0 := by cases c <;> decide

/-- The causes of the owner name arise in AwaitingOwnerName (R204). -/
theorem owner_stage {c : Cause}
    (h : c = .noOwnerBytes ∨ c = .nameRunsOut ∨ c = .otherPointer ∨ c = .reservedLabelType ∨ c = .literalTooLong) :
    c.stage = some .awaitingOwnerName := by
  rcases h with rfl | rfl | rfl | rfl | rfl <;> rfl

/-- The causes a record raises: those of its owner name, and the two of its own stages. -/
theorem parseRecord_causes {m : Memory} {n c : Nat} {e : Cause} {p : Nat} (h : parseRecord m n c = .raise e p) :
    (e = .noOwnerBytes ∨ e = .nameRunsOut ∨ e = .otherPointer ∨ e = .reservedLabelType ∨ e = .literalTooLong) ∨
      (e = .fixedFields ∨ e = .rdata) := by
  rcases parseRecord_eq_raise h with h | ⟨o, -, hn, ⟨rfl, -⟩ | ⟨rfl, -, -⟩⟩
  · exact .inl (resolveOwner_eq_raise h).1
  · exact .inr (.inl rfl)
  · exact .inr (.inr rfl)

/-- A command that needs a draw stays busy where the entropy source does not answer (R253). -/
theorem exec_waits {i : Instr} {s : State} (h : waits s i = true) : exec i s = .next (s.hold i) := by
  have hr : s.entropyReady = false := by cases hs : s.entropyReady <;> simp [waits, hs] at h ⊢
  cases i <;> first | exact withDraw_wait hr | simp [waits, takesDraw] at h

/-- All that a command can do when it answers a next state: the wait for a draw, success, BAD_LENGTH, or an error of the causes it may raise
(R231); the state it starts from is the state before, with one more draw taken by BUILD_QUERY. -/
theorem exec_eq_next {i : Instr} {s t : State} (h : exec i s = .next t) :
    (waits s i = true ∧ t = s.hold i) ∨
    (t.errcode = 0 ∧ t.errsub = 0 ∧ t.status = statusDone) ∨
    (readsRx i = true ∧ s.rxCap.toNat < s.rxlen.toNat ∧ t = s.start.commandError .badLength) ∨
    (∃ s' c p, (s' = s.start ∨ s' = s.takeDraw.start) ∧ t = s'.fail (writeSet i) c p ∧
      ((encodesName i = true ∧
          (c = .nameTooLong ∨ c = .emptyLabel ∨ c = .labelTooLong)) ∨
       ((i = .parseHeader ∨ i = .decode) ∧ c = .shortHeader) ∨
       ((i = .resolveOwner ∨ i = .parseAnswer ∨ i = .decode) ∧ c.stage = some .awaitingOwnerName ∧
          (c = .noOwnerBytes ∨ c = .nameRunsOut ∨ c = .otherPointer ∨ c = .reservedLabelType ∨ c = .literalTooLong)) ∨
       ((i = .parseAnswer ∨ i = .decode) ∧ (c = .fixedFields ∨ c = .rdata)))) := by
  cases i
  · cases h; exact .inr (.inl ⟨rfl, rfl, rfl⟩)
  · cases h; exact .inr (.inl ⟨rfl, rfl, rfl⟩)
  · rcases execBuildHeader_eq_next h with ⟨hr, rfl⟩ | ⟨-, h⟩
    · exact .inl ⟨by simp [waits, takesDraw, hr], rfl⟩
    · cases h; exact .inr (.inl ⟨rfl, rfl, rfl⟩)
  · rcases execEncodeName_eq_next h with ⟨out, ho, rfl⟩ | ⟨c, p, hr, rfl⟩
    · exact .inr (.inl ⟨rfl, rfl, rfl⟩)
    · exact .inr (.inr (.inr ⟨_, c, p, .inl rfl, rfl, .inl ⟨rfl, (encodedName_eq_raise hr).1⟩⟩))
  · rcases execBuildQuestion_eq_next h with ⟨out, ho, rfl⟩ | ⟨c, p, hr, rfl⟩
    · exact .inr (.inl ⟨rfl, rfl, rfl⟩)
    · exact .inr (.inr (.inr ⟨_, c, p, .inl rfl, rfl, .inl ⟨rfl, (encodedName_eq_raise hr).1⟩⟩))
  · rcases execBuildQuery_eq_next h with ⟨hr, rfl⟩ | ⟨-, h⟩
    · exact .inl ⟨by simp [waits, takesDraw, hr], rfl⟩
    rcases buildQueryWith_eq_next h with ⟨out, ho, rfl⟩ | ⟨c, p, hr, rfl⟩
    · exact .inr (.inl ⟨rfl, rfl, rfl⟩)
    · exact .inr (.inr (.inr ⟨_, c, p, .inr rfl, rfl, .inl ⟨rfl, (encodedName_eq_raise hr).1⟩⟩))
  · rcases execParseHeader_eq_next h with ⟨hx, rfl⟩ | ⟨h1, ⟨o, -, rfl⟩ | ⟨c, p, hr, rfl⟩⟩
    · exact .inr (.inr (.inl ⟨rfl, hx, rfl⟩))
    · exact .inr (.inl ⟨rfl, rfl, rfl⟩)
    · exact .inr (.inr (.inr ⟨_, c, p, .inl rfl, rfl, .inr (.inl ⟨.inl rfl, (parseHeader_eq_raise.mp hr).2.1⟩)⟩))
  · cases h; exact .inr (.inl ⟨rfl, rfl, rfl⟩)
  · rcases execResolveOwner_eq_next h with ⟨hx, rfl⟩ | ⟨h1, ⟨o, -, rfl⟩ | ⟨c, p, hr, rfl⟩⟩
    · exact .inr (.inr (.inl ⟨rfl, hx, rfl⟩))
    · exact .inr (.inl ⟨rfl, rfl, rfl⟩)
    · have hc := (resolveOwner_eq_raise hr).1
      exact .inr (.inr (.inr ⟨_, c, p, .inl rfl, rfl, .inr (.inr (.inl ⟨.inl rfl, owner_stage hc, hc⟩))⟩))
  · rcases execParseAnswer_eq_next h with ⟨hx, rfl⟩ | ⟨h1, ⟨o, -, rfl⟩ | ⟨c, p, hr, rfl⟩⟩
    · exact .inr (.inr (.inl ⟨rfl, hx, rfl⟩))
    · exact .inr (.inl ⟨rfl, rfl, rfl⟩)
    · rcases parseRecord_causes hr with h | h
      · exact .inr (.inr (.inr ⟨_, c, p, .inl rfl, rfl, .inr (.inr (.inl ⟨.inr (.inl rfl), owner_stage h, h⟩))⟩))
      · exact .inr (.inr (.inr ⟨_, c, p, .inl rfl, rfl, .inr (.inr (.inr ⟨.inl rfl, h⟩))⟩))
  · rcases execDecode_eq_next h with ⟨hx, rfl⟩ | ⟨h1, ⟨o, -, rfl⟩ | ⟨c, p, hr, rfl⟩⟩
    · exact .inr (.inr (.inl ⟨rfl, hx, rfl⟩))
    · exact .inr (.inl ⟨rfl, rfl, rfl⟩)
    · rcases decodeStages_eq_raise.mp hr with h | ⟨-, -, hr⟩
      · exact .inr (.inr (.inr ⟨_, c, p, .inl rfl, rfl, .inr (.inl ⟨.inr rfl, (parseHeader_eq_raise.mp h).2.1⟩)⟩))
      rcases parseRecord_causes hr with h | h
      · exact .inr (.inr (.inr ⟨_, c, p, .inl rfl, rfl, .inr (.inr (.inl ⟨.inr (.inr rfl), owner_stage h, h⟩))⟩))
      · exact .inr (.inr (.inr ⟨_, c, p, .inl rfl, rfl, .inr (.inr (.inr ⟨.inr rfl, h⟩))⟩))

end Sys2Proof.Machine
end

