-- ==== Sys2Proof/Laws/HostPort.lean ====
section
/-! SUPPORT. What a host action can do, and with it a step: one equation per action and one inversion lemma over all. -/

namespace Sys2Proof.Machine

open Sys2Proof.Safety

/-! ### The step takes the next host action -/

/-- With no host action waiting the block does nothing. -/
theorem step_nil {s : State} (h : s.host = []) : step s = .next s := by unfold step portStep; rw [h]

/-- The next host action is taken and done. -/
theorem step_cons {s : State} {a : HostAction} {rest : List HostAction} (h : s.host = a :: rest) :
    step s = hostAct a { s with host := rest } := by unfold step portStep; rw [h]

/-! ### The command table -/

/-- A code the table does not have is refused by its own name. -/
theorem decode_illegal : ∀ c : Byte, wellFormedCode c = false → decode c = .error (.unknownCommand c) := by decide

/-! ### Writes to registers -/

theorem hostWriteReg_busy {n v : Nat} {s : State} {r : Reg} (hr : Reg.ofNum n = some r) (hb : s.busy = true) :
    hostWriteReg n v s = .next s := by unfold hostWriteReg; rw [hr]; exact if_pos hb

/-- A write to CMD runs the command. -/
theorem hostWriteReg_cmd {v : Nat} {s : State} (hb : s.busy = false) : hostWriteReg 0 v s = runCmd (s.latchCmd v) := by
  unfold hostWriteReg
  exact if_neg (by rw [hb]; exact Bool.false_ne_true)

theorem hostWriteReg_reg {n v : Nat} {s : State} {r : Reg} (hr : Reg.ofNum n = some r) (hc : r ≠ .cmd)
    (hb : s.busy = false) : hostWriteReg n v s = .next (regWrite s v r) := by
  unfold hostWriteReg
  rw [hr]
  dsimp only
  rw [if_neg (by rw [hb]; exact Bool.false_ne_true)]
  cases r <;> first | rfl | exact absurd rfl hc

/-- The command whose code was written runs from the state with CMD consumed. -/
theorem runCmd_ok {v : Nat} {s : State} {i : Instr} (h : decode (BitVec.ofNat 8 v) = .ok i) :
    runCmd (s.latchCmd v) = exec i { s with cmd := 0 } := by
  unfold runCmd
  rw [show (s.latchCmd v).cmd = BitVec.ofNat 8 v from rfl, h]
  rfl

/-- A code that selects no command is UNKNOWN_COMMAND. -/
theorem runCmd_illegal {v : Nat} {s : State} (h : wellFormedCode (BitVec.ofNat 8 v) = false) :
    runCmd (s.latchCmd v) = .next { s with cmd := 0, status := statusError, errcode := 5, errsub := 1 } := by
  unfold runCmd
  rw [show (s.latchCmd v).cmd = BitVec.ofNat 8 v from rfl, decode_illegal _ h]
  rfl

/-- All that running a command code can answer. -/
theorem runCmd_eq_next {v : Nat} {s t : State} (h : runCmd (s.latchCmd v) = .next t) :
    (∃ i, decode (BitVec.ofNat 8 v) = .ok i ∧ exec i { s with cmd := 0 } = .next t) ∨
      t = { s with cmd := 0, status := statusError, errcode := 5, errsub := 1 } := by
  unfold runCmd at h
  rw [show (s.latchCmd v).cmd = BitVec.ofNat 8 v from rfl] at h
  split at h
  · next i hi => exact .inl ⟨i, hi, h⟩
  · cases h; exact .inr rfl

/-- Every register number below 35 names a register, and no other does (R21). -/
theorem Reg.ofNum_isSome (n : Nat) : (Reg.ofNum n).isSome = true ↔ n < 35 := by
  simp [Reg.ofNum, Reg.all]

theorem Reg.ofNum_none {n : Nat} (h : 35 ≤ n) : Reg.ofNum n = none := by
  simp [Reg.ofNum, Reg.all, h]

theorem Reg.exists_ofNum {n : Nat} (h : n < 35) : ∃ r, Reg.ofNum n = some r :=
  Option.isSome_iff_exists.mp ((Reg.ofNum_isSome n).mpr h)

/-! ### The entropy source -/

/-- A busy command is taken up again by the entropy source's answer. -/
theorem entropyAct_resume {s : State} {i : Instr} (hb : s.busy = true) (hd : decode s.cmd = .ok i) :
    entropyAct true s = exec i { s with entropyReady := true, cmd := 0 } := by
  unfold entropyAct
  rw [if_pos (by rw [hb]; rfl), resumeHeld, State.setEntropy_cmd, hd]
  rfl

/-- While the block is not busy it only notes whether the source answers. -/
theorem entropyAct_idle {s : State} {ready : Bool} (hb : s.busy = false) :
    entropyAct ready s = .next { s with entropyReady := ready } := by
  unfold entropyAct
  rw [if_neg (by rw [hb]; simp)]
  rfl

/-- A source that does not answer lifts no hold. -/
theorem entropyAct_false {s : State} : entropyAct false s = .next { s with entropyReady := false } := rfl

/-- All that the entropy source can do: be noted, or have a busy command taken up again. -/
theorem entropyAct_eq_next {ready : Bool} {s t : State} (h : entropyAct ready s = .next t) :
    (t = { s with entropyReady := ready } ∧ (ready = true → s.busy = true → ∀ i, decode s.cmd ≠ .ok i)) ∨
      (s.busy = true ∧ ready = true ∧ ∃ i, decode s.cmd = .ok i ∧ exec i { s with entropyReady := true, cmd := 0 } = .next t) := by
  cases ready with
  | false => cases h; exact .inl ⟨rfl, fun h => absurd h Bool.false_ne_true⟩
  | true =>
    cases hb : s.busy with
    | false => rw [entropyAct_idle hb] at h; cases h; exact .inl ⟨rfl, fun _ h => absurd h Bool.false_ne_true⟩
    | true =>
      cases hd : decode s.cmd with
      | ok i => rw [entropyAct_resume hb hd] at h; exact .inr ⟨rfl, rfl, i, rfl, h⟩
      | error e =>
        unfold entropyAct at h
        rw [if_pos (by rw [hb]; rfl), resumeHeld, State.setEntropy_cmd, hd] at h
        cases h
        exact .inl ⟨rfl, fun _ _ i hi => by cases hi⟩

/-! ### Reads of registers, and bytes -/

theorem hostReadReg_idle {n : Nat} {s : State} {r : Reg} (hr : Reg.ofNum n = some r) (hb : s.busy = false) :
    hostReadReg n s = .next { s with readData := some (regRead s r) } := by
  unfold hostReadReg
  rw [hr]
  exact if_neg (by rw [hb]; exact fun h => Bool.false_ne_true h.1)

theorem hostReadReg_busy {n : Nat} {s : State} {r : Reg} (hr : Reg.ofNum n = some r) (hb : s.busy = true)
    (hs : r ≠ .status) : hostReadReg n s = .next (busyReadValue s) := by
  unfold hostReadReg
  rw [hr]
  exact if_pos ⟨hb, hs⟩

/-- STATUS can be read at any time. -/
theorem hostReadReg_status {s : State} :
    hostReadReg 1 s = .next { s with readData := some (s.status.setWidth 32) } := by
  unfold hostReadReg
  exact if_neg fun h => h.2 rfl

theorem hostReadByte_busy {sp : Space} {a : Nat} {s : State} (ha : a < spaceCap s.rxCap sp) (hb : s.busy = true) :
    hostReadByte sp a s = .next (busyReadValue s) := by
  unfold hostReadByte; rw [if_neg (by omega), if_pos hb]

theorem hostWriteByte_busy {sp : Space} {a : Nat} {b : Byte} {s : State} (ha : a < spaceCap s.rxCap sp)
    (hb : s.busy = true) : hostWriteByte sp a b s = .next s := by
  unfold hostWriteByte; rw [if_neg (by omega), if_pos hb]

theorem hostWriteByte_idle {sp : Space} {a : Nat} {b : Byte} {s : State} (ha : a < spaceCap s.rxCap sp)
    (hb : s.busy = false) (hw : hostWrites sp = true) : hostWriteByte sp a b s = .next (storeByte s a b sp) := by
  unfold hostWriteByte; rw [if_neg (by omega), if_neg (by rw [hb]; exact Bool.false_ne_true), if_pos hw]

/-- The host may not write a byte of a block-written space. -/
theorem hostWriteByte_refused {sp : Space} {a : Nat} {b : Byte} {s : State} (ha : a < spaceCap s.rxCap sp)
    (hb : s.busy = false) (hw : hostWrites sp = false) : hostWriteByte sp a b s = .refused (.blockBufferWrite sp) := by
  unfold hostWriteByte
  rw [if_neg (by omega), if_neg (by rw [hb]; exact Bool.false_ne_true), if_neg (by rw [hw]; exact Bool.false_ne_true)]

theorem hostReadByte_value {sp : Space} {a : Nat} {b : Byte} {s : State} (ha : a < spaceCap s.rxCap sp)
    (hb : s.busy = false) (hl : a < readableLen s sp) (hr : (spaceBytes s sp).read a = some b) :
    hostReadByte sp a s = .next { s with readData := some (b.setWidth 32) } := by
  unfold hostReadByte
  rw [if_neg (by omega), if_neg (by rw [hb]; exact Bool.false_ne_true), if_neg (by omega), hr]

theorem hostReadByte_none {sp : Space} {a : Nat} {s : State} (ha : a < spaceCap s.rxCap sp) (hb : s.busy = false)
    (h : readableLen s sp ≤ a ∨ (spaceBytes s sp).read a = none) :
    hostReadByte sp a s = .fault (.unwrittenByte sp a) := by
  unfold hostReadByte
  rw [if_neg (by omega), if_neg (by rw [hb]; exact Bool.false_ne_true)]
  split
  · rfl
  · next hl => rw [h.resolve_left hl]

/-- A byte the host stores is written in its own space and in no other. -/
theorem spaceBytes_storeByte (s : State) (a : Nat) (b : Byte) (sp sp' : Space) (hw : hostWrites sp = true) :
    spaceBytes (storeByte s a b sp) sp' = if sp' = sp then (spaceBytes s sp).write a b else spaceBytes s sp' := by
  cases sp <;> simp only [hostWrites, Bool.false_eq_true] at hw <;> cases sp' <;> rfl

/-! ### The reset event -/

/-- A reset of a block that is not busy takes no draw. -/
theorem drawsAtReset_idle {s : State} (hb : s.busy = false) : drawsAtReset s = s.draws := by
  unfold drawsAtReset; rw [hb]; rfl

/-- A reset takes at most the draw the abandoned command had asked for (R271). -/
theorem drawsAtReset_cases (s : State) : drawsAtReset s = s.draws ∨ drawsAtReset s = s.draws + 1 := by
  unfold drawsAtReset; split <;> simp

/-! ### Bytes the host can read -/

/-- A byte the host can read is one of its space, below the capacity and the readable length. -/
theorem hostCanRead_bounds {s : State} {sp : Space} {a : Nat} {b : Byte} (h : hostCanRead s sp a b) :
    a < spaceCap s.rxCap sp ∧ a < readableLen s sp ∧ (spaceBytes s sp).read a = some b := by
  cases sp with
  | name => exact ⟨h.2, h.2, h.1⟩
  | tx => exact ⟨h.2.2, h.2.1, h.1⟩
  | rx => exact ⟨h.2, h.2, h.1⟩
  | q => exact ⟨h.2, h.2, h.1⟩
  | owner => exact ⟨h.2.2, h.2.1, h.1⟩
  | addrstr => exact ⟨h.2.2, h.2.1, h.1⟩

/-! ### The inversion -/

/-- All that a host action can do when it answers a next state: nothing, a read, a register written, a command run, an
illegal code, a byte stored, the reset, or what the entropy source does. -/
theorem hostAct_eq_next {a : HostAction} {s t : State} (h : hostAct a s = .next t) :
    t = s ∨ t = busyReadValue s ∨ (∃ v, t = { s with readData := some v }) ∨
      (s.busy = false ∧ ∃ r v, t = regWrite s v r) ∨ (s.busy = false ∧ ∃ i, exec i { s with cmd := 0 } = .next t) ∨
      (s.busy = false ∧ t = { s with cmd := 0, status := statusError, errcode := 5, errsub := 1 }) ∨
      (∃ sp i b, hostWrites sp = true ∧ i < spaceCap s.rxCap sp ∧ t = storeByte s i b sp) ∨ t = resetBlock s ∨
      (∃ ready, entropyAct ready s = .next t) := by
  cases a with
  | writeReg n v =>
    replace h : hostWriteReg n v s = .next t := h
    cases hr : Reg.ofNum n with
    | none => unfold hostWriteReg at h; rw [hr] at h; cases h
    | some r =>
      by_cases hb : s.busy = true
      · rw [hostWriteReg_busy hr hb] at h; cases h; exact .inl rfl
      · have hb : s.busy = false := by simpa using hb
        by_cases hc : r = .cmd
        · have h' : runCmd (s.latchCmd v) = .next t := by
            unfold hostWriteReg at h
            rw [hr, hc] at h
            dsimp only at h
            rwa [if_neg (by rw [hb]; exact Bool.false_ne_true)] at h
          rcases runCmd_eq_next h' with ⟨i, -, h⟩ | h
          · exact .inr (.inr (.inr (.inr (.inl ⟨hb, i, h⟩))))
          · exact .inr (.inr (.inr (.inr (.inr (.inl ⟨hb, h⟩)))))
        · rw [hostWriteReg_reg hr hc hb] at h
          cases h
          exact .inr (.inr (.inr (.inl ⟨hb, r, v, rfl⟩)))
  | readReg n =>
    replace h : hostReadReg n s = .next t := h
    unfold hostReadReg at h
    split at h
    · cases h
    · split at h
      · cases h; exact .inr (.inl rfl)
      · cases h; exact .inr (.inr (.inl ⟨_, rfl⟩))
  | writeByte sp i b =>
    replace h : hostWriteByte sp i b s = .next t := h
    unfold hostWriteByte at h
    split at h
    · cases h
    · next ha =>
      split at h
      · cases h; exact .inl rfl
      · split at h
        · next hw =>
          cases h
          exact .inr (.inr (.inr (.inr (.inr (.inr (.inl ⟨sp, i, b, hw, by omega, rfl⟩))))))
        · cases h
  | readByte sp i =>
    replace h : hostReadByte sp i s = .next t := h
    unfold hostReadByte at h
    split at h
    · cases h
    · split at h
      · cases h; exact .inr (.inl rfl)
      · split at h
        · cases h
        · split at h
          · cases h; exact .inr (.inr (.inl ⟨_, rfl⟩))
          · cases h
  | reset => cases h; exact .inr (.inr (.inr (.inr (.inr (.inr (.inr (.inl rfl)))))))
  | entropy ready => exact .inr (.inr (.inr (.inr (.inr (.inr (.inr (.inr ⟨ready, h⟩)))))))

end Sys2Proof.Machine
end

