-- ==== Sys2Proof/Laws/PerInstr.lean ====
section
/-! SUPPORT. The statement made per instruction: decoding the code of a command gives the command back, the code is one
the table has, and the command is well formed (30_encoding.md R120 to R122). -/

namespace Sys2Proof.Laws.RoundTrip

/-- The round trip of one command's code. -/
def Statement (i : Instr) : Prop :=
  decode (encode i) = .ok i ∧ decodeTableWord 8 (encode i).toNat = some i ∧ wellFormedCode (encode i) = true ∧
    i.wellFormed = true

theorem packFlags : Statement .packFlags := by unfold Statement; decide
theorem unpackFlags : Statement .unpackFlags := by unfold Statement; decide
theorem buildHeader : Statement .buildHeader := by unfold Statement; decide
theorem encodeName : Statement .encodeName := by unfold Statement; decide
theorem buildQuestion : Statement .buildQuestion := by unfold Statement; decide
theorem buildQuery : Statement .buildQuery := by unfold Statement; decide
theorem parseHeader : Statement .parseHeader := by unfold Statement; decide
theorem skipQuestion : Statement .skipQuestion := by unfold Statement; decide
theorem resolveOwner : Statement .resolveOwner := by unfold Statement; decide
theorem parseAnswer : Statement .parseAnswer := by unfold Statement; decide
theorem decode : Statement .decode := by unfold Statement; decide

end Sys2Proof.Laws.RoundTrip
end

