-- ==== Sys2Proof/Tests/Slice0.lean ====
section
/-! SUPPORT. Tests on small states: expected values come from 95_test_vectors.md (the vector is named in each comment) or
from the encoding table of 30_encoding.md R120, never from the model. Every obligation with hypotheses has a witness. -/

namespace Sys2Proof.Tests

open Sys2Proof Sys2Proof.Machine Sys2Proof.Safety

/-! ### Small states -/

/-- After reset, with a name loaded. -/
def nameState (bs : List Byte) : State :=
  { State.reset with name := Memory.ofBytes 0 bs, namelen := BitVec.ofNat 9 bs.length }

/-- After reset, with a message loaded and ANSOFF set. -/
def rxState (bs : List Byte) (off : Word16) : State :=
  { State.reset with rx := Memory.ofBytes 0 bs, rxlen := BitVec.ofNat 16 bs.length, ansoff := off }

/-- After reset, with a message and a question loaded. -/
def respState (rx q : List Byte) : State :=
  { rxState rx 0 with q := Memory.ofBytes 0 q, qlen := BitVec.ofNat 9 q.length }

/-- After reset, with these host actions waiting. -/
def hostState (acts : List HostAction) : State := { State.reset with host := acts }

/-- A test on the next state, false where there is none. -/
def next? (o : Host.Outcome State Fault Refusal) (p : State → Bool) : Bool :=
  match o with
  | .next t => p t
  | .fault _ => false
  | .refused _ => false

/-- The error triple (ERRCODE, ERRSUB, CUR) of a state with ERR set. -/
def errIs (t : State) (code : BitVec 3) (sub : BitVec 4) (cur : Word16) : Bool :=
  t.status == 0b110#3 && t.errcode == code && t.errsub == sub && t.cur == cur

/-- "example.com" (S2). -/
def exampleCom : List Byte := [0x65, 0x78, 0x61, 0x6D, 0x70, 0x6C, 0x65, 0x2E, 0x63, 0x6F, 0x6D]

/-- The question of V1. -/
def question : List Byte :=
  [0x07, 0x65, 0x78, 0x61, 0x6D, 0x70, 0x6C, 0x65, 0x03, 0x63, 0x6F, 0x6D, 0x00, 0x00, 0x01, 0x00, 0x01]

/-- The header of V1's response. -/
def respHeader : List Byte := [0x12, 0x34, 0x81, 0x00, 0x00, 0x01, 0x00, 0x01, 0x00, 0x00, 0x00, 0x00]

/-- The answer of S4 and V60. -/
def answer : List Byte :=
  [0xC0, 0x0C, 0x00, 0x01, 0x00, 0x01, 0x00, 0x00, 0x01, 0x2C, 0x00, 0x04, 0x5D, 0xB8, 0xD8, 0x22]

/-- The question of the one-letter name "a" (V57). -/
def shortQuestion : List Byte := [0x01, 0x61, 0x00, 0x00, 0x01, 0x00, 0x01]

/-- A label of `k` bytes 0x61. -/
def label (k : Nat) : List Byte := List.replicate k 0x61

/-! ### What is well formed, and what is not -/

theorem test_codes_refused :
    ([0x00, 0x03, 0x0F, 0x14, 0x1F, 0x25, 0x7F, 0xFF].map fun c : Byte => wellFormedCode c) = List.replicate 8 false := by
  decide

theorem test_register_number_refused :
    HostAction.wellFormed 512 (.writeReg 35 0) = false ∧ HostAction.wellFormed 512 (.readReg 35) = false ∧
      HostAction.wellFormed 512 (.writeReg 34 0) = true := by decide

theorem test_byte_index_refused :
    HostAction.wellFormed 512 (.writeByte .name 512 0) = false ∧ HostAction.wellFormed 512 (.writeByte .rx 512 0) = false ∧
      HostAction.wellFormed 512 (.writeByte .q 512 0) = false ∧ HostAction.wellFormed 512 (.readByte .tx 271) = false ∧
      HostAction.wellFormed 512 (.readByte .owner 253) = false ∧
      HostAction.wellFormed 512 (.readByte .addrstr 15) = false := by decide

theorem test_block_space_write_refused :
    HostAction.wellFormed 512 (.writeByte .tx 0 0) = false ∧ HostAction.wellFormed 512 (.writeByte .owner 0 0) = false ∧
      HostAction.wellFormed 512 (.writeByte .addrstr 0 0) = false := by decide

/-! ### Words written out from the table of R120, bit 7 first -/

theorem test_decode_packFlags : decode 0b00000001#8 = .ok .packFlags := by decide
theorem test_decode_unpackFlags : decode 0b00000010#8 = .ok .unpackFlags := by decide
theorem test_decode_buildHeader : decode 0b00010000#8 = .ok .buildHeader := by decide
theorem test_decode_encodeName : decode 0b00010001#8 = .ok .encodeName := by decide
theorem test_decode_buildQuestion : decode 0b00010010#8 = .ok .buildQuestion := by decide
theorem test_decode_buildQuery : decode 0b00010011#8 = .ok .buildQuery := by decide
theorem test_decode_parseHeader : decode 0b00100000#8 = .ok .parseHeader := by decide
theorem test_decode_skipQuestion : decode 0b00100001#8 = .ok .skipQuestion := by decide
theorem test_decode_resolveOwner : decode 0b00100010#8 = .ok .resolveOwner := by decide
theorem test_decode_parseAnswer : decode 0b00100011#8 = .ok .parseAnswer := by decide
theorem test_decode_decode : decode 0b00100100#8 = .ok .decode := by decide
theorem test_decode_illegal : decode 0x7F = .error (.unknownCommand 0x7F) := by decide

/-- No two rows of the table select one code. -/
theorem test_rows_disjoint : ∀ c : Byte, (commandTable.filter fun r => r.selects c).length ≤ 1 := by decide

/-! ### Flags -/

/-- V24, V28. -/
theorem test_packFlags :
    next? (exec .packFlags { State.reset with fld := ⟨1, 5, 1, 1, 1, 1, 5⟩ }) (fun t => t.hdr.flags == 0xAF85) = true ∧
      next? (exec .packFlags { State.reset with fld := ⟨1, 15, 1, 1, 1, 1, 15⟩ }) (fun t => t.hdr.flags == 0xFF8F) = true := by
  decide

/-- V15, V17. -/
theorem test_unpackFlags :
    next? (exec .unpackFlags (State.reset.setFlags 0x8583)) (fun t => t.fld == ⟨1, 0, 1, 0, 1, 1, 3⟩) = true ∧
      next? (exec .unpackFlags (State.reset.setFlags 0x0070)) (fun t => t.fld == ⟨0, 0, 0, 0, 0, 0, 0⟩) = true := by
  decide

/-! ### The Encoder -/

/-- V20: draw 0x1234. -/
theorem test_buildHeader :
    next? (buildHeaderWith 0x1234 State.reset) (fun t =>
      t.tx == Memory.ofBytes 0 [0x12, 0x34, 0x01, 0x00, 0x00, 0x01, 0x00, 0x00, 0x00, 0x00, 0x00, 0x00] && t.txlen == 12 &&
      t.hdr == ⟨0x1234, 0x0100, 1, 0, 0, 0⟩ && t.fld == ⟨0, 0, 0, 0, 1, 0, 0⟩) = true := by decide

/-- V33: "a.b.c". -/
theorem test_encodeName :
    next? (exec .encodeName (nameState [0x61, 0x2E, 0x62, 0x2E, 0x63])) (fun t =>
      t.tx == Memory.ofBytes 0 [0x01, 0x61, 0x01, 0x62, 0x01, 0x63, 0x00] && t.txlen == 7 && t.cur == 5) = true := by decide

/-- V46, V45: "a..b" and "a.". -/
theorem test_encodeName_empty_label :
    next? (exec .encodeName (nameState [0x61, 0x2E, 0x2E, 0x62])) (fun t => errIs t 1 3 2 && t.txlen == 0) = true ∧
      next? (exec .encodeName (nameState [0x61, 0x2E])) (fun t => errIs t 1 3 2) = true := by decide

/-- "a" after V49b. -/
theorem test_buildQuestion :
    next? (exec .buildQuestion (nameState [0x61])) (fun t =>
      t.tx == Memory.ofBytes 0 [0x01, 0x61, 0x00, 0x00, 0x01, 0x00, 0x01] && t.txlen == 7) = true := by decide

/-- V38: "a." and 64 bytes "b". -/
theorem test_buildQuestion_long_label :
    next? (exec .buildQuestion (nameState (0x61 :: 0x2E :: List.replicate 64 0x62))) (fun t => errIs t 1 1 2) = true := by
  decide

/-- "a", draw 0xBEEF, after V49b. -/
theorem test_buildQuery :
    next? (buildQueryWith 0xBEEF (nameState [0x61])) (fun t =>
      t.tx == Memory.ofBytes 0 [0xBE, 0xEF, 0x01, 0x00, 0x00, 0x01, 0x00, 0x00, 0x00, 0x00, 0x00, 0x00,
        0x01, 0x61, 0x00, 0x00, 0x01, 0x00, 0x01] && t.txlen == 19 && t.hdr.id == 0xBEEF) = true := by decide

/-- "a..b", after V49b: the header registers do not show the query constants, the draw is consumed. -/
theorem test_buildQuery_error :
    next? (exec .buildQuery (nameState [0x61, 0x2E, 0x2E, 0x62])) (fun t =>
      errIs t 1 3 2 && t.txlen == 0 && t.hdr == ⟨0, 0, 0, 0, 0, 0⟩ && t.fld.rd == 0 && t.draws == 1) = true := by decide

/-- R253: with no answer from the entropy source BUILD_HEADER stays busy and writes nothing; the answer ends it. -/
theorem test_buildHeader_held :
    next? (exec .buildHeader { State.reset with entropyReady := false }) (fun t =>
      t.status == 0b001#3 && t.txlen == 0 && t.hdr == Header.zero && t.draws == 0) = true ∧
    next? (step { State.reset with entropyReady := false, status := 1, cmd := 0x10, host := [.entropy true] }) (fun t =>
      t.status == 0b010#3 && t.txlen == 12 && t.cmd == 0 && t.draws == 1) = true := by decide

/-- R60, R65: a byte of OWNER below OWNERLEN is delivered, the one at OWNERLEN is not. -/
theorem test_read_block_written_byte :
    next? (step { hostState [.readByte .owner 0] with own := ⟨2, 1, 3, [(0, 0x2E)]⟩ }) (fun t =>
      t.readData == some 0x2E && t.own == ⟨2, 1, 3, [(0, 0x2E)]⟩) = true ∧
    step { hostState [.readByte .owner 1] with own := ⟨2, 1, 3, [(0, 0x2E)]⟩ } = .fault (.unwrittenByte .owner 1) :=
  ⟨by decide, rfl⟩

/-- R281, R271: while it is held a register write is ignored and STATUS reads 1; the reset abandons it. -/
theorem test_held_command_at_the_port :
    next? (step { State.reset with status := 1, cmd := 0x10, host := [.writeReg 6 5] }) (fun t =>
      t.namelen == 0 && t.status == 1) = true ∧
    next? (step { State.reset with status := 1, cmd := 0x10, host := [.readReg 1] }) (fun t => t.readData == some 1) = true ∧
    next? (step { State.reset with status := 1, cmd := 0x10, host := [.reset] }) (fun t =>
      t.status == 0 && t.cmd == 0 && t.txlen == 0) = true := by decide

/-! ### The Decoder -/

/-- V55. -/
theorem test_parseHeader :
    next? (exec .parseHeader (rxState [0xAB, 0xCD, 0x85, 0xF3, 0x00, 0x02, 0x00, 0x03, 0x00, 0x04, 0x00, 0x05] 0)) (fun t =>
      t.hdr == ⟨0xABCD, 0x85F3, 2, 3, 4, 5⟩ && t.fld == ⟨1, 0, 1, 0, 1, 1, 3⟩ && t.cur == 12 && t.dstate == 1) = true := by
  decide

/-- V51: eleven bytes. -/
theorem test_parseHeader_short :
    next? (exec .parseHeader (rxState (respHeader.take 11) 0)) (fun t => errIs t 2 1 0 && t.dstate == 0) = true := by decide

/-- V57: QLEN 17. -/
theorem test_skipQuestion :
    next? (exec .skipQuestion { State.reset with qlen := 17 }) (fun t =>
      t.ansoff == 29 && t.cur == 29 && t.dstate == 2) = true := by decide

/-- V65, last line: one label that holds the separator byte. -/
theorem test_resolveOwner :
    next? (exec .resolveOwner (rxState [0x01, 0x2E, 0x00] 0)) (fun t =>
      t.own == ⟨2, 1, 3, [(0, 0x2E)]⟩ && t.cur == 3 && t.dstate == 3) = true := by decide

/-- V63, last line: the pair after a label is not recognised. -/
theorem test_resolveOwner_pointer_after_label :
    next? (exec .resolveOwner (rxState [0x03, 0x77, 0x77, 0x77, 0xC0, 0x0C, 0x00, 0x01] 0)) (fun t =>
      errIs t 4 1 4 && t.dstate == 2) = true := by decide

/-- V60. -/
theorem test_parseAnswer :
    next? (exec .parseAnswer (rxState answer 0)) (fun t =>
      t.own == ⟨1, 0, 2, []⟩ && t.ans.ttl == 300 && t.ans.rdoff == 12 && t.ans.addr == 0x5DB8D822 && t.ans.addrvalid == 1 &&
      t.ans.addrstr == Memory.ofBytes 0 [0x39, 0x33, 0x2E, 0x31, 0x38, 0x34, 0x2E, 0x32, 0x31, 0x36, 0x2E, 0x33, 0x34] &&
      t.ans.addrstrlen == 13 && t.cur == 16 && t.dstate == 5) = true := by decide

/-- V61, k = 15: no partial record. -/
theorem test_parseAnswer_cut :
    next? (exec .parseAnswer (rxState (answer.take 15) 0)) (fun t =>
      errIs t 3 4 12 && t.dstate == 4 && t.ans == Answer.zero && t.own == Owner.zero) = true := by decide

/-- V1 with V86. -/
theorem test_decode_response :
    next? (exec .decode (respState (respHeader ++ question ++ answer) question)) (fun t =>
      t.hdr == ⟨0x1234, 0x8100, 1, 1, 0, 0⟩ && t.ansoff == 29 && t.ans.addr == 0x5DB8D822 && t.ans.rdoff == 41 &&
      t.cur == 45 && t.dstate == 5 && t.status == 0b010#3) = true := by decide

/-- V85, k = 44: the header had parsed and reads 0 all the same. -/
theorem test_decode_cut :
    next? (exec .decode (respState ((respHeader ++ question ++ answer).take 44) question)) (fun t =>
      errIs t 3 4 41 && t.dstate == 4 && t.hdr == Header.zero && t.ansoff == 0) = true := by decide

/-! ### The port -/

/-- R22 and the line under V30: WR OPCODE, 0x1F stores 15; WR QR, 2 stores 0; WR RCODE, 0x13 stores 3. -/
theorem test_register_truncation :
    next? (step (hostState [.writeReg 18 0x1F])) (fun t => t.fld.opcode == 15) = true ∧
      next? (step (hostState [.writeReg 17 2])) (fun t => t.fld.qr == 0) = true ∧
      next? (step (hostState [.writeReg 23 0x13])) (fun t => t.fld.rcode == 3) = true := by decide

/-- P4: WR CMD, 0x7F. -/
theorem test_unknown_command :
    next? (step (hostState [.writeReg 0 0x7F])) (fun t => errIs t 5 1 0 && t.cmd == 0) = true := by decide

/-- The placed command runs: 0x21 with QLEN 0 (V57). -/
theorem test_placed_command_runs :
    next? (step (State.reset.withFetchWord 8 0x21)) (fun t => t.ansoff == 12 && t.host == []) = true := by decide

/-- R126: LD NAME, "a". -/
theorem test_load_notation :
    load .name [0x61] = [.writeByte .name 0 0x61, .writeReg 6 1] ∧ command .decode = .writeReg 0 0x24 := by decide

/-! ### Witnesses: a concrete state and operands that meet all hypotheses of an obligation together -/

/-- A loaded name is the name of its labels. -/
theorem nameState_nameIs {ls : List (List Byte)} (h : ls ≠ []) (hs : noSep ls) (hl : (text ls).length < 512) :
    nameIs (nameState (text ls)) ls :=
  ⟨h, hs, by show (BitVec.ofNat 9 (text ls).length).toNat = _; rw [BitVec.toNat_ofNat]; exact Nat.mod_eq_of_lt hl,
    holdsAt_ofBytes _⟩

/-- The labels of V39, the longest legal name. -/
def longest : List (List Byte) := [label 63, label 63, label 63, List.replicate 61 0x62]

/-- BuildHeaderResult, BuildQuerySucceeds: the entropy source answers after reset. -/
theorem witness_entropy_answers : State.reset.entropyReady = true ∧ (nameState [0x61]).entropyReady = true := by decide

/-- EncodeNameSucceeds, BuildQuestionSucceeds, BuildQuerySucceeds: V32, the shortest legal name. -/
theorem witness_encode_shortest :
    nameIs (nameState [0x61]) [[0x61]] ∧ labelsOk [[0x61]] ∧ (text [[0x61]]).length ≤ 253 :=
  ⟨nameState_nameIs (ls := [[0x61]]) (by decide) (by unfold noSep; decide) (by decide), by unfold labelsOk; decide, by decide⟩

/-- The same at the boundary: V39, 253 bytes. -/
theorem witness_encode_longest :
    nameIs (nameState (text longest)) longest ∧ labelsOk longest ∧ (text longest).length = 253 :=
  ⟨nameState_nameIs (by decide) (by unfold noSep; decide +kernel) (by decide +kernel), by unfold labelsOk; decide,
    by decide +kernel⟩

/-- NameTooLongOnLengthAlone: V40's length, with no byte of NAME written. -/
theorem witness_NameTooLongOnLengthAlone :
    encodesName .encodeName = true ∧ waits { State.reset with namelen := 254 } .encodeName = false ∧
      waits { State.reset with namelen := 254 } .buildQuery = false ∧
      253 < ({ State.reset with namelen := 254 } : State).namelen.toNat := by decide

/-- EmptyLabelRejected: V45, "a.", and V42, the empty name. -/
theorem witness_EmptyLabelRejected :
    (encodesName .buildQuery = true ∧ waits (nameState (text ([[0x61]] ++ [] :: []))) .buildQuery = false ∧ nameIs (nameState (text ([[0x61]] ++ [] :: []))) ([[0x61]] ++ [] :: []) ∧
      labelsOk [[0x61]] ∧ (text ([[0x61]] ++ [] :: [])).length ≤ 253) ∧
    (encodesName .encodeName = true ∧ waits (nameState (text ([] ++ [] :: []))) .encodeName = false ∧
      nameIs (nameState (text ([] ++ [] :: []))) ([] ++ [] :: []) ∧ labelsOk [] ∧
      (text ([] ++ [] :: [])).length ≤ 253) :=
  ⟨⟨rfl, rfl, nameState_nameIs (by decide) (by unfold noSep; decide) (by decide), by unfold labelsOk; decide, by decide⟩,
    ⟨rfl, rfl, nameState_nameIs (by decide) (by unfold noSep; decide) (by decide), by unfold labelsOk; decide, by decide⟩⟩

/-- LongLabelRejected: V36, one label of 64 bytes. -/
theorem witness_LongLabelRejected :
    encodesName .encodeName = true ∧ waits (nameState (text ([] ++ label 64 :: []))) .encodeName = false ∧
      nameIs (nameState (text ([] ++ label 64 :: []))) ([] ++ label 64 :: []) ∧ labelsOk [] ∧ 63 < (label 64).length ∧ (text ([] ++ label 64 :: [])).length ≤ 253 :=
  ⟨rfl, rfl, nameState_nameIs (by decide) (by unfold noSep; decide) (by decide), by unfold labelsOk; decide, by decide,
    by decide⟩

/-- WireLengthLaw: V32. -/
theorem witness_WireLengthLaw : encodeName ([0x61] : List Byte).length (.ok [0x61]) = .ok [0x01, 0x61, 0x00] := by decide

/-- TxlenBounds, its two clauses: a success and an error. -/
theorem witness_TxlenBounds :
    (∃ t, (writeSet .encodeName).tx = true ∧ waits (nameState [0x61]) .encodeName = false ∧ exec .encodeName (nameState [0x61]) = .next t ∧ t.errcode = 0) ∧
    (∃ t, (writeSet .buildQuery).tx = true ∧ waits (nameState []) .buildQuery = false ∧
      exec .buildQuery (nameState []) = .next t ∧ t.errcode ≠ 0) :=
  ⟨⟨_, rfl, rfl, rfl, by decide⟩, ⟨_, rfl, rfl, rfl, by decide⟩⟩

/-- BuildQueryIsHeaderThenQuestion. -/
theorem witness_BuildQueryIsHeaderThenQuestion :
    ∃ h q, (nameState [0x61]).entropyReady = true ∧ exec .buildHeader (nameState [0x61]) = .next h ∧ exec .buildQuestion (nameState [0x61]) = .next q ∧
      q.errcode = 0 := ⟨_, _, rfl, rfl, rfl, by decide⟩

/-- QueriesDifferOnlyInId. -/
theorem witness_QueriesDifferOnlyInId :
    ∃ t t', buildQueryWith 0x1234 (nameState [0x61]) = .next t ∧ buildQueryWith 0xFFFF (nameState [0x61]) = .next t' ∧
      t.errcode = 0 := ⟨_, _, rfl, rfl, by decide⟩

/-- The header of V53. -/
def respFields : Header := ⟨0x1234, 0x8100, 1, 1, 0, 0⟩

/-- ParseHeaderResult: V53, exactly 12 bytes. -/
theorem witness_ParseHeaderResult :
    (rxState respHeader 0).rxlen.toNat ≤ (rxState respHeader 0).rxCap.toNat ∧ 12 ≤ (rxState respHeader 0).rxlen.toNat ∧
      holdsAt (rxState respHeader 0).rx 0 (headerWire respFields) := by
  refine ⟨by decide, by decide, ?_⟩
  rw [show headerWire respFields = respHeader by decide]
  exact holdsAt_ofBytes _

/-- ShortHeaderRejected: eleven bytes, of which none has a value. -/
theorem witness_ShortHeaderRejected :
    ({ State.reset with rxlen := 11 } : State).rxlen.toNat ≤ ({ State.reset with rxlen := 11 } : State).rxCap.toNat ∧
      ({ State.reset with rxlen := 11 } : State).rxlen.toNat < 12 := by decide

/-- HeaderRoundTrip: V22. -/
theorem witness_HeaderRoundTrip :
    ∃ t, buildHeaderWith 0xFFFF State.reset = .next t ∧ 12 ≤ State.reset.rxCap.toNat := ⟨_, rfl, by decide⟩

/-- SkipQuestionResult: an empty question at the boundary, and the question of "a" echoed. -/
theorem witness_SkipQuestionResult :
    echoVerbatim (respState respHeader []) = true ∧
      echoVerbatim (respState (respHeader ++ shortQuestion) shortQuestion) = true := by decide

/-- ResolveOwnerSucceeds: the pointer, the root name, and V66 (a), a name of 255 bytes in wire form. -/
theorem witness_ResolveOwnerSucceeds (o : OwnerForm) (h : o = none ∨ o = some [] ∨ o = some longest) :
    (rxState (ownerWire o) 0).rxlen.toNat ≤ (rxState (ownerWire o) 0).rxCap.toNat ∧ ownerFormOk o ∧
      (rxState (ownerWire o) 0).ansoff.toNat + (ownerWire o).length ≤ (rxState (ownerWire o) 0).rxlen.toNat ∧
      holdsAt (rxState (ownerWire o) 0).rx (rxState (ownerWire o) 0).ansoff.toNat (ownerWire o) := by
  rcases h with rfl | rfl | rfl
  · exact ⟨by decide, trivial, by decide, holdsAt_ofBytes _⟩
  · exact ⟨by decide, ⟨by unfold labelsOk; decide, by decide⟩, by decide, holdsAt_ofBytes _⟩
  · exact ⟨by decide +kernel, ⟨by unfold labelsOk; decide, by decide +kernel⟩, by decide +kernel, holdsAt_ofBytes _⟩

/-- NoOwnerBytes: V61, k = 0. -/
theorem witness_NoOwnerBytes :
    State.reset.rxlen.toNat ≤ State.reset.rxCap.toNat ∧ State.reset.rxlen.toNat ≤ State.reset.ansoff.toNat := by decide

/-- The walk stands after these labels of the message that begins with them. -/
theorem rxState_walked (ls : List (List Byte)) (bs : List Byte) (h1 : labelsOk ls)
    (h2 : (wirePrefix ls).length + 1 ≤ 255) (h3 : (wirePrefix ls ++ bs).length ≤ 512) :
    walked (rxState (wirePrefix ls ++ bs) 0) ls := by
  have e : (BitVec.ofNat 16 (wirePrefix ls ++ bs).length).toNat = (wirePrefix ls ++ bs).length := by
    rw [BitVec.toNat_ofNat]; exact Nat.mod_eq_of_lt (by omega)
  refine ⟨?_, h1, h2, ?_, ?_⟩
  · show (BitVec.ofNat 16 (wirePrefix ls ++ bs).length).toNat ≤ 512
    rw [e]; exact h3
  · show 0 + _ ≤ (BitVec.ofNat 16 (wirePrefix ls ++ bs).length).toNat
    rw [e, List.length_append]; omega
  · exact (holdsAt_append.mp (holdsAt_ofBytes (wirePrefix ls ++ bs))).1

/-- The hypotheses of OtherPointerRejected. -/
def otherPointerHyps (s : State) (ls : List (List Byte)) (b : Byte) : Prop :=
  walked s ls ∧ s.ansoff.toNat + (wirePrefix ls).length < s.rxlen.toNat ∧
    s.rx.read (s.ansoff.toNat + (wirePrefix ls).length) = some b ∧ 0xC0 ≤ b.toNat ∧
    (ls = [] → b = 0xC0 → s.ansoff.toNat + 1 < s.rxlen.toNat →
      ∃ b' : Byte, s.rx.read (s.ansoff.toNat + 1) = some b' ∧ b' ≠ 0x0C)

/-- OtherPointerRejected: V63, FF 00 at the start; C0 0D, whose first byte is the pair's; C0 alone; and the pair after
the label "www". -/
theorem witness_OtherPointerRejected :
    otherPointerHyps (rxState (wirePrefix [] ++ [0xFF, 0x00]) 0) [] 0xFF ∧
      otherPointerHyps (rxState (wirePrefix [] ++ [0xC0, 0x0D]) 0) [] 0xC0 ∧
      otherPointerHyps (rxState (wirePrefix [] ++ [0xC0]) 0) [] 0xC0 ∧
      otherPointerHyps (rxState (wirePrefix [[0x77, 0x77, 0x77]] ++ [0xC0, 0x0C]) 0) [[0x77, 0x77, 0x77]] 0xC0 := by
  refine ⟨⟨rxState_walked _ _ (by unfold labelsOk; decide) (by decide) (by decide), by decide, by decide, by decide, ?_⟩,
    ⟨rxState_walked _ _ (by unfold labelsOk; decide) (by decide) (by decide), by decide, by decide, by decide, ?_⟩,
    ⟨rxState_walked _ _ (by unfold labelsOk; decide) (by decide) (by decide), by decide, by decide, by decide, ?_⟩,
    ⟨rxState_walked _ _ (by unfold labelsOk; decide) (by decide) (by decide), by decide, by decide, by decide, ?_⟩⟩
  · exact fun _ h => absurd h (by decide)
  · exact fun _ _ _ => ⟨0x0D, by decide, by decide⟩
  · exact fun _ _ h => absurd h (by decide)
  · exact fun h => absurd h (by decide)

/-- ReservedLabelTypeRejected: 40, the lowest, and BF, the highest. -/
theorem witness_ReservedLabelTypeRejected (b : Byte) (h : b = 0x40 ∨ b = 0xBF) :
    walked (rxState (wirePrefix [] ++ [b]) 0) [] ∧
      (rxState [b] 0).ansoff.toNat + (wirePrefix []).length < (rxState [b] 0).rxlen.toNat ∧
      (rxState [b] 0).rx.read ((rxState [b] 0).ansoff.toNat + (wirePrefix []).length) = some b ∧ 0x40 ≤ b.toNat ∧
      b.toNat ≤ 0xBF := by
  rcases h with rfl | rfl
  · exact ⟨rxState_walked _ _ (by unfold labelsOk; decide) (by decide) (by decide), by decide, by decide, by decide, by decide⟩
  · exact ⟨rxState_walked _ _ (by unfold labelsOk; decide) (by decide) (by decide), by decide, by decide, by decide, by decide⟩

/-- NameRunsOutRejected, its two clauses: V64, 01 61 and 3F 61. -/
theorem witness_NameRunsOutRejected :
    (walked (rxState (wirePrefix [[0x61]] ++ []) 0) [[0x61]] ∧
      (rxState [0x01, 0x61] 0).ansoff.toNat + (wirePrefix [[0x61]]).length = (rxState [0x01, 0x61] 0).rxlen.toNat) ∧
    (walked (rxState (wirePrefix [] ++ [0x3F, 0x61]) 0) [] ∧
      (rxState [0x3F, 0x61] 0).ansoff.toNat + (wirePrefix []).length < (rxState [0x3F, 0x61] 0).rxlen.toNat ∧
      (rxState [0x3F, 0x61] 0).rx.read 0 = some 0x3F ∧ 1 ≤ (0x3F#8).toNat ∧ (0x3F#8).toNat ≤ 63 ∧
      (rxState [0x3F, 0x61] 0).rxlen.toNat < 0 + 1 + (0x3F#8).toNat) :=
  ⟨⟨rxState_walked _ _ (by unfold labelsOk; decide) (by decide) (by decide), by decide⟩,
    ⟨rxState_walked _ _ (by unfold labelsOk; decide) (by decide) (by decide), by decide, by decide, by decide, by decide,
      by decide⟩⟩

/-- LiteralTooLongRejected: V66 (b), the length byte 3E at index 192; its 62 bytes are there. -/
theorem witness_LiteralTooLongRejected :
    walked (rxState (wirePrefix [label 63, label 63, label 63] ++ 0x3E :: label 62) 0) [label 63, label 63, label 63] ∧
      (rxState (wirePrefix [label 63, label 63, label 63] ++ 0x3E :: label 62) 0).rx.read 192 = some 0x3E ∧
      (wirePrefix [label 63, label 63, label 63]).length = 192 ∧
      192 + 1 + (0x3E#8).toNat ≤ (rxState (wirePrefix [label 63, label 63, label 63] ++ 0x3E :: label 62) 0).rxlen.toNat ∧
      255 < 192 + 1 + (0x3E#8).toNat + 1 := by
  refine ⟨rxState_walked _ _ (by unfold labelsOk; decide) (by decide +kernel) (by decide +kernel), ?_,
    by decide +kernel, by decide +kernel, by decide⟩
  show (Memory.ofBytes 0 _).read 192 = _
  rw [Memory.read_ofBytes_zero]; decide +kernel

/-- NameRoundTrip. -/
theorem witness_NameRoundTrip :
    encodeName ([0x61] : List Byte).length (.ok [0x61]) = .ok [0x01, 0x61, 0x00] ∧
      holdsAt (Memory.ofBytes 0 [0x01, 0x61, 0x00]) 0 [0x01, 0x61, 0x00] ∧ 0 + ([0x01, 0x61, 0x00] : List Byte).length ≤ 3 :=
  ⟨by decide, holdsAt_ofBytes _, by decide⟩

/-- EncodeThenResolveRecoversName. -/
theorem witness_EncodeThenResolveRecoversName :
    ∃ t, exec .encodeName (nameState [0x61]) = .next t ∧ t.errcode = 0 ∧ 255 ≤ (nameState [0x61]).rxCap.toNat :=
  ⟨_, rfl, by decide, by decide⟩

/-- ParseAnswerAddress: V60. -/
theorem witness_ParseAnswerAddress :
    (rxState answer 0).rxlen.toNat ≤ (rxState answer 0).rxCap.toNat ∧ ownerFormOk none ∧
      (rxState answer 0).ansoff.toNat + (ownerWire none).length + 14 ≤ (rxState answer 0).rxlen.toNat ∧
      holdsAt (rxState answer 0).rx (rxState answer 0).ansoff.toNat
        (ownerWire none ++ fixedBytes 1 1 300 4 ++ [0x5D, 0xB8, 0xD8, 0x22]) :=
  ⟨by decide, trivial, by decide, holdsAt_ofBytes answer⟩

/-- ParseAnswerOpaque: V67, a type A record with no RDATA, and one of type 28 with four bytes that nothing has written. -/
theorem witness_ParseAnswerOpaque :
    ((rxState (ownerWire none ++ fixedBytes 1 1 0 0) 0).rxlen.toNat ≤ 512 ∧ ownerFormOk none ∧
      ¬ ((1 : Word16) = 1 ∧ (0 : Word16) = 4) ∧
      0 + (ownerWire none).length + 10 + (0 : Word16).toNat ≤ (rxState (ownerWire none ++ fixedBytes 1 1 0 0) 0).rxlen.toNat ∧
      holdsAt (rxState (ownerWire none ++ fixedBytes 1 1 0 0) 0).rx 0 (ownerWire none ++ fixedBytes 1 1 0 0)) ∧
    (({ rxState (ownerWire none ++ fixedBytes 28 1 1 4) 0 with rxlen := 16 } : State).rxlen.toNat ≤ 512 ∧
      ¬ ((28 : Word16) = 1 ∧ (4 : Word16) = 4) ∧
      0 + (ownerWire none).length + 10 + (4 : Word16).toNat ≤ (16 : Word16).toNat ∧
      holdsAt (rxState (ownerWire none ++ fixedBytes 28 1 1 4) 0).rx 0 (ownerWire none ++ fixedBytes 28 1 1 4)) :=
  ⟨⟨by decide, trivial, by decide, by decide, holdsAt_ofBytes _⟩, ⟨by decide, by decide, by decide, holdsAt_ofBytes _⟩⟩

/-- FixedFieldsTruncated: V61, k = 2 and k = 11. -/
theorem witness_FixedFieldsTruncated (k : Word16) (h : k = 2 ∨ k = 11) :
    ({ rxState (ownerWire none) 0 with rxlen := k } : State).rxlen.toNat ≤ 512 ∧ ownerFormOk none ∧
      holdsAt (rxState (ownerWire none) 0).rx 0 (ownerWire none) ∧ 0 + (ownerWire none).length ≤ k.toNat ∧
      k.toNat < 0 + (ownerWire none).length + 10 := by
  rcases h with rfl | rfl
  · exact ⟨by decide, trivial, holdsAt_ofBytes _, by decide, by decide⟩
  · exact ⟨by decide, trivial, holdsAt_ofBytes _, by decide, by decide⟩

/-- RDataTruncated: V61, k = 12 and k = 15. -/
theorem witness_RDataTruncated (k : Word16) (h : k = 12 ∨ k = 15) :
    ({ rxState (ownerWire none ++ fixedBytes 1 1 300 4) 0 with rxlen := k } : State).rxlen.toNat ≤ 512 ∧ ownerFormOk none ∧
      holdsAt (rxState (ownerWire none ++ fixedBytes 1 1 300 4) 0).rx 0 (ownerWire none ++ fixedBytes 1 1 300 4) ∧
      0 + (ownerWire none).length + 10 ≤ k.toNat ∧ k.toNat < 0 + (ownerWire none).length + 10 + (4 : Word16).toNat := by
  rcases h with rfl | rfl
  · exact ⟨by decide, trivial, holdsAt_ofBytes _, by decide, by decide⟩
  · exact ⟨by decide, trivial, holdsAt_ofBytes _, by decide, by decide⟩

/-- ParseAnswerOwnerErrors: V63, 80. -/
theorem witness_ParseAnswerOwnerErrors :
    ∃ t, exec .resolveOwner (rxState [0x80] 0) = .next t ∧ t.errcode ≠ 0 ∧ t.errcode ≠ 5 := ⟨_, rfl, by decide, by decide⟩

/-- A response to a question of no bytes, in the form of V1: small enough to run by evaluation. -/
def resp : State := respState (respHeader ++ answer) []

/-- RDataWindowInsideMessage: V60 for PARSE_ANSWER, and a DECODE. -/
theorem witness_RDataWindowInsideMessage :
    (∃ t, (writeSet .parseAnswer).ans = true ∧ promised (rxState answer 0) .parseAnswer = true ∧
      exec .parseAnswer (rxState answer 0) = .next t ∧ t.errcode = 0) ∧
    (∃ t, (writeSet .decode).ans = true ∧ promised resp .decode = true ∧ exec .decode resp = .next t ∧ t.errcode = 0) :=
  ⟨⟨_, rfl, rfl, rfl, by decide⟩, ⟨_, rfl, by decide, rfl, by decide⟩⟩

/-- DecodeAddressResponse: V1. -/
theorem witness_DecodeAddressResponse :
    let s := respState (respHeader ++ (question ++ answer)) question
    s.rxlen.toNat ≤ s.rxCap.toNat ∧ echoVerbatim s = true ∧ ownerFormOk none ∧ holdsAt s.rx 0 (headerWire respFields) ∧
      12 + s.qlen.toNat + (ownerWire none).length + 14 ≤ s.rxlen.toNat ∧
      holdsAt s.rx (12 + s.qlen.toNat) (ownerWire none ++ fixedBytes 1 1 300 4 ++ [0x5D, 0xB8, 0xD8, 0x22]) := by
  obtain ⟨h1, h2⟩ := holdsAt_append.mp (holdsAt_ofBytes (respHeader ++ (question ++ answer)))
  refine ⟨by decide, by decide, trivial, ?_, by decide, (holdsAt_append.mp h2).2⟩
  rw [show headerWire respFields = respHeader by decide]
  exact h1

/-- DecodeIsItsThreeStages: a run that succeeds, and one whose record is cut. -/
theorem witness_DecodeIsItsThreeStages :
    (∃ a b c, echoVerbatim resp = true ∧ resp.rxlen.toNat ≤ resp.rxCap.toNat ∧ exec .parseHeader resp = .next a ∧
      exec .skipQuestion a = .next b ∧ exec .parseAnswer b = .next c ∧ c.errcode = 0) ∧
    (∃ a b c, echoVerbatim { resp with rxlen := 20 } = true ∧ exec .parseHeader { resp with rxlen := 20 } = .next a ∧
      exec .skipQuestion a = .next b ∧ exec .parseAnswer b = .next c ∧ c.errcode ≠ 0) :=
  ⟨⟨_, _, _, by decide, by decide, rfl, rfl, rfl, by decide⟩, ⟨_, _, _, by decide, rfl, rfl, rfl, by decide⟩⟩

/-- DottedQuadIsFaithful: V67's 0.0.0.0 and itself; the decimals of 0, 10 and 255, and a form with a leading zero that is none. -/
theorem witness_DottedQuadIsFaithful :
    dottedQuad 0 0 0 0 = dottedQuad 0 0 0 0 ∧ (dottedQuad 0 0 0 0).length = 7 ∧
      (dottedQuad 255 255 255 255).length = 15 ∧ isDecimal [0x30] 0 ∧ isDecimal [0x31, 0x30] 10 ∧
      isDecimal [0x32, 0x35, 0x35] 255 ∧ ¬ isDecimal [0x30, 0x37] 7 := by unfold isDecimal; decide

/-- ErrorPositionsFit: V68, 40000 in a message of 16 bytes. -/
theorem witness_ErrorPositionsFit : parseRecord (Memory.ofBytes 0 answer) 16 40000 = .raise .noOwnerBytes 40000 := by decide

/-- UnknownCommandWritesNothing: the code 0x7F of P4. -/
theorem witness_UnknownCommandWritesNothing :
    (hostState [.writeReg 0 0x7F]).host = .writeReg 0 0x7F :: [] ∧ (hostState [.writeReg 0 0x7F]).busy = false ∧
      wellFormedCode (BitVec.ofNat 8 0x7F) = false := by decide

/-- BadLengthWritesNothing: V69, RX_CAP = 512 and RXLEN = 513. -/
theorem witness_BadLengthWritesNothing :
    readsRx .decode = true ∧ ({ State.reset with rxlen := 513 } : State).rxCap.toNat <
      ({ State.reset with rxlen := 513 } : State).rxlen.toNat := by decide

/-- FrameOfEveryCommand, DrawsTaken: a success, an error and a wait; PACK_FLAGS writes no space. -/
theorem witness_FrameOfEveryCommand :
    (∃ t, exec .packFlags State.reset = .next t ∧ writesSpace (writeSet .packFlags) .tx = false ∧ t.busy = false) ∧
      (∃ t, exec .buildQuery State.reset = .next t) ∧
      (∃ t, exec .buildQuery { State.reset with entropyReady := false } = .next t) :=
  ⟨⟨_, rfl, rfl, by decide⟩, ⟨_, rfl⟩, ⟨_, rfl⟩⟩

/-- ErrorClearsWriteSet: SHORT_HEADER of PARSE_HEADER. -/
theorem witness_ErrorClearsWriteSet :
    ∃ t, promised State.reset .parseHeader = true ∧ exec .parseHeader State.reset = .next t ∧ t.errcode ≠ 0 ∧
      t.errcode ≠ 5 := ⟨_, rfl, rfl, by decide, by decide⟩

/-- CompletionIsSuccessOrListedError: an error of every code, RDATA of PARSE_ANSWER among them. -/
theorem witness_CompletionIsSuccessOrListedError :
    (∃ t, waits State.reset .packFlags = false ∧ exec .packFlags State.reset = .next t ∧ t.errcode = 0) ∧
    (∃ t, exec .encodeName State.reset = .next t ∧ t.errcode = 1) ∧
    (∃ t, exec .parseHeader State.reset = .next t ∧ t.errcode = 2) ∧
    (∃ t, exec .parseAnswer (rxState (answer.take 15) 0) = .next t ∧ t.errcode = 3 ∧ t.errsub = 4) ∧
    (∃ t, exec .resolveOwner (rxState [0x80] 0) = .next t ∧ t.errcode = 4) ∧
    (∃ t, exec .decode { State.reset with rxlen := 513 } = .next t ∧ t.errcode = 5) :=
  ⟨⟨_, rfl, rfl, rfl⟩, ⟨_, rfl, rfl⟩, ⟨_, rfl, rfl⟩, ⟨_, rfl, rfl, rfl⟩, ⟨_, rfl, rfl⟩, ⟨_, rfl, rfl⟩⟩

/-- CommandsComplete: inputs written, and the fault of a byte that nothing has written. -/
theorem witness_CommandsComplete :
    inputsWritten (nameState [0x61]) .encodeName = true ∧ waits (nameState [0x61]) .encodeName = false ∧
      waits State.reset .buildHeader = false ∧ inputsWritten (rxState answer 0) .parseAnswer = true ∧
      exec .encodeName { State.reset with namelen := 1 } = .fault (.unwrittenByte .name 0) :=
  ⟨by decide, by decide, by decide, by decide, rfl⟩

/-- ResultsDependOnReadsAlone: two states that differ in a register ENCODE_NAME does not read. -/
theorem witness_ResultsDependOnReadsAlone :
    ∃ t t', agreeOnReads (nameState [0x61]) { nameState [0x61] with qlen := 5 } .encodeName ∧
      promised (nameState [0x61]) .encodeName = true ∧ promised { nameState [0x61] with qlen := 5 } .encodeName = true ∧
      waits (nameState [0x61]) .encodeName = false ∧ waits { nameState [0x61] with qlen := 5 } .encodeName = false ∧
      exec .encodeName (nameState [0x61]) = .next t ∧ exec .encodeName { nameState [0x61] with qlen := 5 } = .next t' ∧
      t.errcode ≠ 5 := ⟨_, _, ⟨rfl, fun _ _ => rfl⟩, rfl, rfl, rfl, rfl, rfl, rfl, by decide⟩

/-- DstateReports: RESOLVE_OWNER of a reserved label type, DECODE of a response, and V69. -/
theorem witness_DstateReports :
    (∃ t, (writeSet .resolveOwner).dstate = true ∧ promised (rxState [0x80] 0) .resolveOwner = true ∧
      exec .resolveOwner (rxState [0x80] 0) = .next t ∧ t.errcode = 4) ∧
    (∃ t, (writeSet .decode).dstate = true ∧ promised resp .decode = true ∧ exec .decode resp = .next t ∧ t.errcode = 0) ∧
    (∃ t, promised { State.reset with rxlen := 513 } .decode = true ∧
      exec .decode { State.reset with rxlen := 513 } = .next t ∧ t.errcode = 5) :=
  ⟨⟨_, rfl, rfl, rfl, by decide⟩, ⟨_, rfl, by decide, rfl, by decide⟩, ⟨_, by decide, rfl, rfl⟩⟩

/-- DecodeEncodeAgree. -/
theorem witness_DecodeEncodeAgree : Sys2Proof.decode 0x24 = .ok .decode ∧ wellFormedCode 0x24 = true := by decide

/-- StepRunsTheCommand, its two clauses; 0x101 is 0x01 in the low eight bits. -/
theorem witness_StepRunsTheCommand :
    ((hostState [.writeReg 0 0x101]).host = .writeReg 0 0x101 :: [] ∧ (hostState [.writeReg 0 0x101]).busy = false ∧
      Sys2Proof.decode (BitVec.ofNat 8 0x101) = .ok .packFlags) ∧ decodeTableWord 8 0x01 = some .packFlags := by decide

/-- RegisterWriteKeepsLowBits: OPCODE beside QR. -/
theorem witness_RegisterWriteKeepsLowBits : Reg.opcode.access = .rw ∧ Reg.qr ≠ Reg.opcode := by decide

/-- StepWritesRegister: FLAGS, which is written, and STATUS, which is not. -/
theorem witness_StepWritesRegister :
    ((hostState [.writeReg 12 7]).busy = false ∧ Reg.ofNum 12 = some .flags ∧ Reg.flags ≠ .cmd) ∧
      ((hostState [.writeReg 1 7]).busy = false ∧ Reg.ofNum 1 = some .status ∧ Reg.status ≠ .cmd ∧
        Reg.status.access = .ro) := by decide

/-- StepReadsRegister: the first register, CMD, and the last. -/
theorem witness_StepReadsRegister :
    (hostState [.readReg 0]).busy = false ∧ Reg.ofNum 0 = some .cmd ∧ Reg.ofNum 34 = some .addrstrlen := by decide

/-- BusyAccesses, its five clauses, at the last register and the last bytes. -/
theorem witness_BusyAccesses :
    ({ hostState [.writeReg 34 0] with status := 1 } : State).busy = true ∧ 34 < 35 ∧
      511 < spaceCap State.reset.rxCap .name ∧ 270 < spaceCap State.reset.rxCap .tx ∧ (34 : Nat) ≠ 1 := by decide

/-- HostBytesReadBack, its second clause: the last byte of each space, and of a block-written one below its length. -/
theorem witness_HostBytesReadBack_read :
    (hostState [.readByte .tx 0]).busy = false ∧
      hostCanRead { State.reset with name := [(511, 7)] } .name 511 7 ∧
      hostCanRead { State.reset with rx := [(511, 7)] } .rx 511 7 ∧
      hostCanRead { State.reset with q := [(511, 7)] } .q 511 7 ∧
      hostCanRead { State.reset with tx := [(270, 7)], txlen := 271 } .tx 270 7 ∧
      hostCanRead { State.reset with own := ⟨2, 253, 255, [(252, 7)]⟩ } .owner 252 7 ∧
      hostCanRead { State.reset with ans := { Answer.zero with addrstrlen := 15, addrstr := [(14, 7)] } } .addrstr 14 7 := by
  unfold hostCanRead; decide

/-- HostBytesReadBack, its first clause: the last byte of RX. -/
theorem witness_HostBytesReadBack :
    (hostState [.writeByte .rx 511 7, .readByte .rx 511]).busy = false ∧ hostWrites .rx = true ∧
      511 < spaceCap State.reset.rxCap .rx := by decide

/-- UnspecifiedByteFaults, its two alternatives: TX at TXLEN = 0, and NAME where nothing has written. -/
theorem witness_UnspecifiedByteFaults :
    ((hostState [.readByte .tx 0]).busy = false ∧ 0 < spaceCap State.reset.rxCap .tx ∧
      readableLen (hostState [.readByte .tx 0]) .tx ≤ 0) ∧
    (0 < spaceCap State.reset.rxCap .name ∧ (spaceBytes (hostState [.readByte .name 0]) .name).read 0 = none) := by decide

/-- EntropyHold, its five clauses: BUILD_QUERY waits, is read while it waits, and is answered; an idle block hears of it. -/
theorem witness_EntropyHold :
    (waits { State.reset with entropyReady := false } .buildQuery = true ∧
      ∃ h, exec .buildQuery { State.reset with entropyReady := false } = .next h) ∧
    ({ hostState [.readReg 34] with status := 1, cmd := 0x13 } : State).busy = true ∧
      (HostAction.readReg 34 ≠ .reset ∧ HostAction.readReg 34 ≠ .entropy true) ∧
      (∃ t, step { hostState [.readReg 34] with status := 1, cmd := 0x13 } = .next t) ∧
    ({ hostState [.entropy true] with status := 1, cmd := 0x13 } : State).busy = true ∧
      Sys2Proof.decode 0x13 = .ok .buildQuery ∧
    (hostState [.entropy false]).busy = false :=
  ⟨⟨by decide, _, rfl⟩, by decide, by decide, ⟨_, rfl⟩, by decide, by decide, by decide⟩

/-- ResetEvent: with a command's code left behind it, of an idle block and of one that waits for its draw. -/
theorem witness_ResetEvent :
    (hostState [.reset, .writeReg 0 1]).host = .reset :: [.writeReg 0 1] ∧
      (hostState [.reset, .writeReg 0 1]).busy = false ∧
      ({ hostState [.reset] with status := 1, cmd := 0x10 } : State).busy = true := by decide

/-- PortEdges, its four clauses, at their boundaries. -/
theorem witness_PortEdges :
    (hostState [.readReg 35]).host = .readReg 35 :: [] ∧ 35 ≤ 35 ∧ spaceCap State.reset.rxCap .owner ≤ 253 ∧
      252 < spaceCap State.reset.rxCap .owner ∧ hostWrites .owner = false ∧ (hostState []).host = [] := by decide

/-- StepKeepsInvariant: the state after reset, which meets the invariant (InvariantAtReset), steps; so does a command that
waits for its draw. -/
theorem witness_StepKeepsInvariant :
    (Inv State.reset ∧ ∃ t, step State.reset = .next t) ∧
      runOk { State.reset with status := 1, cmd := 0x10, entropyReady := false } :=
  ⟨⟨⟨.inl ⟨rfl, .inl rfl⟩, by decide, by decide, rfl, by decide, by decide, ⟨[], rfl, rfl⟩, ⟨⟨[], rfl, rfl⟩, .inl rfl⟩,
    ⟨⟨[], rfl, rfl⟩, by decide, .inr ⟨rfl, rfl, rfl, by decide⟩⟩, ⟨rfl, rfl⟩, ⟨rfl, rfl⟩, ⟨rfl, rfl⟩⟩, _, rfl⟩, .inr ⟨rfl, rfl, .buildHeader, rfl, rfl⟩⟩

end Sys2Proof.Tests
end

/-! ### The invariant is kept: the form of what a command leaves -/

namespace Sys2Proof.Machine

open Sys2Proof.Safety

/-- The clauses of the invariant on RX_CAP, DSTATE, the two groups and the buffers. They say nothing of CMD, STATUS and
the error registers, and so hold in the middle of a command too. -/
structure FormOk (s : State) : Prop where
  rxCap : 1 ≤ s.rxCap.toNat
  dstate : s.dstate.toNat ≤ 5
  txlen : s.txlen.toNat ≤ Config.txCap
  tx : exactly s.tx s.txlen.toNat
  own : ownerOk s.own
  ans : answerOk s.ans
  name : s.name.wf = true ∧ s.name.below Config.nameCap = true
  rx : s.rx.wf = true ∧ s.rx.below s.rxCap.toNat = true
  q : s.q.wf = true ∧ s.q.below Config.qCap = true

/-- The other clauses: CMD, STATUS and the error registers as the host finds them between two steps. -/
structure Reported (s : State) : Prop where
  run : runOk s
  errIff : s.err = true ↔ s.errcode ≠ 0
  legal : legalError s.errcode s.errsub = true

theorem inv_iff {s : State} : Inv s ↔ Reported s ∧ FormOk s :=
  ⟨fun h => ⟨{ h with }, { h with }⟩, fun ⟨h, h'⟩ => { h, h' with }⟩

/-! ### The groups and the buffers -/

theorem toNat_ofNat_of_lt {w n : Nat} (h : n < 2 ^ w) : (BitVec.ofNat w n).toNat = n := by
  rw [BitVec.toNat_ofNat, Nat.mod_eq_of_lt h]

theorem exactly_nil : exactly [] 0 := ⟨[], rfl, rfl⟩

theorem exactly_ofBytes {bs : List Byte} {n : Nat} (h : bs.length = n) : exactly (Memory.ofBytes 0 bs) n :=
  ⟨bs, h, rfl⟩

theorem ownerOk_zero : ownerOk Owner.zero := ⟨exactly_nil, .inl rfl⟩

/-- The text of a legal literal name is two bytes shorter than its wire form, but for the root name, whose text is
empty. -/
theorem length_text_of_wireName (ls : List (List Byte)) : (text ls).length = (wireName ls).length - 2 := by
  rw [← join_eq_text, length_wireName]
  by_cases h : ls = []
  · subst h; rfl
  · rw [length_wirePrefix h]; omega

theorem ownerOk_ownerResult {o : OwnerForm} (ho : ownerFormOk o) : ownerOk (ownerResult o) := by
  cases o with
  | none => exact ⟨exactly_nil, .inr (.inl ⟨rfl, rfl, rfl⟩)⟩
  | some ls =>
    obtain ⟨-, hw⟩ := ho
    have hlen := length_wireName ls
    have htext := length_text_of_wireName ls
    have h8 : ∀ n ≤ 255, (BitVec.ofNat 8 n).toNat = n := fun n hn => toNat_ofNat_of_lt (by omega)
    simp only [ownerResult, ownerOk, h8 _ hw, h8 _ (show (text ls).length ≤ 255 by omega)]
    exact ⟨exactly_ofBytes rfl, .inr (.inr ⟨rfl, by omega, htext⟩)⟩

theorem ownerOk_of_resolveOwner {m : Memory} {n c : Nat} {o : OwnerName} (h : resolveOwner m n c = .ok o) :
    ownerOk o.group := by
  obtain ⟨form, hform, -, -, hgroup, -⟩ := resolveOwner_eq_ok h
  rw [hgroup]
  exact ownerOk_ownerResult hform

theorem answerOk_zero : answerOk Answer.zero := ⟨exactly_nil, by decide, .inr ⟨rfl, rfl, rfl, by decide⟩⟩

theorem length_dec_le (b : Byte) : (dec b).length ≤ 3 := by
  unfold dec
  split
  · simp
  · split <;> simp

theorem length_dottedQuad_le (a b c d : Byte) : (dottedQuad a b c d).length ≤ 15 := by
  have ha := length_dec_le a
  have hb := length_dec_le b
  have hc := length_dec_le c
  have hd := length_dec_le d
  simp only [dottedQuad, List.length_append, List.length_singleton]
  omega

/-- An RDATA window inside a message of at most 65535 bytes gives an answer group in the invariant's form. -/
theorem answerOk_of_takeRData {m : Memory} {n q : Nat} {f : FixedFields} {a : Answer} (hq : q ≤ n) (hn : n ≤ 65535)
    (h : takeRData m n f q = .ok a) : answerOk a := by
  obtain ⟨hstop, hcase⟩ := takeRData_eq_ok hq h
  have hwin : (BitVec.ofNat 16 q).toNat + f.rdlength.toNat ≤ 65535 := by
    rw [toNat_ofNat_of_lt (by omega)]; omega
  rcases hcase with ⟨hty, hlen, b0, b1, b2, b3, -, rfl⟩ | ⟨hno, rfl⟩
  · have hstr : (BitVec.ofNat 4 (dottedQuad b0 b1 b2 b3).length).toNat = (dottedQuad b0 b1 b2 b3).length :=
      toNat_ofNat_of_lt (by have := length_dottedQuad_le b0 b1 b2 b3; omega)
    exact ⟨exactly_ofBytes hstr.symm, hwin, .inl ⟨rfl, hty, hlen, b0, b1, b2, b3, rfl, rfl⟩⟩
  · exact ⟨exactly_nil, hwin, .inr ⟨rfl, rfl, rfl, hno⟩⟩

/-- A parsed record leaves both groups in the invariant's form. -/
theorem groupsOk_of_parseRecord {m : Memory} {n c : Nat} {r : ParsedRecord} (hn : n ≤ 65535)
    (h : parseRecord m n c = .ok r) : ownerOk r.owner.group ∧ answerOk r.answer := by
  obtain ⟨o, f, ho, -, ha, rfl, hq, -, -⟩ := parseRecord_eq_ok h
  exact ⟨ownerOk_of_resolveOwner ho, answerOk_of_takeRData hq hn ha⟩

theorem DState.num_le (d : DState) : d.num.toNat ≤ 5 := by cases d <;> decide

theorem length_headerBytes (h : Header) : (headerBytes h).length = 12 := rfl

theorem length_questionBytes (out : List Byte) : (questionBytes out).length = out.length + 4 := by
  simp [questionBytes]

/-! ### The updates that touch the form -/

namespace FormOk

variable {s : State}

theorem start (h : FormOk s) : FormOk s.start := { h with }

theorem setTx (h : FormOk s) {bs : List Byte} (hbs : bs.length ≤ 271) : FormOk (s.setTx bs) := by
  have hlen : (BitVec.ofNat 9 bs.length).toNat = bs.length := toNat_ofNat_of_lt (by omega)
  exact { h with txlen := by rw [State.setTx_txlen, hlen]; exact hbs, tx := exactly_ofBytes hlen.symm }

theorem setOwn (h : FormOk s) {o : Owner} (ho : ownerOk o) : FormOk (s.setOwn o) := { h with own := ho }

theorem setAns (h : FormOk s) {a : Answer} (ha : answerOk a) : FormOk (s.setAns a) := { h with ans := ha }

theorem setCur (h : FormOk s) (p : Nat) : FormOk (s.setCur p) := { h with }

theorem setDstate (h : FormOk s) (d : DState) : FormOk (s.setDstate d) := { h with dstate := d.num_le }

theorem setRecord (h : FormOk s) {m : Memory} {n c : Nat} {r : ParsedRecord} (hn : n ≤ 65535)
    (hr : parseRecord m n c = .ok r) : FormOk (s.setRecord r) :=
  have ⟨ho, ha⟩ := groupsOk_of_parseRecord hn hr
  (((h.setOwn ho).setAns ha).setCur r.stop).setDstate .done

/-- An error clears whole groups, and DSTATE shows a stage (R236). -/
theorem fail (h : FormOk s) (w : WriteSet) (c : Cause) (p : Nat) : FormOk (s.fail w c p) where
  rxCap := h.rxCap
  dstate := by
    rw [State.fail_dstate]
    split
    · split
      · exact DState.num_le _
      · exact h.dstate
    · exact h.dstate
  txlen := by rw [State.fail_txlen]; split <;> [exact Nat.zero_le _; exact h.txlen]
  tx := by rw [State.fail_tx, State.fail_txlen]; split <;> [exact exactly_nil; exact h.tx]
  own := by rw [State.fail_own]; split <;> [exact ownerOk_zero; exact h.own]
  ans := by rw [State.fail_ans]; split <;> [exact answerOk_zero; exact h.ans]
  name := h.name
  rx := h.rx
  q := h.q

/-- A command that ends in its results or in an error keeps the form where its results do. -/
theorem conclude {α : Type} {w : WriteSet} {t : State} {r : Res α} {f : α → State} (hs : FormOk s)
    (hf : ∀ a, r = .ok a → FormOk (f a)) (h : conclude w s r f = .next t) : FormOk t := by
  rcases conclude_eq_next h with ⟨a, ha, rfl⟩ | ⟨c, p, -, rfl⟩
  · exact { hf a ha with }
  · exact hs.fail w c p

/-- So does a command that tests RXLEN first. -/
theorem guarded {α : Type} {w : WriteSet} {t : State} {r : Res α} {f : α → State} (hs : FormOk s)
    (hf : ∀ a, r = .ok a → FormOk (f a)) (h : guardRxLen s (Machine.conclude w s r f) = .next t) : FormOk t := by
  rcases guardRxLen_cases s (Machine.conclude w s r f) with ⟨-, hg⟩ | ⟨-, hg⟩ <;> rw [hg] at h
  · cases h; exact { hs with }
  · exact hs.conclude hf h

/-- Every command keeps the form, whether it succeeds, fails or waits for its draw. -/
theorem exec {i : Instr} {t : State} (hs : FormOk s) (h : exec i s = .next t) : FormOk t := by
  have hn : s.rxlen.toNat ≤ 65535 := Nat.le_of_lt_succ s.rxlen.isLt
  cases i with
  | packFlags => cases h; exact { hs with }
  | unpackFlags => cases h; exact { hs with }
  | buildHeader =>
    rcases execBuildHeader_eq_next h with ⟨-, rfl⟩ | ⟨-, h⟩
    · exact { hs with }
    · cases h
      have hlen : (headerBytes (queryHeader (Config.draw16 s.draws))).length ≤ 271 := by
        rw [length_headerBytes]; decide
      exact { hs.setTx hlen with }
  | encodeName =>
    refine hs.start.conclude (fun out ho => ?_) h
    have hlen := (length_encodedName ho).2
    exact (hs.start.setTx (by omega)).setCur _
  | buildQuestion =>
    refine hs.start.conclude (fun out ho => ?_) h
    have hlen := (length_encodedName ho).2
    exact (hs.start.setTx (by rw [length_questionBytes]; omega)).setCur _
  | buildQuery =>
    rcases execBuildQuery_eq_next h with ⟨-, rfl⟩ | ⟨-, h⟩
    · exact { hs with }
    · have hstart : FormOk s.takeDraw.start := { hs with }
      refine hstart.conclude (fun out ho => ?_) h
      have hlen := (length_encodedName ho).2
      have hq : FormOk (s.takeDraw.start.setQueryHeader (Config.draw16 s.draws)) := { hs with }
      exact (hq.setTx (by rw [List.length_append, length_headerBytes, length_questionBytes]; omega)).setCur _
  | parseHeader =>
    refine hs.start.guarded (fun r _ => ?_) h
    exact { hs.setDstate .awaitingQuestionSkip with }
  | skipQuestion => cases h; exact { hs.setDstate .awaitingOwnerName with }
  | resolveOwner =>
    refine hs.start.guarded (fun o ho => ?_) h
    exact ((hs.start.setOwn (ownerOk_of_resolveOwner ho)).setCur _).setDstate _
  | parseAnswer => exact hs.start.guarded (fun r hr => hs.start.setRecord hn hr) h
  | decode =>
    refine hs.start.guarded (fun hr hhr => ?_) h
    have hhead : FormOk ((s.start.setParsedHeader hr.1).setAnsoff (answerOffset s)) := { hs with }
    exact hhead.setRecord hn (decodeStages_eq_ok.mp hhr).2

end FormOk

/-! ### What a command reports -/

theorem Cause.legalError (c : Cause) : legalError c.code c.sub = true := by cases c <;> decide

theorem runOk_of_not_busy {s : State} (h : runOk s) (hb : s.busy = false) : s.cmd = 0 := by
  rcases h with ⟨hc, -⟩ | ⟨hs, -⟩
  · exact hc
  · unfold State.busy at hb; rw [hs] at hb; exact absurd hb (by decide)

theorem runOk_of_busy {s : State} (h : runOk s) (hb : s.busy = true) :
    s.status = statusBusy ∧ s.entropyReady = false ∧ ∃ i, takesDraw i = true ∧ s.cmd = encode i := by
  rcases h with ⟨-, hs | hs | hs⟩ | h
  · unfold State.busy at hb; rw [hs] at hb; exact absurd hb (by decide)
  · unfold State.busy at hb; rw [hs] at hb; exact absurd hb (by decide)
  · unfold State.busy at hb; rw [hs] at hb; exact absurd hb (by decide)
  · exact h

theorem decode_encode (i : Instr) : decode (encode i) = .ok i := by cases i <;> decide

namespace Reported

/-- An idle block that reports no error: nothing has run yet, or a command has succeeded. -/
theorem of_no_error {t : State} (hc : t.cmd = 0) (hs : t.status = 0 ∨ t.status = statusDone) (he : t.errcode = 0)
    (hu : t.errsub = 0) : Reported t where
  run := .inl ⟨hc, hs.imp_right .inl⟩
  errIff := by unfold State.err; rw [he]; rcases hs with hs | hs <;> rw [hs] <;> decide
  legal := by rw [he, hu]; decide

/-- An idle block that reports an error of the table. -/
theorem of_error {t : State} (c : Cause) (hc : t.cmd = 0) (hs : t.status = statusError) (he : t.errcode = c.code)
    (hu : t.errsub = c.sub) : Reported t where
  run := .inl ⟨hc, .inr (.inr hs)⟩
  errIff := by unfold State.err; rw [hs, he]; exact iff_of_true (by decide) c.code_ne_zero
  legal := by rw [he, hu]; exact c.legalError

/-- A block that waits for its draw (R253). -/
theorem of_hold {i : Instr} {s : State} (h : waits s i = true) : Reported (s.hold i) := by
  obtain ⟨ht, hr⟩ : takesDraw i = true ∧ s.entropyReady = false := by simpa [waits] using h
  refine ⟨.inr ⟨rfl, hr, i, ht, rfl⟩, ?_, rfl⟩
  unfold State.err
  rw [State.hold_status, State.hold_errcode]
  decide

end Reported

/-- A command that ends leaves CMD as it was when it ran. -/
theorem conclude_cmd {α : Type} {w : WriteSet} {s t : State} {r : Res α} {f : α → State}
    (h : conclude w s r f = .next t) (hf : ∀ a, (f a).cmd = s.cmd) : t.cmd = s.cmd := by
  rcases conclude_eq_next h with ⟨a, -, rfl⟩ | ⟨c, p, -, rfl⟩
  · exact hf a
  · rfl

theorem guarded_cmd {α : Type} {w : WriteSet} {s t : State} {r : Res α} {f : α → State}
    (h : guardRxLen s (conclude w s r f) = .next t) (hf : ∀ a, (f a).cmd = s.cmd) : t.cmd = s.cmd := by
  rcases guardRxLen_cases s (conclude w s r f) with ⟨-, hg⟩ | ⟨-, hg⟩ <;> rw [hg] at h
  · cases h; rfl
  · exact conclude_cmd h hf

/-- CMD is written by no command but one that waits for its draw. -/
theorem exec_cmd {i : Instr} {s t : State} (h : exec i s = .next t) : waits s i = true ∨ t.cmd = s.cmd := by
  cases i with
  | packFlags => cases h; exact .inr rfl
  | unpackFlags => cases h; exact .inr rfl
  | buildHeader =>
    rcases execBuildHeader_eq_next h with ⟨hr, -⟩ | ⟨-, h⟩
    · exact .inl (by simp [waits, takesDraw, hr])
    · cases h; exact .inr rfl
  | encodeName => exact .inr (conclude_cmd (s := s.start) h fun _ => rfl)
  | buildQuestion => exact .inr (conclude_cmd (s := s.start) h fun _ => rfl)
  | buildQuery =>
    rcases execBuildQuery_eq_next h with ⟨hr, -⟩ | ⟨-, h⟩
    · exact .inl (by simp [waits, takesDraw, hr])
    · exact .inr (conclude_cmd (s := s.takeDraw.start) h fun _ => rfl)
  | parseHeader => exact .inr (guarded_cmd (s := s.start) h fun _ => rfl)
  | skipQuestion => cases h; exact .inr rfl
  | resolveOwner => exact .inr (guarded_cmd (s := s.start) h fun _ => rfl)
  | parseAnswer => exact .inr (guarded_cmd (s := s.start) h fun _ => rfl)
  | decode => exact .inr (guarded_cmd (s := s.start) h fun _ => rfl)

/-- A command run with CMD consumed ends in a legal report, or waits for its draw. -/
theorem exec_reported {i : Instr} {s t : State} (hc : s.cmd = 0) (h : exec i s = .next t) : Reported t := by
  rcases exec_eq_next h with ⟨hw, rfl⟩ | ⟨he, hu, hs⟩ | ⟨-, -, rfl⟩ | ⟨s', c, p, hs', rfl, -⟩
  · exact .of_hold hw
  · rcases exec_cmd h with hw | hcmd
    · rw [exec_waits hw] at h; cases h; exact .of_hold hw
    · exact .of_no_error (hcmd.trans hc) (.inr hs) he hu
  · exact .of_error .badLength hc rfl rfl rfl
  · refine .of_error c ?_ rfl rfl rfl
    rcases hs' with rfl | rfl <;> exact hc

/-! ### The host's actions -/

theorem exec_keeps_inv {i : Instr} {s t : State} (hs : FormOk s) (hc : s.cmd = 0) (h : exec i s = .next t) : Inv t :=
  inv_iff.mpr ⟨exec_reported hc h, hs.exec h⟩

theorem regWrite_keeps_inv {s : State} (h : Inv s) (v : Nat) (r : Reg) : Inv (regWrite s v r) := by
  cases r <;> exact { h with }

theorem storeByte_keeps_inv {s : State} (h : Inv s) {sp : Space} {a : Nat} (b : Byte) (ha : a < spaceCap s.rxCap sp) :
    Inv (storeByte s a b sp) := by
  cases sp with
  | name => exact { h with name := ⟨Memory.wf_write a b h.name.1, Memory.below_write b ha h.name.2⟩ }
  | rx => exact { h with rx := ⟨Memory.wf_write a b h.rx.1, Memory.below_write b ha h.rx.2⟩ }
  | q => exact { h with q := ⟨Memory.wf_write a b h.q.1, Memory.below_write b ha h.q.2⟩ }
  | tx => exact h
  | owner => exact h
  | addrstr => exact h

theorem resetBlock_keeps_inv {s : State} (h : Inv s) : Inv (resetBlock s) := by
  refine inv_iff.mpr ⟨.of_no_error rfl (.inl rfl) rfl rfl, ?_⟩
  exact ⟨h.rxCap, Nat.zero_le _, Nat.zero_le _, exactly_nil, ownerOk_zero, answerOk_zero, ⟨rfl, rfl⟩, ⟨rfl, rfl⟩,
    ⟨rfl, rfl⟩⟩

/-- The entropy source is noted by an idle block; its answer takes up the command that waits for it, and its silence
leaves that command waiting (R253). -/
theorem entropyAct_keeps_inv {s t : State} {ready : Bool} (h : Inv s) (ht : entropyAct ready s = .next t) : Inv t := by
  rcases entropyAct_eq_next ht with ⟨rfl, hnone⟩ | ⟨-, -, i, -, hexec⟩
  · refine { h with run := ?_ }
    rcases h.run with hidle | ⟨hs, hr, i, hi, hcmd⟩
    · exact .inl hidle
    · have hb : s.busy = true := by unfold State.busy; rw [hs]; decide
      have hready : ready = false := by
        refine Bool.eq_false_iff.mpr fun hready => hnone hready hb i ?_
        rw [hcmd, decode_encode]
      exact .inr ⟨hs, hready, i, hi, hcmd⟩
  · have hform : FormOk { s with entropyReady := true, cmd := 0 } := { (inv_iff.mp h).2 with }
    exact exec_keeps_inv hform rfl hexec

theorem hostAct_keeps_inv {a : HostAction} {s t : State} (h : Inv s) (ht : hostAct a s = .next t) : Inv t := by
  rcases hostAct_eq_next ht with rfl | rfl | ⟨v, rfl⟩ | ⟨-, r, v, rfl⟩ | ⟨-, i, hexec⟩ | ⟨-, rfl⟩ |
    ⟨sp, x, b, -, hx, rfl⟩ | rfl | ⟨ready, hent⟩
  · exact h
  · exact { h with }
  · exact { h with }
  · exact regWrite_keeps_inv h v r
  · have hform : FormOk { s with cmd := 0 } := { (inv_iff.mp h).2 with }
    exact exec_keeps_inv hform rfl hexec
  · exact inv_iff.mpr ⟨.of_error .unknownCommand rfl rfl rfl rfl, { (inv_iff.mp h).2 with }⟩
  · exact storeByte_keeps_inv h b hx
  · exact resetBlock_keeps_inv h
  · exact entropyAct_keeps_inv h hent

/-- Settles O59: a command runs with CMD consumed and ends in a legal report or waits for its draw (`exec_reported`), its
groups and buffers in form either way (`FormOk.exec`); the host's other actions touch only what they may. -/
theorem stepKeepsInvariant : Obligations.StepKeepsInvariant := by
  intro s t hs ht
  cases hhost : s.host with
  | nil => rw [step_nil hhost] at ht; cases ht; exact hs
  | cons a rest =>
    rw [step_cons hhost] at ht
    have hs' : Inv { s with host := rest } := { hs with }
    exact hostAct_keeps_inv hs' ht

end Sys2Proof.Machine

/-! ### What a command's results depend on: every update adds the group it writes to what two states agree on -/

namespace Sys2Proof.Safety.AgreeOnWrites

open Sys2Proof.Machine

variable {w : WriteSet} {s s' : State}

/-- Any two states agree on the empty write set. -/
theorem of_empty (s s' : State) : AgreeOnWrites {} s s' :=
  ⟨nofun, nofun, nofun, nofun, nofun, nofun, nofun, nofun, nofun⟩

theorem setFlags (h : AgreeOnWrites w s s') (v : Word16) :
    AgreeOnWrites { w with flags := true } (s.setFlags v) (s'.setFlags v) :=
  { h with flags := fun _ => rfl, hdr := fun hw => by rw [State.setFlags_hdr, State.setFlags_hdr, h.hdr hw] }

theorem setHdr (h : AgreeOnWrites w s s') (v : Header) :
    AgreeOnWrites { w with flags := true, hdr := true } (s.setHdr v) (s'.setHdr v) :=
  { h with flags := fun _ => rfl, hdr := fun _ => rfl }

theorem setFld (h : AgreeOnWrites w s s') (f : FlagFields) :
    AgreeOnWrites { w with fld := true } (s.setFld f) (s'.setFld f) := { h with fld := fun _ => rfl }

theorem setTx (h : AgreeOnWrites w s s') (bs : List Byte) :
    AgreeOnWrites { w with tx := true } (s.setTx bs) (s'.setTx bs) := { h with tx := fun _ => ⟨rfl, rfl⟩ }

theorem setAnsoff (h : AgreeOnWrites w s s') (a : Nat) :
    AgreeOnWrites { w with ansoff := true } (s.setAnsoff a) (s'.setAnsoff a) := { h with ansoff := fun _ => rfl }

theorem setOwn (h : AgreeOnWrites w s s') (o : Owner) :
    AgreeOnWrites { w with own := true } (s.setOwn o) (s'.setOwn o) := { h with own := fun _ => rfl }

theorem setAns (h : AgreeOnWrites w s s') (a : Answer) :
    AgreeOnWrites { w with ans := true } (s.setAns a) (s'.setAns a) := { h with ans := fun _ => rfl }

theorem setCur (h : AgreeOnWrites w s s') (p : Nat) :
    AgreeOnWrites { w with cur := true } (s.setCur p) (s'.setCur p) := { h with cur := fun _ => rfl }

theorem setDstate (h : AgreeOnWrites w s s') (d : DState) :
    AgreeOnWrites { w with dstate := true } (s.setDstate d) (s'.setDstate d) := { h with dstate := fun _ => rfl }

theorem setRecord (h : AgreeOnWrites w s s') (r : ParsedRecord) :
    AgreeOnWrites { w with own := true, ans := true, cur := true, dstate := true } (s.setRecord r) (s'.setRecord r) :=
  (((h.setOwn r.owner.group).setAns r.answer).setCur r.stop).setDstate .done

/-- Two errors of one cause at one position clear the same groups (R236), where the write set has no header without its
FLAGS, and a DSTATE only where the cause has a stage. -/
theorem fail {c : Cause} (s s' : State) (p : Nat) (hflags : w.hdr = true → w.flags = true)
    (hstage : w.dstate = true → ∃ d, c.stage = some d) : AgreeOnWrites w (s.fail w c p) (s'.fail w c p) where
  flags hw := by simp [Header.clear, hw]
  hdr hw := by simp [Header.clear, hw, hflags hw]
  fld hw := by simp [hw]
  tx hw := by simp [hw]
  ansoff hw := by simp [hw]
  own hw := by simp [hw]
  ans hw := by simp [hw]
  cur hw := by simp [hw]
  dstate hw := by obtain ⟨d, hd⟩ := hstage hw; simp [hw, hd]

end Sys2Proof.Safety.AgreeOnWrites

namespace Sys2Proof.Machine

open Sys2Proof.Safety

/-- Two commands end alike: with the same report and, unless they did not run (R234), the same results. -/
def SameEnding (w : WriteSet) (t t' : State) : Prop :=
  t.status = t'.status ∧ t.errcode = t'.errcode ∧ t.errsub = t'.errsub ∧ (t.errcode ≠ 5 → AgreeOnWrites w t t')

theorem sameEnding_succeed {w : WriteSet} {s s' : State} (h : AgreeOnWrites w s s') :
    SameEnding w s.succeed s'.succeed := ⟨rfl, rfl, rfl, fun _ => { h with }⟩

theorem sameEnding_badLength (w : WriteSet) (s s' : State) :
    SameEnding w (s.commandError .badLength) (s'.commandError .badLength) :=
  ⟨rfl, rfl, rfl, fun h => absurd rfl h⟩

/-- A command that writes the header group writes FLAGS too (R35). -/
theorem writeSet_hdr_flags (i : Instr) (h : (writeSet i).hdr = true) : (writeSet i).flags = true := by
  revert h; cases i <;> decide

section Ending
variable {α : Type} {i : Instr} {s s' t t' : State} {r r' : Res α} {f f' : α → State}

/-- Two runs of a command whose work answers the same end alike, where their results agree on the write set. -/
theorem conclude_sameEnding (hr : r = r') (hf : ∀ a, AgreeOnWrites (writeSet i) (f a) (f' a))
    (hstage : (writeSet i).dstate = true → ∀ c p, r = .raise c p → ∃ d, c.stage = some d)
    (h : conclude (writeSet i) s r f = .next t) (h' : conclude (writeSet i) s' r' f' = .next t') :
    SameEnding (writeSet i) t t' := by
  subst hr
  cases r with
  | ok a => cases h; cases h'; exact sameEnding_succeed (hf a)
  | raise c p =>
    cases h; cases h'
    exact ⟨rfl, rfl, rfl, fun _ => .fail s s' p (writeSet_hdr_flags i) fun hw => hstage hw c p rfl⟩
  | fault x => cases h

/-- So do two runs of a command that reads RX, with the same RXLEN and RX_CAP. -/
theorem guarded_sameEnding (hcap : s.rxCap = s'.rxCap) (hlen : s.rxlen = s'.rxlen) (hr : r = r')
    (hf : ∀ a, AgreeOnWrites (writeSet i) (f a) (f' a))
    (hstage : ∀ c p, r = .raise c p → ∃ d, c.stage = some d)
    (h : guardRxLen s (conclude (writeSet i) s r f) = .next t)
    (h' : guardRxLen s' (conclude (writeSet i) s' r' f') = .next t') : SameEnding (writeSet i) t t' := by
  rcases guardRxLen_cases s (conclude (writeSet i) s r f) with ⟨hl, hg⟩ | ⟨hl, hg⟩
  · rw [hg] at h
    rw [guardRxLen_fail (by rwa [← hcap, ← hlen])] at h'
    cases h; cases h'; exact sameEnding_badLength _ _ _
  · rw [hg] at h
    rw [guardRxLen_pass (by rwa [← hcap, ← hlen])] at h'
    exact conclude_sameEnding hr hf (fun _ => hstage) h h'

end Ending

/-! ### Every cause a stage of the Decoder raises has a state in which it arises (R204) -/

theorem parseHeader_stage {m : Memory} {n p : Nat} {c : Cause} (h : parseHeader m n = .raise c p) :
    ∃ d, c.stage = some d := by
  obtain ⟨-, rfl, -⟩ := parseHeader_eq_raise.mp h
  exact ⟨_, rfl⟩

theorem resolveOwner_stage {m : Memory} {n k p : Nat} {c : Cause} (h : resolveOwner m n k = .raise c p) :
    ∃ d, c.stage = some d := ⟨_, owner_stage (resolveOwner_eq_raise h).1⟩

theorem parseRecord_stage {m : Memory} {n k p : Nat} {c : Cause} (h : parseRecord m n k = .raise c p) :
    ∃ d, c.stage = some d := by
  rcases parseRecord_causes h with howner | rfl | rfl
  · exact ⟨_, owner_stage howner⟩
  · exact ⟨_, rfl⟩
  · exact ⟨_, rfl⟩

theorem decodeStages_stage {s : State} {c : Cause} {p : Nat} (h : decodeStages s = .raise c p) :
    ∃ d, c.stage = some d := by
  rcases decodeStages_eq_raise.mp h with h | ⟨-, -, h⟩
  · exact parseHeader_stage h
  · exact parseRecord_stage h

theorem answerOffset_congr {s s' : State} (hq : s.qlen = s'.qlen) : answerOffset s = answerOffset s' := by
  unfold answerOffset; rw [hq]

/-- Two states with the same RX below RXLEN and the same QLEN are decoded alike. -/
theorem decodeStages_congr {s s' : State} (hn : s.rxlen = s'.rxlen) (hq : s.qlen = s'.qlen)
    (hm : ∀ a < s.rxlen.toNat, s.rx.read a = s'.rx.read a) : decodeStages s = decodeStages s' := by
  unfold decodeStages
  rw [← hn, ← answerOffset_congr hq, parseHeader_congr fun a _ ha => hm a ha, parseRecord_congr hm]

/-- A command that needs a draw and does not wait for it has an entropy source that answers (R253). -/
theorem entropyReady_of_not_waits {i : Instr} {s : State} (ht : takesDraw i = true) (h : waits s i = false) :
    s.entropyReady = true := by
  simpa [waits, ht] using h

/-- Settles O45: each command's work reads its read set alone, and what it writes from the answer, or clears on an error,
covers its write set. R188's premise is not used: what the model computes without it depends on the same reads. -/
theorem resultsDependOnReadsAlone : Obligations.ResultsDependOnReadsAlone := by
  intro i s s' t t' hag _ _ hw hw' h h'
  have hstart := AgreeOnWrites.of_empty s.start s'.start
  cases i with
  | packFlags =>
    have hfld : s.fld = s'.fld := hag
    cases h; cases h'
    rw [hfld]
    exact sameEnding_succeed (hstart.setFlags _)
  | unpackFlags =>
    have hflags : s.hdr.flags = s'.hdr.flags := hag
    cases h; cases h'
    rw [hflags]
    exact sameEnding_succeed (hstart.setFld _)
  | buildHeader =>
    have hdraw : Config.draw16 s.draws = Config.draw16 s'.draws := hag
    replace h := (withDraw_ready (entropyReady_of_not_waits rfl hw)).symm.trans h
    replace h' := (withDraw_ready (entropyReady_of_not_waits rfl hw')).symm.trans h'
    cases h; cases h'
    rw [hdraw]
    exact sameEnding_succeed ((((AgreeOnWrites.of_empty _ _).setFld _).setHdr _).setTx _)
  | encodeName =>
    obtain ⟨hn, hm⟩ := hag
    refine conclude_sameEnding (encodedName_congr hn hm) (fun out => ?_) nofun h h'
    rw [hn]
    exact (hstart.setTx _).setCur _
  | buildQuestion =>
    obtain ⟨hn, hm⟩ := hag
    refine conclude_sameEnding (encodedName_congr hn hm) (fun out => ?_) nofun h h'
    rw [hn]
    exact (hstart.setTx _).setCur _
  | buildQuery =>
    obtain ⟨hdraw, hn, hm⟩ := hag
    replace h := (withDraw_ready (entropyReady_of_not_waits rfl hw)).symm.trans h
    replace h' := (withDraw_ready (entropyReady_of_not_waits rfl hw')).symm.trans h'
    have hname : encodedName s.takeDraw = encodedName s'.takeDraw := encodedName_congr hn hm
    refine conclude_sameEnding hname (fun out => ?_) nofun h h'
    rw [hdraw, State.takeDraw_namelen, State.takeDraw_namelen, hn]
    exact ((((AgreeOnWrites.of_empty _ _).setFld _).setHdr _).setTx _).setCur _
  | parseHeader =>
    obtain ⟨hcap, hlen, hm⟩ := hag
    have hr : parseHeader s.rx s.rxlen.toNat = parseHeader s'.rx s'.rxlen.toNat := by
      rw [← hlen]; exact parseHeader_congr hm
    exact guarded_sameEnding hcap hlen hr (fun r => (((hstart.setHdr _).setFld _).setCur _).setDstate _)
      (fun _ _ => parseHeader_stage) h h'
  | skipQuestion =>
    have hoff := answerOffset_congr (show s.qlen = s'.qlen from hag)
    cases h; cases h'
    rw [hoff]
    exact sameEnding_succeed (((hstart.setAnsoff _).setCur _).setDstate _)
  | resolveOwner =>
    obtain ⟨hcap, hlen, hoff, hm⟩ := hag
    have hr : resolveOwner s.rx s.rxlen.toNat s.ansoff.toNat = resolveOwner s'.rx s'.rxlen.toNat s'.ansoff.toNat := by
      rw [← hlen, ← hoff]; exact resolveOwner_congr hm _
    refine guarded_sameEnding hcap hlen hr (fun o => ?_) (fun _ _ => resolveOwner_stage) h h'
    rw [hoff]
    exact ((hstart.setOwn _).setCur _).setDstate _
  | parseAnswer =>
    obtain ⟨hcap, hlen, hoff, hm⟩ := hag
    have hr : parseRecord s.rx s.rxlen.toNat s.ansoff.toNat = parseRecord s'.rx s'.rxlen.toNat s'.ansoff.toNat := by
      rw [← hlen, ← hoff]; exact parseRecord_congr hm _
    exact guarded_sameEnding hcap hlen hr (fun r => hstart.setRecord r) (fun _ _ => parseRecord_stage) h h'
  | decode =>
    obtain ⟨hcap, hlen, hq, hm⟩ := hag
    have hr := decodeStages_congr hlen hq hm
    refine guarded_sameEnding hcap hlen hr (fun hr => ?_) (fun _ _ => decodeStages_stage) h h'
    rw [answerOffset_congr hq]
    exact (((hstart.setHdr _).setFld _).setAnsoff _).setRecord hr.2

end Sys2Proof.Machine

/-! ### The owner name and the record of an answer: from the bytes that stand in RX to the whole next state -/

namespace Sys2Proof.Machine

open Sys2Proof.Safety

/-- RESOLVE_OWNER of a name the Decoder takes. -/
theorem exec_resolveOwner_ok {s : State} {o : OwnerName} (hlen : s.rxlen.toNat ≤ s.rxCap.toNat)
    (ho : resolveOwner s.rx s.rxlen.toNat s.ansoff.toNat = .ok o) :
    exec .resolveOwner s = .next
      (((s.start.setOwn o.group).setCur (s.ansoff.toNat + o.cons)).setDstate .awaitingFixedFields).succeed := by
  rw [exec, execResolveOwner, guardRxLen_pass (s := s.start) hlen, ho, conclude_ok]

/-- PARSE_ANSWER of a record the Decoder takes. -/
theorem exec_parseAnswer_ok {s : State} {r : ParsedRecord} (hlen : s.rxlen.toNat ≤ s.rxCap.toNat)
    (hr : parseRecord s.rx s.rxlen.toNat s.ansoff.toNat = .ok r) :
    exec .parseAnswer s = .next (s.start.setRecord r).succeed := by
  rw [exec, execParseAnswer, guardRxLen_pass (s := s.start) hlen, hr, conclude_ok]

/-- An owner name, the fixed fields and an RDATA that is taken make a record (R196). -/
theorem parseRecord_of_bytes {m : Memory} {n c : Nat} {o : OwnerForm} {f : FixedFields} {a : Answer} (ho : ownerFormOk o)
    (hn : c + (ownerWire o).length + 10 ≤ n)
    (hm : holdsAt m c (ownerWire o ++ fixedBytes f.atype f.aclass f.ttl f.rdlength))
    (ha : takeRData m n f (c + (ownerWire o).length + 10) = .ok a) :
    ∃ r, parseRecord m n c = .ok r ∧ r.owner.group = ownerResult o ∧ r.answer = a ∧
      r.stop = c + (ownerWire o).length + 10 + f.rdlength.toNat := by
  obtain ⟨hname, hfix⟩ := holdsAt_append.mp hm
  obtain ⟨name, hres, hgroup, hcons⟩ := resolveOwner_of_form ho (show c + (ownerWire o).length ≤ n by omega) hname
  refine ⟨⟨name, a, c + (ownerWire o).length + 10 + f.rdlength.toNat⟩, ?_, hgroup, rfl, rfl⟩
  rw [parseRecord, hres, Res.bind_ok, hcons, fixedFields_eq_ok.mpr ⟨hn, hfix⟩, Res.bind_ok, Config.rrFixedLen, ha,
    Res.bind_ok]

/-- Settles O20: the forms `ownerFormOk` lists are resolved (`resolveOwner_of_form`), and the command writes what they
resolve to. -/
theorem resolveOwnerSucceeds : Obligations.ResolveOwnerSucceeds := by
  intro s o hlen ho hn hm
  obtain ⟨name, hres, hgroup, hcons⟩ := resolveOwner_of_form ho hn hm
  rw [exec_resolveOwner_ok hlen hres, hgroup, hcons]
  rfl

/-- The state a successful PARSE_ANSWER leaves, its groups given. -/
theorem exec_parseAnswer_of_bytes {s : State} {o : OwnerForm} {f : FixedFields} {a : Answer}
    (hlen : s.rxlen.toNat ≤ s.rxCap.toNat) (ho : ownerFormOk o)
    (hn : s.ansoff.toNat + (ownerWire o).length + 10 ≤ s.rxlen.toNat)
    (hm : holdsAt s.rx s.ansoff.toNat (ownerWire o ++ fixedBytes f.atype f.aclass f.ttl f.rdlength))
    (ha : takeRData s.rx s.rxlen.toNat f (s.ansoff.toNat + (ownerWire o).length + 10) = .ok a) :
    exec .parseAnswer s = .next { s with
      own := ownerResult o
      ans := a
      cur := BitVec.ofNat 16 (s.ansoff.toNat + (ownerWire o).length + 10 + f.rdlength.toNat)
      dstate := 5
      status := 0b010#3
      errcode := 0
      errsub := 0 } := by
  obtain ⟨r, hr, hgroup, hans, hstop⟩ := parseRecord_of_bytes ho hn hm ha
  rw [exec_parseAnswer_ok hlen hr, State.setRecord, hgroup, hans, hstop]
  rfl

/-- Settles O28: RDATA is taken as an address (`takeRData_addr`), and its window ends 14 bytes after the owner name. -/
theorem parseAnswerAddress : Obligations.ParseAnswerAddress := by
  intro s o cl ttl b0 b1 b2 b3 hlen ho hn hm
  obtain ⟨hfix, hrd⟩ := holdsAt_append.mp hm
  rw [List.length_append, ← Nat.add_assoc] at hrd
  exact exec_parseAnswer_of_bytes (f := ⟨1, cl, ttl, 4⟩) hlen ho (by omega) hfix
    (takeRData_addr hn rfl rfl hrd)

/-- Settles O29: RDATA that is no address is taken as a window, none of its bytes read (`takeRData_opaque`). -/
theorem parseAnswerOpaque : Obligations.ParseAnswerOpaque := by
  intro s o ty cl ttl rdlen hlen ho hno hn hm
  exact exec_parseAnswer_of_bytes (f := ⟨ty, cl, ttl, rdlen⟩) hlen ho (by omega) hm (takeRData_opaque hn hno)

/-! ### The RDATA window (R32, R198, R201) -/

/-- Whatever RDATA is taken as, RDOFF and RDLENGTH are the window the bounds check passed. -/
theorem takeRData_window {m : Memory} {n q : Nat} {f : FixedFields} {a : Answer} (hq : q ≤ n)
    (h : takeRData m n f q = .ok a) : a.rdoff = BitVec.ofNat 16 q ∧ a.rdlength = f.rdlength := by
  obtain ⟨-, ⟨-, -, b0, b1, b2, b3, -, rfl⟩ | ⟨-, rfl⟩⟩ := takeRData_eq_ok hq h
  · exact ⟨rfl, rfl⟩
  · exact ⟨rfl, rfl⟩

/-- In a message of at most 65535 bytes the cursor after a record shows the end of its window, inside the message. -/
theorem parseRecord_window {m : Memory} {n c : Nat} {r : ParsedRecord} (hn : n ≤ 65535)
    (h : parseRecord m n c = .ok r) :
    r.answer.rdoff.toNat + r.answer.rdlength.toNat = (BitVec.ofNat 16 r.stop).toNat ∧
      (BitVec.ofNat 16 r.stop).toNat ≤ n := by
  obtain ⟨o, f, -, -, ha, -, hq, hstop, hle⟩ := parseRecord_eq_ok h
  obtain ⟨hoff, hlen⟩ := takeRData_window hq ha
  rw [hoff, hlen, toNat_ofNat_of_lt (show c + o.cons + 10 < 2 ^ 16 by omega),
    toNat_ofNat_of_lt (show r.stop < 2 ^ 16 by omega)]
  exact ⟨hstop.symm, hle⟩

/-- Settles O33: both commands end, when no error is shown, in a record whose window `parseRecord_window` bounds. R188's
premise is not used: the window of a DECODE lies inside the message whatever was echoed. -/
theorem rDataWindowInsideMessage : Obligations.RDataWindowInsideMessage := by
  intro i s t hans _ h he
  have hn : s.rxlen.toNat ≤ 65535 := Nat.le_of_lt_succ s.rxlen.isLt
  cases i with
  | parseAnswer =>
    rcases execParseAnswer_eq_next h with ⟨-, rfl⟩ | ⟨-, ⟨r, hr, rfl⟩ | ⟨c, p, -, rfl⟩⟩
    · exact absurd he Cause.badLength.code_ne_zero
    · exact parseRecord_window hn hr
    · exact absurd he c.code_ne_zero
  | decode =>
    rcases execDecode_eq_next h with ⟨-, rfl⟩ | ⟨-, ⟨hr, hst, rfl⟩ | ⟨c, p, -, rfl⟩⟩
    · exact absurd he Cause.badLength.code_ne_zero
    · exact parseRecord_window hn (decodeStages_eq_ok.mp hst).2
    · exact absurd he c.code_ne_zero
  | packFlags | unpackFlags | buildHeader | encodeName | buildQuestion | buildQuery | parseHeader | skipQuestion
  | resolveOwner => exact absurd hans Bool.false_ne_true

end Sys2Proof.Machine

/-! ### The frame of a command (R36, R237): every update stays inside the write set that names its group -/

namespace Sys2Proof.Safety.UnchangedOutside

open Sys2Proof.Machine

variable {w : WriteSet} {s t : State}

theorem refl (w : WriteSet) (s : State) : UnchangedOutside w s s :=
  ⟨fun _ => rfl, fun _ => ⟨rfl, rfl, rfl, rfl, rfl⟩, fun _ => rfl, fun _ => ⟨rfl, rfl⟩, fun _ => rfl, fun _ => rfl,
    fun _ => rfl, fun _ => rfl, fun _ => rfl, ⟨rfl, rfl, rfl, rfl, rfl, rfl⟩, fun _ => rfl, ⟨rfl, rfl, rfl, rfl, rfl⟩⟩

theorem setFlags (h : UnchangedOutside w s t) (hw : w.flags = true) (v : Word16) :
    UnchangedOutside w s (t.setFlags v) := { h with flags := fun hf => absurd (hw.symm.trans hf) nofun }

theorem setHdr (h : UnchangedOutside w s t) (hf : w.flags = true) (hw : w.hdr = true) (v : Header) :
    UnchangedOutside w s (t.setHdr v) :=
  { h with flags := fun h0 => absurd (hf.symm.trans h0) nofun, hdr := fun h0 => absurd (hw.symm.trans h0) nofun }

theorem setFld (h : UnchangedOutside w s t) (hw : w.fld = true) (v : FlagFields) :
    UnchangedOutside w s (t.setFld v) := { h with fld := fun h0 => absurd (hw.symm.trans h0) nofun }

theorem setTx (h : UnchangedOutside w s t) (hw : w.tx = true) (bs : List Byte) : UnchangedOutside w s (t.setTx bs) :=
  { h with tx := fun h0 => absurd (hw.symm.trans h0) nofun }

theorem setAnsoff (h : UnchangedOutside w s t) (hw : w.ansoff = true) (a : Nat) :
    UnchangedOutside w s (t.setAnsoff a) := { h with ansoff := fun h0 => absurd (hw.symm.trans h0) nofun }

theorem setOwn (h : UnchangedOutside w s t) (hw : w.own = true) (o : Owner) : UnchangedOutside w s (t.setOwn o) :=
  { h with own := fun h0 => absurd (hw.symm.trans h0) nofun }

theorem setAns (h : UnchangedOutside w s t) (hw : w.ans = true) (a : Answer) : UnchangedOutside w s (t.setAns a) :=
  { h with ans := fun h0 => absurd (hw.symm.trans h0) nofun }

theorem setCur (h : UnchangedOutside w s t) (hw : w.cur = true) (p : Nat) : UnchangedOutside w s (t.setCur p) :=
  { h with cur := fun h0 => absurd (hw.symm.trans h0) nofun }

theorem setDstate (h : UnchangedOutside w s t) (hw : w.dstate = true) (d : DState) :
    UnchangedOutside w s (t.setDstate d) := { h with dstate := fun h0 => absurd (hw.symm.trans h0) nofun }

theorem setParsedHeader (h : UnchangedOutside w s t) (hf : w.flags = true) (hw : w.hdr = true) (hfld : w.fld = true)
    (v : Header) : UnchangedOutside w s (t.setParsedHeader v) := (h.setHdr hf hw v).setFld hfld _

theorem setQueryHeader (h : UnchangedOutside w s t) (hf : w.flags = true) (hw : w.hdr = true) (hfld : w.fld = true)
    (r : Word16) : UnchangedOutside w s (t.setQueryHeader r) := (h.setFld hfld _).setHdr hf hw _

theorem setRecord (h : UnchangedOutside w s t) (hown : w.own = true) (hans : w.ans = true) (hcur : w.cur = true)
    (hd : w.dstate = true) (r : ParsedRecord) : UnchangedOutside w s (t.setRecord r) :=
  (((h.setOwn hown _).setAns hans _).setCur hcur _).setDstate hd _

/-- The start of a command leaves all but STATUS and the error registers. -/
theorem start (w : WriteSet) (s : State) : UnchangedOutside w s s.start :=
  { refl w s with cmd := fun _ => rfl }

/-- A draw is outside the block, and so is a start after it. -/
theorem takeDraw_start (w : WriteSet) (s : State) : UnchangedOutside w s s.takeDraw.start :=
  { refl w s with cmd := fun _ => rfl }

/-- A command that waits for its draw has written nothing but CMD, STATUS and the error registers (R253). -/
theorem hold (w : WriteSet) (s : State) (i : Instr) : UnchangedOutside w s (s.hold i) :=
  { refl w s with cmd := fun hb => absurd hb (show ¬ statusBusy.getLsbD 0 = false by decide) }

/-- Completion with success shows CMD, so it must be as it was. -/
theorem succeed (h : UnchangedOutside w s t) (hc : t.cmd = s.cmd) : UnchangedOutside w s t.succeed :=
  { h with cmd := fun _ => hc }

theorem commandError (h : UnchangedOutside w s t) (hc : t.cmd = s.cmd) (c : Cause) :
    UnchangedOutside w s (t.commandError c) := { h with cmd := fun _ => hc }

/-- An error clears groups of the write set and no others (R236). -/
theorem fail (h : UnchangedOutside w s t) (hc : t.cmd = s.cmd) (c : Cause) (p : Nat) :
    UnchangedOutside w s (t.fail w c p) where
  flags hw := by simp [Header.clear, hw, h.flags hw]
  hdr hw := by simp [Header.clear, hw, h.hdr hw]
  fld hw := by simp [hw, h.fld hw]
  tx hw := by simp [hw, h.tx hw]
  ansoff hw := by simp [hw, h.ansoff hw]
  own hw := by simp [hw, h.own hw]
  ans hw := by simp [hw, h.ans hw]
  cur hw := by simp [hw, h.cur hw]
  dstate hw := by simp [hw, h.dstate hw]
  inputs := h.inputs
  cmd _ := hc
  outside := h.outside

section Ending
variable {α : Type} {s' : State} {r : Res α} {f : α → State}

/-- A command that ends in its results or in an error stays inside its write set where its results do. -/
theorem conclude (hs : UnchangedOutside w s s') (hc : s'.cmd = s.cmd)
    (hf : ∀ a, UnchangedOutside w s (f a) ∧ (f a).cmd = s.cmd) (h : conclude w s' r f = .next t) :
    UnchangedOutside w s t := by
  rcases conclude_eq_next h with ⟨a, -, rfl⟩ | ⟨c, p, -, rfl⟩
  · exact (hf a).1.succeed (hf a).2
  · exact hs.fail hc c p

/-- So does a command that tests RXLEN first. -/
theorem guarded (hs : UnchangedOutside w s s') (hc : s'.cmd = s.cmd)
    (hf : ∀ a, UnchangedOutside w s (f a) ∧ (f a).cmd = s.cmd)
    (h : guardRxLen s' (Machine.conclude w s' r f) = .next t) : UnchangedOutside w s t := by
  rcases guardRxLen_cases s' (Machine.conclude w s' r f) with ⟨-, hg⟩ | ⟨-, hg⟩ <;> rw [hg] at h
  · cases h; exact hs.commandError hc _
  · exact hs.conclude hc hf h

end Ending

/-- Every command stays inside its write set, whether it succeeds, fails or waits for its draw. -/
theorem exec {i : Instr} (h : exec i s = .next t) : UnchangedOutside (writeSet i) s t := by
  have hstart : UnchangedOutside (writeSet i) s s.start := start _ s
  have hdraw : UnchangedOutside (writeSet i) s s.takeDraw.start := takeDraw_start _ s
  cases i with
  | packFlags => cases h; exact (hstart.setFlags rfl _).succeed rfl
  | unpackFlags => cases h; exact (hstart.setFld rfl _).succeed rfl
  | buildHeader =>
    rcases execBuildHeader_eq_next h with ⟨-, rfl⟩ | ⟨-, h⟩
    · exact hold _ s _
    · cases h; exact ((hdraw.setQueryHeader rfl rfl rfl _).setTx rfl _).succeed rfl
  | encodeName => exact hstart.conclude rfl (fun out => ⟨(hstart.setTx rfl _).setCur rfl _, rfl⟩) h
  | buildQuestion => exact hstart.conclude rfl (fun out => ⟨(hstart.setTx rfl _).setCur rfl _, rfl⟩) h
  | buildQuery =>
    rcases execBuildQuery_eq_next h with ⟨-, rfl⟩ | ⟨-, h⟩
    · exact hold _ s _
    · exact hdraw.conclude rfl
        (fun out => ⟨((hdraw.setQueryHeader rfl rfl rfl _).setTx rfl _).setCur rfl _, rfl⟩) h
  | parseHeader =>
    exact hstart.guarded rfl
      (fun r => ⟨((hstart.setParsedHeader rfl rfl rfl _).setCur rfl _).setDstate rfl _, rfl⟩) h
  | skipQuestion => cases h; exact (((hstart.setAnsoff rfl _).setCur rfl _).setDstate rfl _).succeed rfl
  | resolveOwner =>
    exact hstart.guarded rfl (fun o => ⟨((hstart.setOwn rfl _).setCur rfl _).setDstate rfl _, rfl⟩) h
  | parseAnswer => exact hstart.guarded rfl (fun r => ⟨hstart.setRecord rfl rfl rfl rfl r, rfl⟩) h
  | decode =>
    exact hstart.guarded rfl
      (fun hr => ⟨((hstart.setParsedHeader rfl rfl rfl _).setAnsoff rfl _).setRecord rfl rfl rfl rfl _, rfl⟩) h

/-- A space the write set leaves out holds the bytes it held. -/
theorem spaceBytes_eq (h : UnchangedOutside w s t) {sp : Space} (hsp : writesSpace w sp = false) :
    spaceBytes t sp = spaceBytes s sp := by
  obtain ⟨-, -, -, hname, hrx, hq⟩ := h.inputs
  cases sp with
  | name => exact hname
  | tx => exact (h.tx hsp).1
  | rx => exact hrx
  | q => exact hq
  | owner => exact congrArg Owner.buf (h.own hsp)
  | addrstr => exact congrArg Answer.addrstr (h.ans hsp)

end Sys2Proof.Safety.UnchangedOutside

namespace Sys2Proof.Machine

open Sys2Proof.Safety

/-- Settles O40: every command stays inside its write set, and so does every buffer. -/
theorem frameOfEveryCommand : Obligations.FrameOfEveryCommand := by
  intro i s t h
  have hframe := UnchangedOutside.exec h
  exact ⟨hframe, fun sp a hsp => by rw [hframe.spaceBytes_eq hsp]⟩

/-! ### The pairs of the error table (R231) -/

theorem code_of_encoding_cause {c : Cause} (h : c = .nameTooLong ∨ c = .emptyLabel ∨ c = .labelTooLong) :
    c.code = 1 := by
  rcases h with rfl | rfl | rfl <;> rfl

/-- An owner name raises a TruncatedAnswerError or an UnsupportedNameEncodingError, but no FIXED_FIELDS and no RDATA. -/
theorem code_of_owner_cause {c : Cause}
    (h : c = .noOwnerBytes ∨ c = .nameRunsOut ∨ c = .otherPointer ∨ c = .reservedLabelType ∨ c = .literalTooLong) :
    (c.code = 3 ∨ c.code = 4) ∧ (c.code = 3 → ¬ (c.sub = 3 ∨ c.sub = 4)) := by
  rcases h with rfl | rfl | rfl | rfl | rfl <;> decide

theorem code_of_record_cause {c : Cause} (h : c = .fixedFields ∨ c = .rdata) : c.code = 3 := by
  rcases h with rfl | rfl <;> rfl

/-- Settles O42: the ways a command ends (`exec_eq_next`), each with the codes of the causes it may raise. -/
theorem completionIsSuccessOrListedError : Obligations.CompletionIsSuccessOrListedError := by
  intro i s t hw h
  rcases exec_eq_next h with ⟨hwait, -⟩ | ⟨he, hu, hs⟩ | ⟨hread, -, rfl⟩ | ⟨s', c, p, -, rfl, hcause⟩
  · exact absurd (hw.symm.trans hwait) Bool.false_ne_true
  · exact .inl ⟨hs, he, hu⟩
  · exact .inr ⟨rfl, rfl, .inr (.inr (.inr ⟨rfl, rfl, hread⟩))⟩
  · refine .inr ⟨rfl, c.legalError, ?_⟩
    rcases hcause with ⟨henc, hc⟩ | ⟨hi, rfl⟩ | ⟨hi, -, hc⟩ | ⟨hi, hc⟩
    · exact .inl ⟨code_of_encoding_cause hc, henc⟩
    · have hwrites : (writeSet i).dstate = true ∧ (writeSet i).hdr = true := by rcases hi with rfl | rfl <;> decide
      exact .inr (.inl ⟨rfl, hwrites⟩)
    · have hown : (writeSet i).own = true := by rcases hi with rfl | rfl | rfl <;> rfl
      obtain ⟨hcode, hsub⟩ := code_of_owner_cause hc
      exact .inr (.inr (.inl ⟨hcode, hown, fun h3 hx => absurd hx (hsub h3)⟩))
    · have hwrites : (writeSet i).own = true ∧ (writeSet i).ans = true := by rcases hi with rfl | rfl <;> decide
      exact .inr (.inr (.inl ⟨.inl (code_of_record_cause hc), hwrites.1, fun _ _ => hwrites.2⟩))

end Sys2Proof.Machine

/-! ### Registers as the host reads and writes them (R21 to R23) -/

namespace Sys2Proof.Machine

open Sys2Proof.Safety

/-- Every register fits the 32 bits a read delivers (R21). -/
theorem Reg.width_le (r : Reg) : r.width ≤ 32 := by cases r <;> decide

/-- A read-only register ignores the write (R67). -/
theorem regWrite_of_ro {r : Reg} (s : State) (v : Nat) (h : r.access = .ro) : regWrite s v r = s := by
  cases r <;> simp [Reg.access, regWrite] at h ⊢

/-- A read-write register other than CMD reads as the low bits of the value written to it (R22). -/
theorem regRead_regWrite_self {r : Reg} (s : State) (v : Nat) (h : r.access = .rw) :
    regRead (regWrite s v r) r = BitVec.ofNat 32 (v % 2 ^ r.width) := by
  refine BitVec.eq_of_toNat_eq ?_
  cases r <;> simp [Reg.access] at h <;>
    simp [regRead, regWrite, Reg.width]

/-- Every other register is held elsewhere and reads as before. -/
theorem regRead_regWrite_of_ne {r r' : Reg} (s : State) (v : Nat) (h : r' ≠ r) :
    regRead (regWrite s v r) r' = regRead s r' := by
  cases hacc : r.access with
  | ro => rw [regWrite_of_ro s v hacc]
  | wo | rw => cases r <;> cases hacc <;> cases r' <;> first | rfl | exact absurd rfl h

/-- A write to a register leaves every byte of every space. -/
theorem spaceBytes_regWrite (s : State) (v : Nat) (r : Reg) (sp : Space) :
    spaceBytes (regWrite s v r) sp = spaceBytes s sp := by
  cases r <;> rfl

theorem regWrite_cmd (s : State) (v : Nat) (r : Reg) : (regWrite s v r).cmd = s.cmd := by cases r <;> rfl

theorem regWrite_host (s : State) (v : Nat) (r : Reg) : (regWrite s v r).host = s.host := by cases r <;> rfl

theorem regWrite_sameOutside (s : State) (v : Nat) (r : Reg) : SameOutside s (regWrite s v r) := by
  cases r <;> exact ⟨rfl, rfl, rfl, rfl, rfl⟩

/-- Which accesses the host still has to make is no register's value. -/
theorem regRead_withHost (s : State) (rest : List HostAction) (r : Reg) :
    regRead { s with host := rest } r = regRead s r := by cases r <;> rfl

/-- The values R21 lists are what the host reads, register by register. -/
theorem registerValues_eq_map (s : State) : registerValues s = Reg.all.map fun r => (regRead s r).toNat := by
  simp only [registerValues, Reg.all, List.cons_append, List.nil_append, List.map_cons, List.map_nil, regRead,
    BitVec.toNat_setWidth_of_le, Nat.reduceLeDiff]
  rfl

/-- Zero-extended, a value keeps the bound of its width. -/
theorem toNat_setWidth_lt {w v : Nat} (x : BitVec w) : (x.setWidth v).toNat < 2 ^ w := by
  rw [BitVec.toNat_setWidth]
  exact (Nat.mod_le _ _).trans_lt x.isLt

/-- A register reads as a value of its width. -/
theorem regRead_lt (s : State) (r : Reg) : (regRead s r).toNat < 2 ^ r.width := by
  cases r with
  | cmd => exact Nat.two_pow_pos 8
  | ttl => exact s.ans.ttl.isLt
  | addr => exact s.ans.addr.isLt
  | _ => exact toNat_setWidth_lt _

/-- Settles O50: a read-write register is one field, cut to its width, and no other register reads that field. -/
theorem registerWriteKeepsLowBits : Obligations.RegisterWriteKeepsLowBits :=
  fun s _ v hrw => ⟨regRead_regWrite_self s v hrw, fun _ hne => regRead_regWrite_of_ne s v hne⟩

/-- Settles O51: the step is `regWrite`, whose frame is read off register by register. -/
theorem stepWritesRegister : Obligations.StepWritesRegister := by
  intro s n v rest r hh hb hr hcmd
  refine ⟨regWrite { s with host := rest } v r, ?_, rfl, fun hrw => ?_, regWrite_of_ro _ v, fun r' hne => ?_,
    fun sp a => ?_, regWrite_cmd _ v r, regWrite_host _ v r, ?_⟩
  · rw [step_cons hh]
    exact hostWriteReg_reg hr hcmd hb
  · have hlt : v % 2 ^ r.width < 2 ^ 32 :=
      (Nat.mod_lt _ (Nat.two_pow_pos _)).trans_le (Nat.pow_le_pow_right (by decide) r.width_le)
    rw [regRead_regWrite_self _ v hrw, toNat_ofNat_of_lt hlt]
  · rw [regRead_regWrite_of_ne _ v hne, regRead_withHost]
  · rw [spaceBytes_regWrite]; rfl
  · have h := regWrite_sameOutside { s with host := rest } v r
    exact { h with }

/-- Settles O52: the number of a register is its place in the list of R21. -/
theorem stepReadsRegister : Obligations.StepReadsRegister := by
  intro s n rest r hh hb hr
  refine ⟨?_, fun hcmd => by rw [hcmd]; rfl, ?_, regRead_lt s r⟩
  · rw [step_cons hh, ← regRead_withHost s rest]
    exact hostReadReg_idle hr hb
  · rw [registerValues_eq_map, List.getElem?_map, show Reg.all[n]? = some r from hr, Option.map_some]

/-! ### Bytes the host writes and reads (R40, R42) -/

/-- The host may read back what it wrote, up to the capacity (R60). -/
theorem readableLen_of_hostWrites {sp : Space} (s : State) (hw : hostWrites sp = true) :
    readableLen s sp = spaceCap s.rxCap sp := by
  cases sp with
  | name | rx | q => rfl
  | tx | owner | addrstr => exact absurd hw Bool.false_ne_true

theorem regRead_storeByte (s : State) (a : Nat) (b : Byte) (sp : Space) (r : Reg) :
    regRead (storeByte s a b sp) r = regRead s r := by
  cases sp <;> cases r <;> rfl

theorem storeByte_busy (s : State) (a : Nat) (b : Byte) (sp : Space) : (storeByte s a b sp).busy = s.busy := by
  cases sp <;> rfl

theorem storeByte_cmd (s : State) (a : Nat) (b : Byte) (sp : Space) : (storeByte s a b sp).cmd = s.cmd := by
  cases sp <;> rfl

theorem storeByte_host (s : State) (a : Nat) (b : Byte) (sp : Space) : (storeByte s a b sp).host = s.host := by
  cases sp <;> rfl

theorem storeByte_sameOutside (s : State) (a : Nat) (b : Byte) (sp : Space) : SameOutside s (storeByte s a b sp) := by
  cases sp <;> exact ⟨rfl, rfl, rfl, rfl, rfl⟩

/-- A byte other than the one stored reads as before: it lies in another space, or at another index of this one. -/
theorem read_storeByte_of_ne {s : State} {sp sp' : Space} {a a' : Nat} (b : Byte) (hw : hostWrites sp = true)
    (hne : (sp', a') ≠ (sp, a)) : (spaceBytes (storeByte s a b sp) sp').read a' = (spaceBytes s sp').read a' := by
  rw [spaceBytes_storeByte _ _ _ _ _ hw]
  split
  · next hsp =>
    subst hsp
    exact Memory.read_write_of_ne _ b fun ha => hne (by rw [ha])
  · rfl

/-- A host read of a byte it can read delivers that byte (R65). -/
theorem step_readByte {s : State} {sp : Space} {a : Nat} {b : Byte} {rest : List HostAction}
    (hh : s.host = .readByte sp a :: rest) (hb : s.busy = false) (hcap : a < spaceCap s.rxCap sp)
    (hlen : a < readableLen s sp) (hread : (spaceBytes s sp).read a = some b) :
    step s = .next { s with host := rest, readData := some (b.setWidth 32) } := by
  have hlen' : a < readableLen { s with host := rest } sp := by cases sp <;> exact hlen
  have hread' : (spaceBytes { s with host := rest } sp).read a = some b := by cases sp <;> exact hread
  rw [step_cons hh]
  exact hostReadByte_value hcap hb hlen' hread'

/-- Settles O54: the store is `storeByte`, after which the byte stands below the readable length; the second clause is
`hostCanRead_bounds`. -/
theorem hostBytesReadBack : Obligations.HostBytesReadBack := by
  refine ⟨fun s sp a b rest hh hb hw ha => ?_, fun s sp a b rest hh hb hcan => ?_⟩
  · have hout := storeByte_sameOutside { s with host := .readByte sp a :: rest } a b sp
    refine ⟨storeByte { s with host := .readByte sp a :: rest } a b sp, ?_, ?_, fun sp' a' hne => ?_, fun r => ?_,
      storeByte_cmd _ a b sp, storeByte_host _ a b sp, { hout with }⟩
    · rw [step_cons hh]
      exact hostWriteByte_idle ha hb hw
    · have hcap : a < spaceCap (storeByte { s with host := .readByte sp a :: rest } a b sp).rxCap sp := by
        rw [hout.rxCap]; exact ha
      refine step_readByte (storeByte_host _ a b sp) ((storeByte_busy _ a b sp).trans hb) hcap ?_ ?_
      · rw [readableLen_of_hostWrites _ hw]; exact hcap
      · rw [spaceBytes_storeByte _ _ _ _ _ hw, if_pos rfl, Memory.read_write_self]
    · rw [read_storeByte_of_ne b hw hne]; cases sp' <;> rfl
    · rw [regRead_storeByte, regRead_withHost]
  · obtain ⟨hcap, hlen, hread⟩ := hostCanRead_bounds hcan
    exact step_readByte hh hb hcap hlen hread

/-- Settles O55: neither the readable length nor the bytes of a space depend on the host's accesses still to come. -/
theorem unspecifiedByteFaults : Obligations.UnspecifiedByteFaults := by
  intro s sp a rest hh hb ha hno
  have hno' : readableLen { s with host := rest } sp ≤ a ∨ (spaceBytes { s with host := rest } sp).read a = none := by
    cases sp <;> exact hno
  rw [step_cons hh]
  exact hostReadByte_none ha hb hno'

/-! ### Commands started at the port (R22, R24) -/

/-- Placing a command leaves the block not busy (R281). -/
theorem withFetchWord_not_busy (s : State) (nbits w : Nat) : (s.withFetchWord nbits w).busy = false := by
  simp [State.busy, State.withFetchWord, withCommand]

theorem decode_of_decodeTableWord {nbits w : Nat} {i : Instr} (h : decodeTableWord nbits w = some i) :
    decode (BitVec.ofNat 8 (w % 2 ^ nbits)) = .ok i := by
  unfold decodeTableWord at h
  split at h
  · next hd => cases h; exact hd
  · cases h

/-- A write of a command's code to CMD runs the command. -/
theorem step_command {s : State} {v : Nat} {rest : List HostAction} {i : Instr} (hh : s.host = .writeReg 0 v :: rest)
    (hb : s.busy = false) (hd : decode (BitVec.ofNat 8 v) = .ok i) :
    step s = exec i { s with host := rest, cmd := 0 } := by
  rw [step_cons hh]
  exact (hostWriteReg_cmd (s := { s with host := rest }) hb).trans (runCmd_ok hd)

/-- Settles O49: the second clause is the first, of the write that `withFetchWord` places. -/
theorem stepRunsTheCommand : Obligations.StepRunsTheCommand :=
  ⟨fun _ _ _ _ hh hb hd => step_command hh hb hd, fun s nbits w _ hd =>
    step_command (s := s.withFetchWord nbits w) rfl (withFetchWord_not_busy s nbits w) (decode_of_decodeTableWord hd)⟩

/-! ### The edges of the port, the busy block and the reset -/

/-- STATUS is register 1 and no other (R21). -/
theorem Reg.ofNum_status {n : Nat} : Reg.ofNum n = some .status → n = 1 := by
  intro h
  have hn : n < 35 := (Reg.ofNum_isSome n).mp (by rw [h]; rfl)
  revert h
  revert n
  decide

/-- Settles O53: each access of a busy block is one of the laws of the port. -/
theorem busyAccesses : Obligations.BusyAccesses := by
  refine ⟨fun s n v rest hh hb hn => ?_, fun s sp a b rest hh hb ha => ?_, fun s rest hh hb => ?_,
    fun s n rest hh hb hn hne => ⟨Config.busyRead s.busyReads, ?_⟩,
    fun s sp a rest hh hb ha => ⟨Config.busyRead s.busyReads, ?_⟩⟩
  · obtain ⟨r, hr⟩ := Reg.exists_ofNum hn
    rw [step_cons hh]
    exact hostWriteReg_busy hr hb
  · rw [step_cons hh]
    exact hostWriteByte_busy ha hb
  · rw [step_cons hh]
    exact hostReadReg_status
  · obtain ⟨r, hr⟩ := Reg.exists_ofNum hn
    have hstatus : r ≠ .status := fun h => hne (Reg.ofNum_status (h ▸ hr))
    rw [step_cons hh]
    exact hostReadReg_busy hr hb hstatus
  · rw [step_cons hh]
    exact hostReadByte_busy ha hb

theorem hostWriteReg_absent {n v : Nat} {s : State} (hn : 35 ≤ n) :
    hostWriteReg n v s = .fault (.noSuchRegister n) := by
  unfold hostWriteReg; rw [Reg.ofNum_none hn]

theorem hostReadReg_absent {n : Nat} {s : State} (hn : 35 ≤ n) : hostReadReg n s = .fault (.noSuchRegister n) := by
  unfold hostReadReg; rw [Reg.ofNum_none hn]

theorem hostWriteByte_absent {sp : Space} {a : Nat} {b : Byte} {s : State} (ha : spaceCap s.rxCap sp ≤ a) :
    hostWriteByte sp a b s = .fault (.noSuchByte sp a) := if_pos ha

theorem hostReadByte_absent {sp : Space} {a : Nat} {s : State} (ha : spaceCap s.rxCap sp ≤ a) :
    hostReadByte sp a s = .fault (.noSuchByte sp a) := if_pos ha

/-- Settles O57: each edge is one test of the port, made before the block is asked whether it is busy but for the refusal. -/
theorem portEdges : Obligations.PortEdges := by
  refine ⟨fun s n v rest hn => ⟨fun hh => ?_, fun hh => ?_⟩, fun s sp a b rest ha => ⟨fun hh => ?_, fun hh => ?_⟩,
    fun s sp a b rest hh hb ha hw => ?_, fun s hh => step_nil hh⟩
  · rw [step_cons hh]; exact hostWriteReg_absent hn
  · rw [step_cons hh]; exact hostReadReg_absent hn
  · rw [step_cons hh]; exact hostWriteByte_absent ha
  · rw [step_cons hh]; exact hostReadByte_absent ha
  · rw [step_cons hh]; exact hostWriteByte_refused ha hb hw

theorem regRead_resetBlock (s : State) (r : Reg) : regRead (resetBlock s) r = 0 := by cases r <;> rfl

theorem read_resetBlock (s : State) (sp : Space) (a : Nat) : (spaceBytes (resetBlock s) sp).read a = none := by
  cases sp <;> rfl

/-- Settles O56: the step is `resetBlock`, whose registers and bytes are those of `State.reset`. -/
theorem resetEvent : Obligations.ResetEvent := by
  intro s rest hh
  exact ⟨resetBlock { s with host := rest }, step_cons hh, regRead_resetBlock _, rfl, read_resetBlock _, rfl, rfl, rfl,
    rfl, rfl, fun hb => drawsAtReset_idle (s := { s with host := rest }) hb,
    drawsAtReset_cases { s with host := rest }⟩

/-- Settles O58: nothing has run, every group is empty, and RX_CAP is the default of R8. -/
theorem invariantAtReset : Obligations.InvariantAtReset :=
  inv_iff.mpr ⟨.of_no_error rfl (.inl rfl) rfl rfl,
    { rxCap := by decide, dstate := by decide, txlen := by decide, tx := exactly_nil, own := ownerOk_zero,
      ans := answerOk_zero, name := ⟨rfl, rfl⟩, rx := ⟨rfl, rfl⟩, q := ⟨rfl, rfl⟩ }⟩

/-! ### The hold (R253) -/

/-- A command's start overwrites STATUS and the error registers, so that a second start adds nothing. -/
theorem exec_start (i : Instr) (s : State) (hready : s.entropyReady = true) : exec i s.start = exec i s := by
  cases i with
  | buildHeader =>
    change withDraw _ s.start _ = withDraw _ s _
    rw [withDraw_ready (s := s.start) hready, withDraw_ready hready]; rfl
  | buildQuery =>
    change withDraw _ s.start _ = withDraw _ s _
    rw [withDraw_ready (s := s.start) hready, withDraw_ready hready]; rfl
  | packFlags | unpackFlags | encodeName | buildQuestion | parseHeader | skipQuestion | resolveOwner | parseAnswer
  | decode => rfl

/-- Short of a reset and of the entropy source's answer, nothing at the port of a busy block changes more than what the
host has read and what the source says of itself. -/
theorem hostAct_busy_eq_next {s t : State} {a : HostAction} (hb : s.busy = true) (hreset : a ≠ .reset)
    (hsource : a ≠ .entropy true) (h : hostAct a s = .next t) :
    ∃ ready n v, t = { s with entropyReady := ready, busyReads := n, readData := v } := by
  cases a with
  | writeReg n v =>
    by_cases hn : n < 35
    · obtain ⟨r, hr⟩ := Reg.exists_ofNum hn
      cases (hostWriteReg_busy hr hb).symm.trans h
      exact ⟨_, _, _, rfl⟩
    · cases (hostWriteReg_absent (by omega)).symm.trans h
  | readReg n =>
    by_cases hn : n < 35
    · obtain ⟨r, hr⟩ := Reg.exists_ofNum hn
      by_cases hstatus : r = .status
      · obtain rfl := Reg.ofNum_status (hstatus ▸ hr)
        cases hostReadReg_status.symm.trans h
        exact ⟨_, _, _, rfl⟩
      · cases (hostReadReg_busy hr hb hstatus).symm.trans h
        exact ⟨_, _, _, rfl⟩
    · cases (hostReadReg_absent (by omega)).symm.trans h
  | writeByte sp i b =>
    by_cases hi : i < spaceCap s.rxCap sp
    · cases (hostWriteByte_busy hi hb).symm.trans h
      exact ⟨_, _, _, rfl⟩
    · cases (hostWriteByte_absent (by omega)).symm.trans h
  | readByte sp i =>
    by_cases hi : i < spaceCap s.rxCap sp
    · cases (hostReadByte_busy hi hb).symm.trans h
      exact ⟨_, _, _, rfl⟩
    · cases (hostReadByte_absent (by omega)).symm.trans h
  | reset => exact absurd rfl hreset
  | entropy ready =>
    cases ready with
    | true => exact absurd rfl hsource
    | false => cases entropyAct_false.symm.trans h; exact ⟨_, _, _, rfl⟩

/-- The entropy source's answer takes up the command whose code stands in CMD. -/
theorem step_resume {s : State} {i : Instr} {rest : List HostAction} (hb : s.busy = true)
    (hd : decode s.cmd = .ok i) (hh : s.host = .entropy true :: rest) :
    step s = exec i { s with host := rest, entropyReady := true, cmd := 0 } := by
  rw [step_cons hh]
  exact entropyAct_resume (s := { s with host := rest }) hb hd

/-- Settles O60: the hold is `exec_waits`; a busy block keeps it (`hostAct_busy_eq_next`); and since the held state is a
start with the code in CMD, its command resumes as if it started then (`exec_start`). -/
theorem entropyHold : Obligations.EntropyHold := by
  refine ⟨fun i s hw => exec_waits hw, fun s t a rest hb hh hreset hsource h => ?_, fun i s h rest hw hx => ?_,
    fun s i rest hb hd hh => step_resume hb hd hh, fun s ready rest hb hh => ?_⟩
  · rw [step_cons hh] at h
    obtain ⟨ready, n, v, rfl⟩ := hostAct_busy_eq_next (s := { s with host := rest }) hb hreset hsource h
    exact ⟨hb, rfl, rfl, fun r => by cases r <;> rfl, fun sp x => by cases sp <;> rfl⟩
  · cases (exec_waits hw).symm.trans hx
    have hresume := step_resume (s := { s.hold i with host := .entropy true :: rest }) (rest := rest)
      (show statusBusy.getLsbD 0 = true by decide) (decode_encode i) rfl
    exact hresume.trans (exec_start i { s with host := rest, entropyReady := true, cmd := 0 } rfl)
  · rw [step_cons hh]
    exact entropyAct_idle (s := { s with host := rest }) hb

end Sys2Proof.Machine

/-! ### The command table (R120 to R122) -/

namespace Sys2Proof.Machine

open Sys2Proof.Safety

/-- A decoded instruction is that of a row which selects the code. -/
theorem decodeWith_eq_ok {c : Byte} {i : Instr} {rows : List CommandRow} (h : decodeWith c rows = .ok i) :
    ∃ r ∈ rows, r.selects c = true ∧ r.instr = i := by
  induction rows with
  | nil => cases h
  | cons r rs ih =>
    rw [decodeWith] at h
    split at h
    · next hsel => cases h; exact ⟨r, List.mem_cons_self, hsel, rfl⟩
    · obtain ⟨r', hmem, hr'⟩ := ih h
      exact ⟨r', List.mem_cons_of_mem _ hmem, hr'⟩

/-- Every row of the table tests the whole code, against the code of its command. -/
theorem commandTable_rows : ∀ r ∈ commandTable, r.mask = 0xFF ∧ r.pattern = encode r.instr := by decide

/-- A row of the table selects one code only. -/
theorem encode_of_selects {r : CommandRow} {c : Byte} (hr : r ∈ commandTable) (h : r.selects c = true) :
    encode r.instr = c := by
  obtain ⟨hmask, hpat⟩ := commandTable_rows r hr
  have hsel : c &&& r.mask = r.pattern := beq_iff_eq.mp h
  rw [hmask, hpat] at hsel
  exact hsel.symm.trans BitVec.and_allOnes

/-- A code decodes to a command exactly where it is that command's code. -/
theorem decode_eq_ok {c : Byte} {i : Instr} : decode c = .ok i ↔ encode i = c := by
  constructor
  · intro h
    obtain ⟨r, hr, hsel, rfl⟩ := decodeWith_eq_ok h
    exact encode_of_selects hr hsel
  · rintro rfl; exact decode_encode i

theorem wellFormedCode_encode (i : Instr) : wellFormedCode (encode i) = true := by cases i <;> rfl

/-- The codes R122 leaves legal are those of the table's rows. -/
theorem exists_row_of_wellFormedCode : ∀ c : Byte, wellFormedCode c = true → ∃ r ∈ commandTable, r.pattern = c := by
  decide

theorem exists_encode_eq_iff {c : Byte} : (∃ i, encode i = c) ↔ wellFormedCode c = true := by
  constructor
  · rintro ⟨i, rfl⟩; exact wellFormedCode_encode i
  · intro h
    obtain ⟨r, hr, hpat⟩ := exists_row_of_wellFormedCode c h
    exact ⟨r.instr, (commandTable_rows r hr).2.symm.trans hpat⟩

/-- Settles O47: each code is `encode` of its command. -/
theorem commandCodesDecode : Obligations.CommandCodesDecode :=
  ⟨decode_encode .packFlags, decode_encode .unpackFlags, decode_encode .buildHeader, decode_encode .encodeName,
    decode_encode .buildQuestion, decode_encode .buildQuery, decode_encode .parseHeader, decode_encode .skipQuestion,
    decode_encode .resolveOwner, decode_encode .parseAnswer, decode_encode .decode⟩

/-- Settles O48: a row of the table selects its command's code and no other (`decode_eq_ok`), and the rows are the codes
R122 leaves legal. -/
theorem decodeEncodeAgree : Obligations.DecodeEncodeAgree :=
  ⟨decode_encode, fun _ _ => decode_eq_ok.mp, fun c => by simp only [decode_eq_ok, exists_encode_eq_iff]⟩

/-- Settles O38: the write runs the code from CMD, and the table does not have it (`runCmd_illegal`). -/
theorem unknownCommandWritesNothing : Obligations.UnknownCommandWritesNothing := by
  intro s v rest hh hb hcode
  rw [step_cons hh]
  exact (hostWriteReg_cmd (s := { s with host := rest }) hb).trans (runCmd_illegal hcode)

/-! ### The name-encoding commands of a legal name (R160, R163, R165) -/

/-- A legal name of at most 253 bytes is encoded as its wire form, two bytes longer than its text. -/
theorem encodedName_of_nameIs {s : State} {ls : List (List Byte)} (hname : nameIs s ls) (hl : labelsOk ls)
    (hlen : (text ls).length ≤ 253) :
    encodedName s = .ok (wireName ls) ∧ (wireName ls).length = (text ls).length + 2 := by
  obtain ⟨hne, hsep, hn, hm⟩ := hname
  have hsplit : split (text ls) = ls := by rw [← join_eq_text, split_join hne hsep]
  have henc : encodedName s = .ok (wireName ls) := encodedName_eq_ok.mpr
    ⟨by omega, text ls, hn.symm, hm, by rw [hsplit]; exact hl, by rw [hsplit, wire_eq_wireName]⟩
  exact ⟨henc, by rw [(length_encodedName henc).1, hn]⟩

/-- NAMELEN is the length of the text NAME holds. -/
theorem namelen_of_nameIs {s : State} {ls : List (List Byte)} (hname : nameIs s ls) :
    s.namelen.toNat = (text ls).length := by
  obtain ⟨-, -, hn, -⟩ := hname
  exact hn

theorem exec_encodeName_ok {s : State} {out : List Byte} (h : encodedName s = .ok out) :
    exec .encodeName s = .next ((s.start.setTx out).setCur s.namelen.toNat).succeed := by
  rw [exec, execEncodeName, h, conclude_ok]

theorem exec_buildQuestion_ok {s : State} {out : List Byte} (h : encodedName s = .ok out) :
    exec .buildQuestion s = .next ((s.start.setTx (questionBytes out)).setCur s.namelen.toNat).succeed := by
  rw [exec, execBuildQuestion, h, conclude_ok]

theorem exec_buildHeader_ready {s : State} (hready : s.entropyReady = true) :
    exec .buildHeader s = .next ((s.takeDraw.start.setQueryHeader (Config.draw16 s.draws)).setTx
      (headerBytes (queryHeader (Config.draw16 s.draws)))).succeed := withDraw_ready hready

theorem exec_buildQuery_ok {s : State} {out : List Byte} (hready : s.entropyReady = true)
    (h : encodedName s = .ok out) :
    exec .buildQuery s = .next (((s.takeDraw.start.setQueryHeader (Config.draw16 s.draws)).setTx
      (headerBytes (queryHeader (Config.draw16 s.draws)) ++ questionBytes out)).setCur s.namelen.toNat).succeed := by
  have hdraw : encodedName s.takeDraw = .ok out := h
  rw [exec, execBuildQuery, withDraw_ready hready, buildQueryWith, hdraw, conclude_ok]
  rfl

/-- R100: QTYPE A and QCLASS IN are the bytes 00 01 00 01. -/
theorem questionBytes_eq (out : List Byte) : questionBytes out = out ++ [0, 1, 0, 1] := by
  rw [questionBytes, List.append_assoc]; rfl

/-- Settles O5: the name encodes to its wire form (`encodedName_of_nameIs`), which the command writes to TX. -/
theorem encodeNameSucceeds : Obligations.EncodeNameSucceeds := by
  intro s ls hname hl hlen
  obtain ⟨henc, hwire⟩ := encodedName_of_nameIs hname hl hlen
  rw [exec_encodeName_ok henc, State.setTx, hwire, namelen_of_nameIs hname]
  rfl

/-- Settles O6: as ENCODE_NAME, with the four bytes of QTYPE and QCLASS behind the name. -/
theorem buildQuestionSucceeds : Obligations.BuildQuestionSucceeds := by
  intro s ls hname hl hlen
  obtain ⟨henc, hwire⟩ := encodedName_of_nameIs hname hl hlen
  rw [exec_buildQuestion_ok henc, State.setTx, length_questionBytes, hwire, questionBytes_eq, namelen_of_nameIs hname]
  rfl

/-- Settles O13: the three commands share the encoded name, and BUILD_QUERY's bytes are the twelve of the header followed
by those of the question. -/
theorem buildQueryIsHeaderThenQuestion : Obligations.BuildQueryIsHeaderThenQuestion := by
  intro s h q hready hh hq he
  cases (exec_buildHeader_ready hready).symm.trans hh
  rcases execBuildQuestion_eq_next hq with ⟨out, hout, rfl⟩ | ⟨c, p, -, rfl⟩
  · have hlen := (length_encodedName hout).2
    refine ⟨_, exec_buildQuery_ok hready hout, rfl, rfl, rfl, rfl, ?_, fun a ha => ?_, fun a => ?_⟩
    · change (BitVec.ofNat 9 (_ ++ questionBytes out).length).toNat =
        (BitVec.ofNat 9 12).toNat + (BitVec.ofNat 9 (questionBytes out).length).toNat
      rw [List.length_append, length_headerBytes, length_questionBytes, toNat_ofNat_of_lt (by omega),
        toNat_ofNat_of_lt (by omega), toNat_ofNat_of_lt (by omega)]
    · change (Memory.ofBytes 0 _).read a = (Memory.ofBytes 0 _).read a
      rw [Memory.read_ofBytes_zero, Memory.read_ofBytes_zero, List.getElem?_append_left (by rwa [length_headerBytes])]
    · change (Memory.ofBytes 0 _).read (12 + a) = (Memory.ofBytes 0 _).read a
      rw [Memory.read_ofBytes_zero, Memory.read_ofBytes_zero,
        List.getElem?_append_right (by rw [length_headerBytes]; omega), length_headerBytes, Nat.add_sub_cancel_left]
  · exact absurd he c.code_ne_zero

/-! ### The errors of the owner name (R190 to R193, R231) -/

/-- Labels at the start of a name are no pointer: a legal label's length byte is not C0. -/
theorem pointerAt_labels {m : Memory} {n c : Nat} {ls : List (List Byte)} (hne : ls ≠ []) (hl : labelsOk ls)
    (hm : holdsAt m c (wirePrefix ls)) : pointerAt m n c = .ok false := by
  cases ls with
  | nil => exact absurd rfl hne
  | cons l ls =>
    obtain ⟨⟨-, hlong⟩, -⟩ := labelsOk_cons.mp hl
    refine pointerAt_first_ne (holdsAt_cons.mp hm).1 fun h => ?_
    have hlen : l.length = 0xC0 := by
      rw [← toNat_ofNat_of_lt (show l.length < 2 ^ 8 by omega), h]; rfl
    omega

/-- The pointer test says no where the pair C0 0C does not stand whole: the first byte differs, or it is the last of the
message, or the second byte differs. -/
theorem pointerAt_not_pair {m : Memory} {n c : Nat} {b : Byte} (hb : m.read c = some b)
    (hpair : b = 0xC0 → c + 1 < n → ∃ b', m.read (c + 1) = some b' ∧ b' ≠ 0x0C) : pointerAt m n c = .ok false := by
  by_cases hfirst : b = 0xC0
  · by_cases hn : c + 1 < n
    · obtain ⟨b', hb', hne⟩ := hpair hfirst hn
      have hlo : ¬ b' = Config.ptrLo := hne
      rw [pointerAt, if_neg (by unfold rem; omega), rxU8_eq_ok.mpr hb, Res.bind_ok,
        if_pos (show b = Config.ptrHi from hfirst), rxU8_eq_ok.mpr hb', Res.bind_ok, decide_eq_false hlo]
    · rw [pointerAt, if_pos (by unfold rem; omega)]
  · exact pointerAt_first_ne hb hfirst

/-- A name that is no pointer is walked past its legal labels, with passes left. -/
theorem resolveOwner_walk {m : Memory} {n c : Nat} {ls : List (List Byte)} (hp : pointerAt m n c = .ok false)
    (hl : labelsOk ls) (hw : (wirePrefix ls).length + 1 ≤ 255) (hc : c < n) (hn : c + (wirePrefix ls).length ≤ n)
    (hm : holdsAt m c (wirePrefix ls)) :
    ∃ fuel, resolveOwner m n c = literalWalk m n c (fuel + 1) (c + (wirePrefix ls).length) ls := by
  have hcount := two_mul_length_le hl
  have hfuel : walkFuel = 127 - ls.length + 1 + ls.length := by simp only [walkFuel]; omega
  refine ⟨127 - ls.length, ?_⟩
  rw [resolveOwner, needRx_pass hc, Res.bind_ok, hp, Res.bind_ok, if_neg Bool.false_ne_true, hfuel,
    literalWalk_labels _ _ _ hl hn (by omega) hm, List.nil_append]

/-- RESOLVE_OWNER of a name that raises an error (R236). -/
theorem exec_resolveOwner_raise {s : State} {e : Cause} {p : Nat} (hlen : s.rxlen.toNat ≤ s.rxCap.toNat)
    (h : resolveOwner s.rx s.rxlen.toNat s.ansoff.toNat = .raise e p) :
    exec .resolveOwner s = .next (ownerErrorAt s e.code e.sub p) := by
  rw [exec, execResolveOwner, guardRxLen_pass (s := s.start) hlen, h, conclude_raise, State.fail,
    owner_stage (resolveOwner_eq_raise h).1]
  rfl

/-- The walk stands, after legal labels, at a length byte inside the message. -/
theorem resolveOwner_of_walked {s : State} {ls : List (List Byte)} {b : Byte} (hw : walked s ls)
    (hin : s.ansoff.toNat + (wirePrefix ls).length < s.rxlen.toNat)
    (hb : s.rx.read (s.ansoff.toNat + (wirePrefix ls).length) = some b)
    (hpair : ls = [] → b = 0xC0 → s.ansoff.toNat + 1 < s.rxlen.toNat →
      ∃ b' : Byte, s.rx.read (s.ansoff.toNat + 1) = some b' ∧ b' ≠ 0x0C) :
    ∃ fuel, resolveOwner s.rx s.rxlen.toNat s.ansoff.toNat =
      literalWalk s.rx s.rxlen.toNat s.ansoff.toNat (fuel + 1) (s.ansoff.toNat + (wirePrefix ls).length) ls := by
  obtain ⟨-, hl, hroom, hn, hm⟩ := hw
  have hp : pointerAt s.rx s.rxlen.toNat s.ansoff.toNat = .ok false := by
    by_cases hls : ls = []
    · subst hls; exact pointerAt_not_pair hb (hpair rfl)
    · exact pointerAt_labels hls hl hm
  exact resolveOwner_walk hp hl hroom (by omega) hn hm

/-- Settles O22: the name is no pointer, and the walk meets the byte after its labels. -/
theorem otherPointerRejected : Obligations.OtherPointerRejected := by
  intro s ls b hw hin hb hptr hpair
  obtain ⟨fuel, hwalk⟩ := resolveOwner_of_walked hw hin hb hpair
  have hraise := hwalk.trans (literalWalk_byte hin hb)
  rw [if_neg (by omega), if_pos hptr] at hraise
  exact exec_resolveOwner_raise hw.1 hraise

/-- Settles O23: such a byte begins no pointer, and the walk meets it after its labels. -/
theorem reservedLabelTypeRejected : Obligations.ReservedLabelTypeRejected := by
  intro s ls b hw hin hb hlo hhi
  have hpair : b ≠ 0xC0 := fun h => absurd hhi (by rw [h]; decide)
  obtain ⟨fuel, hwalk⟩ := resolveOwner_of_walked hw hin hb fun _ h => absurd h hpair
  have hraise := hwalk.trans (literalWalk_byte hin hb)
  rw [if_neg (by omega), if_neg (by omega), if_pos hlo] at hraise
  exact exec_resolveOwner_raise hw.1 hraise

/-! ### The decoder's commands, one inside another (R127) -/

/-- PARSE_ANSWER of a record that raises an error (R236). -/
theorem exec_parseAnswer_raise {s : State} {e : Cause} {p : Nat} (hlen : s.rxlen.toNat ≤ s.rxCap.toNat)
    (h : parseRecord s.rx s.rxlen.toNat s.ansoff.toNat = .raise e p) :
    exec .parseAnswer s = .next (s.start.fail (writeSet .parseAnswer) e p) := by
  rw [exec, execParseAnswer, guardRxLen_pass (s := s.start) hlen, h, conclude_raise]

/-- DECODE of a message whose stages succeed. -/
theorem exec_decode_ok {s : State} {hr : Header × ParsedRecord} (hlen : s.rxlen.toNat ≤ s.rxCap.toNat)
    (h : decodeStages s = .ok hr) :
    exec .decode s = .next (((s.start.setParsedHeader hr.1).setAnsoff (answerOffset s)).setRecord hr.2).succeed := by
  rw [exec, execDecode, guardRxLen_pass (s := s.start) hlen, h, conclude_ok]

/-- DECODE of a message one of whose stages raises an error (R236). -/
theorem exec_decode_raise {s : State} {e : Cause} {p : Nat} (hlen : s.rxlen.toNat ≤ s.rxCap.toNat)
    (h : decodeStages s = .raise e p) :
    exec .decode s = .next (s.start.fail (writeSet .decode) e p) := by
  rw [exec, execDecode, guardRxLen_pass (s := s.start) hlen, h, conclude_raise]

/-- Settles O32: PARSE_ANSWER begins with the owner name, and its write set is that of RESOLVE_OWNER with the answer
group. -/
theorem parseAnswerOwnerErrors : Obligations.ParseAnswerOwnerErrors := by
  intro s t h he he5
  rcases execResolveOwner_eq_next h with ⟨-, rfl⟩ | ⟨hlen, ⟨o, -, rfl⟩ | ⟨c, p, hr, rfl⟩⟩
  · exact absurd rfl he5
  · exact absurd rfl he
  · have hrec : parseRecord s.rx s.rxlen.toNat s.ansoff.toNat = .raise c p := by
      rw [parseRecord, hr, Res.bind_raise]
    exact exec_parseAnswer_raise hlen hrec

/-- An echoed question leaves room for the header before it (R188). -/
theorem rxlen_of_echoVerbatim {s : State} (h : echoVerbatim s = true) : 12 + s.qlen.toNat ≤ s.rxlen.toNat := by
  unfold echoVerbatim at h
  exact of_decide_eq_true (Bool.and_eq_true_iff.mp h).1

/-- ANSOFF holds the offset of the answer whole. -/
theorem toNat_answerOffset (s : State) : (BitVec.ofNat 16 (answerOffset s)).toNat = answerOffset s := by
  have hq := s.qlen.isLt
  exact toNat_ofNat_of_lt (by unfold answerOffset Config.headerLen; omega)

/-- PARSE_HEADER, then SKIP_QUESTION, on a message long enough for a header: the header and the offset of the answer
(R182, R186). -/
theorem parseHeader_then_skipQuestion {s a b : State} (hlen : s.rxlen.toNat ≤ s.rxCap.toNat) (hn : 12 ≤ s.rxlen.toNat)
    (ha : exec .parseHeader s = .next a) (hb : exec .skipQuestion a = .next b) :
    ∃ h, parseHeader s.rx s.rxlen.toNat = .ok h ∧
      b = { s with
        hdr := h, fld := unpackFlags h.flags, ansoff := BitVec.ofNat 16 (answerOffset s),
        cur := BitVec.ofNat 16 (answerOffset s), dstate := DState.awaitingOwnerName.num, status := statusDone,
        errcode := 0, errsub := 0 } := by
  rcases execParseHeader_eq_next ha with ⟨hbad, -⟩ | ⟨-, ⟨h, hh, rfl⟩ | ⟨e, p, hraise, -⟩⟩
  · omega
  · cases hb
    exact ⟨h, hh, by simp only [answerOffset, State.succeed, State.start, State.setDstate, State.setCur,
      State.setAnsoff, State.setParsedHeader, State.setFld, State.setHdr]⟩
  · have hshort := (parseHeader_eq_raise.mp hraise).1
    omega

/-- The state a record leaves, field by field (R196, R235). -/
theorem setRecord_succeed (s : State) (r : ParsedRecord) :
    (s.setRecord r).succeed =
      { s with
        own := r.owner.group, ans := r.answer, cur := BitVec.ofNat 16 r.stop, dstate := DState.done.num,
        status := statusDone, errcode := 0, errsub := 0 } := by
  simp only [State.succeed, State.setRecord, State.setDstate, State.setCur, State.setAns, State.setOwn]

/-- The state an error leaves after PARSE_ANSWER, field by field (R236). -/
theorem fail_parseAnswer (s : State) {e : Cause} {d : DState} (hd : e.stage = some d) (p : Nat) :
    s.fail (writeSet .parseAnswer) e p =
      { s with
        own := Owner.zero, ans := Answer.zero, cur := BitVec.ofNat 16 p, dstate := d.num, status := statusError,
        errcode := e.code, errsub := e.sub } := by
  rw [State.fail, hd]; rfl

/-- The state an error leaves after DECODE, field by field (R236). -/
theorem fail_decode (s : State) {e : Cause} {d : DState} (hd : e.stage = some d) (p : Nat) :
    s.fail (writeSet .decode) e p =
      { s with
        hdr := Header.zero, fld := FlagFields.zero, ansoff := 0, own := Owner.zero, ans := Answer.zero,
        cur := BitVec.ofNat 16 p, dstate := d.num, status := statusError, errcode := e.code, errsub := e.sub } := by
  rw [State.fail, hd]; rfl

/-- Settles O35: an echoed question rules out SHORT_HEADER, so that PARSE_ANSWER parses the record at the offset DECODE
parses it at; the two then differ only in what an error clears. -/
theorem decodeIsItsThreeStages : Obligations.DecodeIsItsThreeStages := by
  intro s a b c hecho hlen ha hb hc
  have hroom := rxlen_of_echoVerbatim hecho
  obtain ⟨h, hh, rfl⟩ := parseHeader_then_skipQuestion hlen (by omega) ha hb
  rcases execParseAnswer_eq_next hc with ⟨hbad, -⟩ | ⟨-, ⟨r, hr, hc⟩ | ⟨e, p, hr, hc⟩⟩
  · dsimp only at hbad
    omega
  · dsimp only at hr
    rw [toNat_answerOffset] at hr
    rw [setRecord_succeed] at hc
    have hdecode := exec_decode_ok (hr := (h, r)) hlen (decodeStages_eq_ok.mpr ⟨hh, hr⟩)
    rw [hdecode, setRecord_succeed, hc, if_pos rfl]
    rfl
  · dsimp only at hr
    rw [toNat_answerOffset] at hr
    obtain ⟨d, hd⟩ := parseRecord_stage hr
    rw [fail_parseAnswer _ hd] at hc
    have hdecode := exec_decode_raise hlen (decodeStages_eq_raise.mpr (.inr ⟨h, hh, hr⟩))
    rw [hdecode, fail_decode _ hd, hc, if_neg e.code_ne_zero]
    rfl

end Sys2Proof.Machine

/-! ### The flag packer and unpacker (R140 to R144): shifts and masks against the fields' bit positions -/

namespace Sys2Proof.Machine

open Sys2Proof.Safety

/-- R140's shifts and ors set the fields side by side. -/
theorem packFlags_eq_wordOf (f : FlagFields) : packFlags f = wordOf f := by
  have hparts : packFlags f = (wordOf f).setWidth 16 := by
    simp only [packFlags, wordOf, BitVec.setWidth_append_eq_shiftLeft_setWidth_or, BitVec.shiftLeft_or_distrib,
      ← BitVec.shiftLeft_add, BitVec.ofNat_eq_ofNat, BitVec.setWidth_zero, BitVec.or_zero]
  rw [hparts, BitVec.setWidth_eq]

/-- R93: masking the `n` bits from bit `i` on, then shifting them down, extracts them. -/
theorem setWidth_and_mask_shift (w : Word16) (i n : Nat) :
    ((w &&& ((BitVec.allOnes n).setWidth 16 <<< i)) >>> i).setWidth n = w.extractLsb' i n := by
  ext j hj
  have hbound (hb : w.getLsbD (i + j) = true) : i + j < 16 ∧ j < 16 := by
    have hlt := BitVec.lt_of_getLsbD hb
    omega
  simpa [hj] using hbound

/-- R142's masks and shifts take each field from its bits. -/
theorem unpackFlags_eq_fieldsOf (w : Word16) : unpackFlags w = fieldsOf w := by
  simp only [fieldsOf, ← setWidth_and_mask_shift]
  rfl

/-- The fields of a packed word are the fields packed (R144). -/
theorem fieldsOf_wordOf (f : FlagFields) : fieldsOf (wordOf f) = f := by
  simp (disch := decide) only [fieldsOf, wordOf, BitVec.extractLsb'_append_eq_of_le, BitVec.extractLsb'_append_eq_right,
    BitVec.extractLsb'_eq_self, Nat.reduceSub]

/-- A word as the packer sees it: the fields above the reserved bits, the reserved bits 6:4, and RCODE. -/
theorem word_eq_parts (w : Word16) : w = w.extractLsb' 7 9 ++ w.extractLsb' 4 3 ++ w.extractLsb' 0 4 := by
  simp only [BitVec.extractLsb'_append_extractLsb'_eq_extractLsb']
  exact BitVec.extractLsb'_eq_self.symm

/-- Packing a word's own fields clears its reserved bits (R144). -/
theorem wordOf_fieldsOf (w : Word16) :
    wordOf (fieldsOf w) = w.extractLsb' 7 9 ++ (0 : BitVec 3) ++ w.extractLsb' 0 4 := by
  simp only [wordOf, fieldsOf, BitVec.extractLsb'_append_extractLsb'_eq_extractLsb']

/-- A mask of three parts with the middle one clear keeps the outer parts. -/
theorem append_and_mask {a b c : Nat} (hi : BitVec a) (mid : BitVec b) (lo : BitVec c) :
    (hi ++ mid ++ lo) &&& (BitVec.allOnes a ++ 0#b ++ BitVec.allOnes c) = hi ++ 0#b ++ lo := by
  simp only [BitVec.and_append, BitVec.and_allOnes, BitVec.and_zero]

theorem and_mask_eq_parts (w : Word16) :
    w &&& 0xFF8F#16 = w.extractLsb' 7 9 ++ (0 : BitVec 3) ++ w.extractLsb' 0 4 := by
  have hmask : 0xFF8F#16 = BitVec.allOnes 9 ++ 0#3 ++ BitVec.allOnes 4 := by decide
  conv_lhs => rw [word_eq_parts w, hmask]
  exact append_and_mask _ _ _

theorem wordOf_fieldsOf_eq_self_iff {w : Word16} : wordOf (fieldsOf w) = w ↔ w.extractLsb' 4 3 = 0 := by
  rw [wordOf_fieldsOf]
  conv_lhs => rhs; rw [word_eq_parts w]
  rw [BitVec.append_left_inj, BitVec.append_right_inj, eq_comm]

/-- The reserved bits of a packed word are 0, and a word whose reserved bits are 0 is packed from its own fields. -/
theorem exists_wordOf_eq_iff {w : Word16} : (∃ f, wordOf f = w) ↔ w.extractLsb' 4 3 = 0 := by
  rw [← wordOf_fieldsOf_eq_self_iff]
  constructor
  · rintro ⟨f, rfl⟩; rw [fieldsOf_wordOf]
  · intro h; exact ⟨fieldsOf w, h⟩

/-- Settles O1: the command succeeds with the packed word, which is `wordOf` (`packFlags_eq_wordOf`). -/
theorem packFlagsResult : Obligations.PackFlagsResult := by
  intro s
  rw [← packFlags_eq_wordOf]
  rfl

/-- Settles O2: the command succeeds with the unpacked fields, which are `fieldsOf` (`unpackFlags_eq_fieldsOf`). -/
theorem unpackFlagsResult : Obligations.UnpackFlagsResult := by
  intro s
  rw [← unpackFlags_eq_fieldsOf]
  rfl

/-- Settles O3: by `packFlags_eq_wordOf` and `unpackFlags_eq_fieldsOf` the laws are those of `wordOf` and `fieldsOf`. -/
theorem flagsRoundTripLaws : Obligations.FlagsRoundTripLaws := by
  simp only [Obligations.FlagsRoundTripLaws, packFlags_eq_wordOf, unpackFlags_eq_fieldsOf]
  exact ⟨fieldsOf_wordOf, fun w => (wordOf_fieldsOf w).trans (and_mask_eq_parts w).symm,
    fun _ => wordOf_fieldsOf_eq_self_iff, Function.LeftInverse.injective fieldsOf_wordOf, fun _ => exists_wordOf_eq_iff⟩

end Sys2Proof.Machine

/-! ### The query header (R151, R152) -/

namespace Sys2Proof.Machine

open Sys2Proof.Safety

/-- A query's flag fields: RD alone is set (R151). -/
theorem queryFields_eq : queryFields = ⟨0, 0, 0, 0, 1, 0, 0⟩ := rfl

/-- A query's header: its MessageID, the flags word 0x0100, one question (R152). -/
theorem queryHeader_eq (r : Word16) : queryHeader r = ⟨r, 0x0100#16, 1, 0, 0, 0⟩ := by
  rw [queryHeader, show packFlags queryFields = 0x0100#16 by decide]

/-- The twelve bytes of a query's header: the MessageID big-endian, then ten that do not depend on it (R152). -/
theorem headerBytes_queryHeader (r : Word16) :
    headerBytes (queryHeader r) = bytes16 r ++ [0x01, 0x00, 0x00, 0x01, 0x00, 0x00, 0x00, 0x00, 0x00, 0x00] := by
  have htail : bytes16 0x0100#16 ++ bytes16 1 ++ bytes16 0 ++ bytes16 0 ++ bytes16 0 =
      [0x01, 0x00, 0x00, 0x01, 0x00, 0x00, 0x00, 0x00, 0x00, 0x00] := by decide
  rw [queryHeader_eq, headerBytes, ← htail]
  simp only [List.append_assoc]

/-- Settles O4: the command goes on with the draw (`exec_buildHeader_ready`), and the query's header has these registers
and these bytes. -/
theorem buildHeaderResult : Obligations.BuildHeaderResult := by
  intro s hready
  rw [exec_buildHeader_ready hready, State.setQueryHeader, State.setTx, length_headerBytes, headerBytes_queryHeader,
    queryHeader_eq, queryFields_eq]
  rfl

/-- A query is the encoded name with sixteen bytes around it: its header, QTYPE and QCLASS (R165). -/
theorem length_queryBytes (h : Header) (out : List Byte) :
    (headerBytes h ++ questionBytes out).length = out.length + 16 := by
  rw [List.length_append, length_headerBytes, length_questionBytes]; omega

/-- Settles O7: as BUILD_QUESTION, behind the twelve bytes of the query's header. -/
theorem buildQuerySucceeds : Obligations.BuildQuerySucceeds := by
  intro s ls hready hname hl hlen
  obtain ⟨henc, hwire⟩ := encodedName_of_nameIs hname hl hlen
  rw [exec_buildQuery_ok hready henc, State.setQueryHeader, State.setTx, length_queryBytes, hwire,
    headerBytes_queryHeader, questionBytes_eq, ← List.append_assoc, queryHeader_eq, queryFields_eq,
    namelen_of_nameIs hname]
  rfl

/-- PARSE_HEADER of a message whose header is there. -/
theorem exec_parseHeader_ok {s : State} {h : Header} (hlen : s.rxlen.toNat ≤ s.rxCap.toNat)
    (hh : parseHeader s.rx s.rxlen.toNat = .ok h) :
    exec .parseHeader s = .next
      (((s.start.setParsedHeader h).setCur Config.headerLen).setDstate .awaitingQuestionSkip).succeed := by
  rw [exec, execParseHeader, guardRxLen_pass (s := s.start) hlen, hh, conclude_ok]

/-- A header's own bytes, from index 0 on, parse to it (R185). -/
theorem parseHeader_headerBytes (h : Header) {n : Nat} (hn : 12 ≤ n) :
    parseHeader (Memory.ofBytes 0 (headerBytes h)) n = .ok h :=
  parseHeader_eq_ok.mpr ⟨hn, holdsAt_ofBytes _⟩

/-- Settles O17: TX holds the bytes of the query's header, which parse to it (`parseHeader_headerBytes`), and its flags
word unpacks to the fields it was packed from (R144). -/
theorem headerRoundTrip : Obligations.HeaderRoundTrip := by
  intro r s t h hcap
  obtain ⟨hfields, -⟩ := flagsRoundTripLaws
  cases h
  exact ⟨_, exec_parseHeader_ok hcap (parseHeader_headerBytes (queryHeader r) (le_refl 12)), queryHeader_eq r,
    hfields queryFields, rfl, rfl, rfl⟩

/-! ### Names that are not encoded (R154 to R157, R236) -/

/-- A command that encodes NAME ends with an EncodingError where the encoding raises one, whether it is the name alone, a
question or a query, for whose draw the entropy source answers. -/
theorem exec_encodedName_raise {i : Instr} {s : State} {c : Cause} {p : Nat} (hi : encodesName i = true)
    (hw : waits s i = false) (h : encodedName s = .raise c p) :
    exec i s = .next (encodingErrorAt i s c.sub p) := by
  have hcode : c.code = 1 := code_of_encoding_cause (encodedName_eq_raise h).1
  cases i with
  | encodeName => rw [exec, execEncodeName, h, conclude_raise, State.fail, hcode]; rfl
  | buildQuestion => rw [exec, execBuildQuestion, h, conclude_raise, State.fail, hcode]; rfl
  | buildQuery =>
    have hdraw : encodedName s.takeDraw = .raise c p := h
    rw [exec, execBuildQuery, withDraw_ready (entropyReady_of_not_waits rfl hw), buildQueryWith, hdraw, conclude_raise,
      State.fail, hcode]
    rfl
  | packFlags | unpackFlags | buildHeader | parseHeader | skipQuestion | resolveOwner | parseAnswer | decode =>
    exact absurd hi Bool.false_ne_true

/-- A name of more than 253 bytes is refused before any byte of it is read (R154). -/
theorem encodeName_tooLong {n : Nat} (r : Res (List Byte)) (hn : 253 < n) :
    encodeName n r = .raise .nameTooLong 0 := if_pos (show 255 < n + 2 by omega)

/-- The labels of a name of at most 253 bytes decide whether it is encoded (R153). -/
theorem encodedName_of_checkLabels {s : State} {ls : List (List Byte)} {c : Cause} {p : Nat} (hname : nameIs s ls)
    (hlen : (text ls).length ≤ 253) (h : checkLabels 0 ls = .raise c p) : encodedName s = .raise c p := by
  obtain ⟨hne, hsep, hn, hm⟩ := hname
  have hsplit : split (text ls) = ls := by rw [← join_eq_text, split_join hne hsep]
  have hread : nameBytes s = .ok (text ls) := readBytes_eq_ok.mpr ⟨hn.symm, hm⟩
  have hfit : ¬ Config.maxNameWire < s.namelen.toNat + 2 := by unfold Config.maxNameWire; omega
  rw [encodedName, encodeName, if_neg hfit, hread, Res.bind_ok, hsplit, h, Res.bind_raise]

/-- The check stops at the first empty label, where it starts (R155). -/
theorem checkLabels_empty {ls : List (List Byte)} (ls' : List (List Byte)) (hl : labelsOk ls) :
    checkLabels 0 (ls ++ [] :: ls') = .raise .emptyLabel (ls.map fun l => l.length + 1).sum := by
  rw [checkLabels_append hl, checkLabels_cons, if_pos List.length_nil, Nat.zero_add]

/-- The check stops at the first label of more than 63 bytes, where it starts (R156). -/
theorem checkLabels_long {ls : List (List Byte)} {l : List Byte} (ls' : List (List Byte)) (hl : labelsOk ls)
    (hlong : 63 < l.length) :
    checkLabels 0 (ls ++ l :: ls') = .raise .labelTooLong (ls.map fun l => l.length + 1).sum := by
  rw [checkLabels_append hl, checkLabels_cons, if_neg (by omega), if_pos (show Config.maxLabel < l.length from hlong),
    Nat.zero_add]

/-- Settles O8: the length is tested before NAME is read (`encodeName_tooLong`). -/
theorem nameTooLongOnLengthAlone : Obligations.NameTooLongOnLengthAlone := fun _ s hi hw hn =>
  exec_encodedName_raise hi hw (encodeName_tooLong (nameBytes s) hn)

/-- Settles O9: the check passes over the legal labels and stops at the empty one (`checkLabels_empty`). -/
theorem emptyLabelRejected : Obligations.EmptyLabelRejected := fun _ _ _ ls' hi hw hname hl hlen =>
  exec_encodedName_raise hi hw (encodedName_of_checkLabels hname hlen (checkLabels_empty ls' hl))

/-- Settles O10: the check passes over the legal labels and stops at the long one (`checkLabels_long`). -/
theorem longLabelRejected : Obligations.LongLabelRejected := fun _ _ _ _ ls' hi hw hname hl hlong hlen =>
  exec_encodedName_raise hi hw (encodedName_of_checkLabels hname hlen (checkLabels_long ls' hl hlong))

/-! ### The length of what is encoded (R158, R166) -/

/-- The wire form of a byte string's labels is two bytes longer than the string (R158). -/
theorem length_wire_split (bs : List Byte) : (wire (split bs)).length = bs.length + 2 := by
  rw [wire_eq_wireName, length_wireName, length_wirePrefix (split_ne_nil bs), join_split]

/-- The empty string has no legal labels: its one label is empty (R155). -/
theorem length_pos_of_labelsOk_split {bs : List Byte} (h : labelsOk (split bs)) : 1 ≤ bs.length := by
  cases bs with
  | nil => exact absurd (h [] List.mem_cons_self).1 (by decide)
  | cons b bs => exact Nat.succ_pos _

/-- Settles O11: an accepted name has 1 to 253 bytes, and its wire form two more (`length_wire_split`). -/
theorem wireLengthLaw : Obligations.WireLengthLaw := by
  intro s w h
  obtain ⟨hn, s', hs, hl, rfl⟩ := encodeName_eq_ok.mp h
  cases hs
  have hwire := length_wire_split s
  have hpos := length_pos_of_labelsOk_split hl
  omega

/-- A command that writes TX leaves the TXLEN of its results on success, and 0 on an error (R235, R236). -/
theorem conclude_txlen {α : Type} {w : WriteSet} {s t : State} {r : Res α} {f : α → State} (hw : w.tx = true)
    (h : conclude w s r f = .next t) :
    (∃ a, r = .ok a ∧ t.errcode = 0 ∧ t.txlen = (f a).txlen) ∨ (t.errcode ≠ 0 ∧ t.txlen = 0) := by
  rcases conclude_eq_next h with ⟨a, ha, rfl⟩ | ⟨c, p, -, rfl⟩
  · exact .inl ⟨a, ha, rfl, rfl⟩
  · exact .inr ⟨c.code_ne_zero, by rw [State.fail_txlen, if_pos hw]⟩

/-- So a command that emits `k` bytes around the encoded name leaves TXLEN = NAMELEN + 2 + k, or 0 (R166). -/
theorem txlen_of_encodedName {w : WriteSet} {s s' t : State} {f : List Byte → State} {k : Nat} (hw : w.tx = true)
    (hk : k ≤ 16) (hf : ∀ out, (f out).txlen = BitVec.ofNat 9 (out.length + k))
    (h : conclude w s' (encodedName s) f = .next t) :
    t.txlen.toNat ≤ 255 + k ∧ (t.errcode ≠ 0 → t.txlen = 0) ∧
      (t.errcode = 0 → t.txlen.toNat = s.namelen.toNat + 2 + k) := by
  rcases conclude_txlen hw h with ⟨out, hout, he, hlen⟩ | ⟨he, hlen⟩
  · obtain ⟨hwire, hle⟩ := length_encodedName hout
    have htx : t.txlen.toNat = out.length + k := by rw [hlen, hf, toNat_ofNat_of_lt (by omega)]
    exact ⟨by omega, fun hne => absurd he hne, fun _ => by omega⟩
  · exact ⟨by rw [hlen]; exact Nat.zero_le _, fun _ => hlen, fun h0 => absurd h0 he⟩

/-- Settles O12: BUILD_HEADER emits twelve bytes, and the other three the encoded name with 0, 4 or 16 bytes around it
(`txlen_of_encodedName`). -/
theorem txlenBounds : Obligations.TxlenBounds := by
  intro i s t htx hw h
  cases i with
  | buildHeader =>
    cases (exec_buildHeader_ready (entropyReady_of_not_waits rfl hw)).symm.trans h
    exact ⟨show (BitVec.ofNat 9 12).toNat ≤ 271 by decide, fun he => absurd rfl he, fun _ => rfl⟩
  | encodeName =>
    obtain ⟨hle, herr, hok⟩ := txlen_of_encodedName (k := 0) rfl (by decide) (fun _ => rfl) h
    exact ⟨by omega, herr, fun he => ⟨hok he, hle⟩⟩
  | buildQuestion =>
    obtain ⟨hle, herr, hok⟩ := txlen_of_encodedName (k := 4) rfl (by decide)
      (fun out => congrArg (BitVec.ofNat 9) (length_questionBytes out)) h
    exact ⟨by omega, herr, fun he => ⟨hok he, hle⟩⟩
  | buildQuery =>
    rw [exec, execBuildQuery, withDraw_ready (entropyReady_of_not_waits rfl hw)] at h
    obtain ⟨hle, herr, hok⟩ := txlen_of_encodedName (s := s.takeDraw) (k := 16) rfl (by decide)
      (fun out => congrArg (BitVec.ofNat 9) (length_queryBytes _ out)) h
    exact ⟨hle, herr, fun he => ⟨hok he, hle⟩⟩
  | packFlags | unpackFlags | parseHeader | skipQuestion | resolveOwner | parseAnswer | decode =>
    exact absurd htx Bool.false_ne_true

/-! ### Two queries of one name (R167) -/

/-- Two query headers agree in every byte but those of the MessageID. -/
theorem getElem?_headerBytes_queryHeader (r r' : Word16) (bs : List Byte) {a : Nat} (ha : 2 ≤ a) :
    (headerBytes (queryHeader r') ++ bs)[a]? = (headerBytes (queryHeader r) ++ bs)[a]? := by
  rw [headerBytes_queryHeader, headerBytes_queryHeader, List.append_assoc, List.append_assoc,
    List.getElem?_append_right (l₁ := bytes16 r') ha, List.getElem?_append_right (l₁ := bytes16 r) ha,
    length_bytes16, length_bytes16]

/-- Settles O14: whether the name is encoded does not depend on the draw; if it is, the draw is the MessageID, in ID and in
the first two bytes of TX, and if not, the header is cleared. -/
theorem queriesDifferOnlyInId : Obligations.QueriesDifferOnlyInId := by
  intro r r' s t t' h h'
  rw [buildQueryWith] at h h'
  cases hname : encodedName s with
  | ok out =>
    rw [hname, conclude_ok] at h h'
    cases h; cases h'
    refine ⟨rfl, fun a ha => ?_, fun _ => ⟨rfl, rfl⟩⟩
    change (Memory.ofBytes 0 _).read a = (Memory.ofBytes 0 _).read a
    rw [Memory.read_ofBytes_zero, Memory.read_ofBytes_zero]
    exact getElem?_headerBytes_queryHeader r r' (questionBytes out) ha
  | raise c p =>
    rw [hname, conclude_raise] at h h'
    cases h; cases h'
    exact ⟨rfl, fun _ _ => rfl, fun he => absurd he c.code_ne_zero⟩
  | fault f => rw [hname, conclude_fault] at h; cases h

/-! ### The encoded name read back (R161, R195) -/

/-- The wire form of an accepted byte string resolves to it, wherever it stands in a message. -/
theorem resolveOwner_wire_split {m : Memory} {n c : Nat} {bs : List Byte} (hl : labelsOk (split bs))
    (hlen : bs.length ≤ 253) (hn : c + (bs.length + 2) ≤ n) (hm : holdsAt m c (wire (split bs))) :
    resolveOwner m n c = .ok ⟨kindLiteral, bs, bs.length + 2⟩ := by
  have hwire := length_wire_split bs
  rw [wire_eq_wireName] at hwire hm
  rw [resolveOwner_literal hl (by omega) (by omega) hm, join_split, hwire]

/-- A successful ENCODE_NAME leaves in TX the wire form of the bytes NAME holds (R160). -/
theorem exec_encodeName_success {s t : State} (h : exec .encodeName s = .next t) (he : t.errcode = 0) :
    ∃ bs, bs.length = s.namelen.toNat ∧ bs.length ≤ 253 ∧ holdsAt s.name 0 bs ∧ labelsOk (split bs) ∧
      t.tx = Memory.ofBytes 0 (wire (split bs)) ∧ t.txlen.toNat = bs.length + 2 ∧ t.rxCap = s.rxCap := by
  rcases execEncodeName_eq_next h with ⟨out, hout, rfl⟩ | ⟨c, p, -, rfl⟩
  · obtain ⟨hn, bs, hbs, hm, hl, rfl⟩ := encodedName_eq_ok.mp hout
    refine ⟨bs, hbs, by omega, hm, hl, rfl, ?_, rfl⟩
    have hwire := length_wire_split bs
    exact (toNat_ofNat_of_lt (by omega)).trans hwire
  · exact absurd he c.code_ne_zero

/-- Settles O27: TX holds the wire form of NAME's bytes (`exec_encodeName_success`), which resolves to them
(`resolveOwner_wire_split`); all lengths fit their registers. -/
theorem encodeThenResolveRecoversName : Obligations.EncodeThenResolveRecoversName := by
  intro s t h he hcap
  obtain ⟨bs, hbs, hle, hm, hl, htx, hlen, hcap'⟩ := exec_encodeName_success h he
  have hrx : (BitVec.ofNat 16 t.txlen.toNat).toNat = bs.length + 2 := by rw [toNat_ofNat_of_lt (by omega), hlen]
  have hres : resolveOwner t.tx (BitVec.ofNat 16 t.txlen.toNat).toNat 0 = .ok ⟨kindLiteral, bs, bs.length + 2⟩ := by
    rw [hrx, htx]
    exact resolveOwner_wire_split hl hle (by omega) (holdsAt_ofBytes _)
  have hfit : (BitVec.ofNat 16 t.txlen.toNat).toNat ≤ t.rxCap.toNat := by rw [hrx, hcap']; omega
  refine ⟨_, exec_resolveOwner_ok hfit hres, rfl, rfl, ?_, ?_, fun a ha => ?_⟩
  · exact (toNat_ofNat_of_lt (show bs.length + 2 < 2 ^ 8 by omega)).trans hlen.symm
  · exact (toNat_ofNat_of_lt (show bs.length < 2 ^ 8 by omega)).trans hbs
  · have hname := hm a (by omega)
    rw [Nat.zero_add] at hname
    exact (Memory.read_ofBytes_zero bs a).trans hname.symm

end Sys2Proof.Machine

/-! ### The owner-name decoder undoes the name encoder (R195) -/

namespace Sys2Proof.Machine

open Sys2Proof.Safety

/-- Settles O26: what the encoder accepts it writes as the wire form of the string's labels (`encodeName_eq_ok`), which
resolves to the string wherever it stands (`resolveOwner_wire_split`). -/
theorem nameRoundTrip : Obligations.NameRoundTrip := by
  intro s w m n c henc hm hn
  obtain ⟨hle, bs, hs, hl, rfl⟩ := encodeName_eq_ok.mp henc
  cases hs
  have hwire := length_wire_split s
  rw [hwire] at hn ⊢
  exact resolveOwner_wire_split hl hle hn hm

end Sys2Proof.Machine

/-! ### The header and the question (R181, R182, R186) -/

namespace Sys2Proof.Machine

open Sys2Proof.Safety

/-- Settles O15: the header that stands there is parsed (`parseHeader_eq_ok`), and its flags word unpacks to the fields
at its bits (`unpackFlags_eq_fieldsOf`). -/
theorem parseHeaderResult : Obligations.ParseHeaderResult := by
  intro s h hlen hn hm
  rw [exec_parseHeader_ok hlen (parseHeader_eq_ok.mpr ⟨hn, hm⟩), State.setParsedHeader, unpackFlags_eq_fieldsOf]
  rfl

/-- PARSE_HEADER of a message whose header raises an error (R236). -/
theorem exec_parseHeader_raise {s : State} {e : Cause} {p : Nat} (hlen : s.rxlen.toNat ≤ s.rxCap.toNat)
    (h : parseHeader s.rx s.rxlen.toNat = .raise e p) :
    exec .parseHeader s = .next (s.start.fail (writeSet .parseHeader) e p) := by
  rw [exec, execParseHeader, guardRxLen_pass (s := s.start) hlen, h, conclude_raise]

/-- Settles O16: the bounds check comes before any read (`parseHeader_eq_raise`), and the error clears the header
and its flag fields. -/
theorem shortHeaderRejected : Obligations.ShortHeaderRejected := fun _ hlen hn =>
  exec_parseHeader_raise hlen (parseHeader_eq_raise.mpr ⟨hn, rfl, rfl⟩)

/-- Settles O18: the offset is computed from QLEN alone, so that the result does not depend on what was echoed; the
premise says where R188 gives it a meaning. -/
theorem skipQuestionResult : Obligations.SkipQuestionResult := fun _ _ => rfl

/-- Settles O19: the command has no branch that ends in an error, and stays inside its write set as every command
does. -/
theorem skipQuestionNeverFails : Obligations.SkipQuestionNeverFails := fun _ =>
  ⟨_, rfl, rfl, rfl, rfl, UnchangedOutside.exec rfl⟩

/-- Settles O39: each of the four commands tests RXLEN before it does anything else (`guardRxLen_fail`). -/
theorem badLengthWritesNothing : Obligations.BadLengthWritesNothing := by
  intro i s hi hlen
  cases i with
  | parseHeader | resolveOwner | parseAnswer | decode => exact guardRxLen_fail (s := s.start) hlen
  | packFlags | unpackFlags | buildHeader | encodeName | buildQuestion | buildQuery | skipQuestion =>
    exact absurd hi Bool.false_ne_true

end Sys2Proof.Machine

/-! ### The owner names that end too early or run too long (R191 to R193, R231) -/

namespace Sys2Proof.Machine

open Sys2Proof.Safety

/-- At or beyond the end of the message there is no owner name (R191). -/
theorem resolveOwner_beyond {m : Memory} {n c : Nat} (hn : n ≤ c) : resolveOwner m n c = .raise .noOwnerBytes c := by
  rw [resolveOwner, needRx_fail (by omega) (le_refl 1), Res.bind_raise]

/-- The walk at the end of the message finds no length byte (R192). -/
theorem literalWalk_at_end (m : Memory) (n c fuel : Nat) (acc : List (List Byte)) :
    literalWalk m n c (fuel + 1) n acc = .raise .nameRunsOut n := by
  rw [literalWalk, needRx_fail (Nat.lt_succ_self n) (le_refl 1), Res.bind_raise]

/-- The walk at the length byte of a label first tests that the message holds the label, then that the name has room for
it; only then does it read the label (R192). -/
theorem literalWalk_label_byte {m : Memory} {n c fuel p : Nat} {acc : List (List Byte)} {b : Byte} (hp : p < n)
    (hb : m.read p = some b) (hlo : 1 ≤ b.toNat) (hhi : b.toNat ≤ 63) :
    literalWalk m n c (fuel + 1) p acc = (needRx n (p + 1) b.toNat .nameRunsOut p).bind fun _ =>
      if Config.maxNameWire < (p + 1 + b.toNat - c) + 1 then .raise .literalTooLong p
      else (rxBytes m (p + 1) b.toNat).bind fun label =>
        literalWalk m n c fuel (p + 1 + b.toNat) (acc ++ [label]) := by
  rw [literalWalk_byte hp hb, if_neg (by omega), if_neg (by omega), if_neg (by omega)]

/-- The byte of a legal label's length begins no pointer. -/
theorem ne_ptrHi_of_le {b : Byte} (h : b.toNat ≤ 63) : b ≠ 0xC0 := fun hb => absurd h (by rw [hb]; decide)

/-- Settles O21: the first bounds check of the owner name fails. -/
theorem noOwnerBytes : Obligations.NoOwnerBytes := fun _ hlen hn =>
  exec_resolveOwner_raise hlen (resolveOwner_beyond hn)

/-- Settles O24: after its labels the walk stands at the end of the message (`literalWalk_at_end`), or at the length
byte of a label whose bytes the message does not hold. -/
theorem nameRunsOutRejected : Obligations.NameRunsOutRejected := by
  constructor
  · intro s ls hw hne hend
    obtain ⟨hlen, hl, hroom, hn, hm⟩ := hw
    have hcount := two_mul_length_le hl
    have hpos := List.length_pos_iff.mpr hne
    obtain ⟨fuel, hwalk⟩ := resolveOwner_walk (pointerAt_labels hne hl hm) hl hroom (by omega) hn hm
    rw [hend, literalWalk_at_end] at hwalk
    exact exec_resolveOwner_raise hlen hwalk
  · intro s ls b hw hin hb hlo hhi hout
    obtain ⟨fuel, hwalk⟩ := resolveOwner_of_walked hw hin hb fun _ h => absurd h (ne_ptrHi_of_le hhi)
    rw [literalWalk_label_byte hin hb hlo hhi, needRx_fail hout hlo, Res.bind_raise] at hwalk
    exact exec_resolveOwner_raise hw.1 hwalk

/-- Settles O25: the message holds the label, but the name has no room for it; the test stands before the read of the
label's bytes (`literalWalk_label_byte`). -/
theorem literalTooLongRejected : Obligations.LiteralTooLongRejected := by
  intro s ls b hw hb hlo hhi hin hlong
  have hlt : s.ansoff.toNat + (wirePrefix ls).length < s.rxlen.toNat := by omega
  obtain ⟨fuel, hwalk⟩ := resolveOwner_of_walked hw hlt hb fun _ h => absurd h (ne_ptrHi_of_le hhi)
  rw [literalWalk_label_byte hlt hb hlo hhi, needRx_pass hin, Res.bind_ok,
    if_pos (by unfold Config.maxNameWire; omega)] at hwalk
  exact exec_resolveOwner_raise hw.1 hwalk

end Sys2Proof.Machine

/-! ### Records that end too early, and where errors stand (R197, R198, R207) -/

namespace Sys2Proof.Machine

open Sys2Proof.Safety

/-- An owner name with fewer than ten bytes after it is no record (R197). -/
theorem parseRecord_fixedFields_short {m : Memory} {n c : Nat} {o : OwnerForm} (ho : ownerFormOk o)
    (hm : holdsAt m c (ownerWire o)) (hn : c + (ownerWire o).length ≤ n) (hshort : n < c + (ownerWire o).length + 10) :
    parseRecord m n c = .raise .fixedFields (c + (ownerWire o).length) := by
  obtain ⟨name, hres, -, hcons⟩ := resolveOwner_of_form ho hn hm
  rw [parseRecord, hres, Res.bind_ok, hcons, fixedFields_eq_raise.mpr ⟨hshort, rfl, rfl⟩, Res.bind_raise]

/-- Nor is one with fewer than RDLENGTH bytes after its fixed fields (R198). -/
theorem parseRecord_rdata_short {m : Memory} {n c : Nat} {o : OwnerForm} {f : FixedFields} (ho : ownerFormOk o)
    (hm : holdsAt m c (ownerWire o ++ fixedBytes f.atype f.aclass f.ttl f.rdlength))
    (hn : c + (ownerWire o).length + 10 ≤ n) (hshort : n < c + (ownerWire o).length + 10 + f.rdlength.toNat) :
    parseRecord m n c = .raise .rdata (c + (ownerWire o).length + 10) := by
  obtain ⟨hname, hfix⟩ := holdsAt_append.mp hm
  obtain ⟨name, hres, -, hcons⟩ := resolveOwner_of_form ho (show c + (ownerWire o).length ≤ n by omega) hname
  rw [parseRecord, hres, Res.bind_ok, hcons, fixedFields_eq_ok.mpr ⟨hn, hfix⟩, Res.bind_ok, Config.rrFixedLen,
    takeRData, needRx_fail hshort (by omega), Res.bind_raise, Res.bind_raise]

/-- Settles O30: the ten bytes are not there (`parseRecord_fixedFields_short`), and the error clears both groups. -/
theorem fixedFieldsTruncated : Obligations.FixedFieldsTruncated := fun _ _ hlen ho hm hn hshort =>
  exec_parseAnswer_raise hlen (parseRecord_fixedFields_short ho hm hn hshort)

/-- Settles O31: RDATA is not there whole (`parseRecord_rdata_short`), and the error clears both groups. -/
theorem rDataTruncated : Obligations.RDataTruncated := fun _ _ ty cl ttl rdlen hlen ho hm hn hshort =>
  exec_parseAnswer_raise hlen (parseRecord_rdata_short (f := ⟨ty, cl, ttl, rdlen⟩) ho hm hn hshort)

/-- Settles O34: the header is parsed, the record behind the question is taken with its address (`parseRecord_of_bytes`,
`takeRData_addr`), and DECODE writes both. That the question was echoed says what the record means (R188), not that it
parses. -/
theorem decodeAddressResponse : Obligations.DecodeAddressResponse := by
  intro s h o cl ttl b0 b1 b2 b3 hlen _ ho hh hn hm
  obtain ⟨hfix, hrd⟩ := holdsAt_append.mp hm
  rw [List.length_append, ← Nat.add_assoc] at hrd
  obtain ⟨r, hr, hgroup, hans, hstop⟩ := parseRecord_of_bytes (f := ⟨1, cl, ttl, 4⟩) ho (by omega) hfix
    (takeRData_addr hn rfl rfl hrd)
  have hhead : parseHeader s.rx s.rxlen.toNat = .ok h := parseHeader_eq_ok.mpr ⟨by omega, hh⟩
  rw [exec_decode_ok (hr := (h, r)) hlen (decodeStages_eq_ok.mpr ⟨hhead, hr⟩), setRecord_succeed, hgroup, hans, hstop,
    State.setParsedHeader, unpackFlags_eq_fieldsOf]
  rfl

/-- Settles O37: an error of the owner name stands where `resolveOwner_eq_raise` bounds it, and one of the record's own
stages behind an owner name that lies inside the message. -/
theorem errorPositionsFit : Obligations.ErrorPositionsFit := by
  intro m n c e p h
  rcases parseRecord_eq_raise h with hname | ⟨o, -, hn, ⟨-, rfl⟩ | ⟨-, rfl, hp⟩⟩
  · exact (resolveOwner_eq_raise hname).2
  · omega
  · omega

end Sys2Proof.Machine

/-! ### The address string (R200) -/

namespace Sys2Proof.Machine

open Sys2Proof.Safety

theorem toNat_digit {d : Nat} (h : d < 10) : (digit d).toNat = 0x30 + d := toNat_ofNat_of_lt (by omega)

/-- Only the digit of 0 is a zero. -/
theorem digit_ne_zero {d : Nat} (h0 : 0 < d) (h : d < 10) : digit d ≠ 0x30 := by
  intro hd
  have hval := toNat_digit h
  have hzero : (0x30 : Byte).toNat = 0x30 := rfl
  rw [hd, hzero] at hval
  omega

/-- R200: `dec` is the decimal of its byte, whether that has one, two or three digits. -/
theorem isDecimal_dec (b : Byte) : isDecimal (dec b) b.toNat := by
  have hb := b.isLt
  unfold dec
  split
  · next h1 =>
    have hd := toNat_digit h1
    exact ⟨List.cons_ne_nil _ _, List.forall_mem_singleton.mpr (by omega), by simp only [List.foldl]; omega,
      fun _ => rfl⟩
  · next h1 =>
    have hones := toNat_digit (show b.toNat % 10 < 10 by omega)
    split
    · next h2 =>
      have htens := toNat_digit (show b.toNat / 10 < 10 by omega)
      have hlead := digit_ne_zero (show 0 < b.toNat / 10 by omega) (by omega)
      exact ⟨List.cons_ne_nil _ _, List.forall_mem_cons.mpr ⟨by omega, List.forall_mem_singleton.mpr (by omega)⟩,
        by simp only [List.foldl]; omega, fun h => absurd (Option.some.inj h) hlead⟩
    · next h2 =>
      have htens := toNat_digit (show b.toNat % 100 / 10 < 10 by omega)
      have hhundreds := toNat_digit (show b.toNat / 100 < 10 by omega)
      have hlead := digit_ne_zero (show 0 < b.toNat / 100 by omega) (by omega)
      exact ⟨List.cons_ne_nil _ _,
        List.forall_mem_cons.mpr ⟨by omega, List.forall_mem_cons.mpr ⟨by omega,
          List.forall_mem_singleton.mpr (by omega)⟩⟩,
        by simp only [List.foldl]; omega, fun h => absurd (Option.some.inj h) hlead⟩

/-- A decimal has digits only, and so no separator. -/
theorem sep_not_mem_of_isDecimal {p : List Byte} {n : Nat} (h : isDecimal p n) : Config.sep ∉ p := by
  obtain ⟨-, hdigits, -, -⟩ := h
  exact fun hmem => absurd (hdigits _ hmem).1 (by decide)

/-- A byte string is the decimal of one number at most. -/
theorem isDecimal_unique {p : List Byte} {n n' : Nat} (h : isDecimal p n) (h' : isDecimal p n') : n = n' := by
  obtain ⟨-, -, hval, -⟩ := h
  obtain ⟨-, -, hval', -⟩ := h'
  exact hval.symm.trans hval'

theorem dec_injective : Function.Injective dec := fun a b h =>
  BitVec.eq_of_toNat_eq (isDecimal_unique (isDecimal_dec a) (h ▸ isDecimal_dec b))

/-- The address string is a text form of four labels (R99): the separator of names is its dot. -/
theorem dottedQuad_eq_join (a b c d : Byte) : dottedQuad a b c d = join [dec a, dec b, dec c, dec d] := by
  simp [dottedQuad, join, Config.sep]

theorem split_dottedQuad (a b c d : Byte) : split (dottedQuad a b c d) = [dec a, dec b, dec c, dec d] := by
  have hdec (x : Byte) : Config.sep ∉ dec x := sep_not_mem_of_isDecimal (isDecimal_dec x)
  rw [dottedQuad_eq_join]
  exact split_join (List.cons_ne_nil _ _) (by simp [noSep, hdec])

theorem length_dec_pos (b : Byte) : 1 ≤ (dec b).length := List.length_pos_iff.mpr (isDecimal_dec b).1

theorem le_length_dottedQuad (a b c d : Byte) : 7 ≤ (dottedQuad a b c d).length := by
  have ha := length_dec_pos a
  have hb := length_dec_pos b
  have hc := length_dec_pos c
  have hd := length_dec_pos d
  simp only [dottedQuad, List.length_append, List.length_singleton]
  omega

/-- Settles O36: the parts are the decimals of the bytes (`isDecimal_dec`), of one to three digits each; the string
splits back into them (`split_dottedQuad`), and a decimal has one byte (`dec_injective`). -/
theorem dottedQuadIsFaithful : Obligations.DottedQuadIsFaithful := by
  refine ⟨fun a b c d => ?_, fun a b c d => ⟨le_length_dottedQuad a b c d, length_dottedQuad_le a b c d⟩, ?_⟩
  · exact ⟨dec a, dec b, dec c, dec d, by simp [dottedQuad], isDecimal_dec a, isDecimal_dec b, isDecimal_dec c,
      isDecimal_dec d⟩
  · intro a b c d a' b' c' d' h
    have hparts := congrArg split h
    simpa only [split_dottedQuad, List.cons.injEq, dec_injective.eq_iff, and_true] using hparts

end Sys2Proof.Machine

/-! ### Commands whose inputs are written complete (R180, R273, R290) -/

namespace Sys2Proof.Machine

open Sys2Proof.Safety

/-- A byte without a value leaves the range it lies in not written. -/
theorem written_eq_false {m : Memory} {a k x : Nat} (ha : a ≤ x) (hx : x < a + k) (h : m.read x = none) :
    written m a k = false := by
  induction k generalizing a with
  | zero => omega
  | succ k ih =>
    by_cases hax : a = x
    · rw [written, hax, h]; rfl
    · rw [written, ih (by omega) (by omega), Bool.and_false]

/-- The test of RXLEN stops nothing by itself: a command that faults behind it faults in its work. -/
theorem guardRxLen_eq_fault {s : State} {k : Host.Outcome State Fault Refusal} {f : Fault}
    (h : guardRxLen s k = .fault f) : k = .fault f := by
  rcases guardRxLen_cases s k with ⟨-, hg⟩ | ⟨-, hg⟩ <;> rw [hg] at h
  · cases h
  · exact h

/-- Nor does the test refuse a command. -/
theorem guardRxLen_ne_refused {s : State} {k : Host.Outcome State Fault Refusal} {r : Refusal} (h : k ≠ .refused r) :
    guardRxLen s k ≠ .refused r := by
  rcases guardRxLen_cases s k with ⟨-, hg⟩ | ⟨-, hg⟩ <;> rw [hg]
  · exact nofun
  · exact h

/-- A command that waits for its draw has not stopped: a fault comes with the draw. -/
theorem withDraw_eq_fault {i : Instr} {s : State} {k : Word16 → State → Host.Outcome State Fault Refusal} {f : Fault}
    (h : withDraw i s k = .fault f) : k (Config.draw16 s.draws) s.takeDraw = .fault f := by
  cases hr : s.entropyReady with
  | false => rw [withDraw_wait hr] at h; cases h
  | true => rwa [withDraw_ready hr] at h

theorem withDraw_ne_refused {i : Instr} {s : State} {k : Word16 → State → Host.Outcome State Fault Refusal}
    {r : Refusal} (h : k (Config.draw16 s.draws) s.takeDraw ≠ .refused r) : withDraw i s k ≠ .refused r := by
  cases hr : s.entropyReady with
  | false => rw [withDraw_wait hr]; exact nofun
  | true => rwa [withDraw_ready hr]

/-- A command faults only at a byte of its inputs that nothing has written (R273). -/
theorem exec_eq_fault {i : Instr} {s : State} {f : Fault} (h : exec i s = .fault f) :
    inputsWritten s i = false ∧ ∃ sp a, f = .unwrittenByte sp a := by
  have hname (h : encodedName s = .fault f) :
      written s.name 0 s.namelen.toNat = false ∧ ∃ sp a, f = .unwrittenByte sp a := by
    obtain ⟨a, ha, hread, hf⟩ := encodedName_eq_fault h
    exact ⟨written_eq_false (Nat.zero_le a) (by omega) hread, _, _, hf⟩
  have hrx (h : ∃ a < s.rxlen.toNat, s.rx.read a = none ∧ f = .unwrittenByte .rx a) :
      written s.rx 0 s.rxlen.toNat = false ∧ ∃ sp a, f = .unwrittenByte sp a := by
    obtain ⟨a, ha, hread, hf⟩ := h
    exact ⟨written_eq_false (Nat.zero_le a) (by omega) hread, _, _, hf⟩
  cases i with
  | packFlags | unpackFlags | skipQuestion => cases h
  | buildHeader => cases withDraw_eq_fault h
  | encodeName | buildQuestion => exact hname (conclude_eq_fault h)
  | buildQuery => exact hname (conclude_eq_fault (withDraw_eq_fault h))
  | parseHeader =>
    obtain ⟨a, ha12, ha, hread, hf⟩ := parseHeader_eq_fault (conclude_eq_fault (guardRxLen_eq_fault h))
    exact ⟨written_eq_false (Nat.zero_le a) (by omega) hread, _, _, hf⟩
  | resolveOwner => exact hrx (resolveOwner_eq_fault (conclude_eq_fault (guardRxLen_eq_fault h)))
  | parseAnswer => exact hrx (parseRecord_eq_fault (conclude_eq_fault (guardRxLen_eq_fault h)))
  | decode => exact hrx (decodeStages_eq_fault (conclude_eq_fault (guardRxLen_eq_fault h)))

/-- No command is refused (R180). -/
theorem exec_ne_refused (i : Instr) (s : State) (r : Refusal) : exec i s ≠ .refused r := by
  cases i with
  | packFlags | unpackFlags | skipQuestion => exact nofun
  | buildHeader => exact withDraw_ne_refused nofun
  | encodeName | buildQuestion => exact conclude_ne_refused _ _ _ _ _
  | buildQuery => exact withDraw_ne_refused (conclude_ne_refused _ _ _ _ _)
  | parseHeader | resolveOwner | parseAnswer | decode => exact guardRxLen_ne_refused (conclude_ne_refused _ _ _ _ _)

/-- A command that does not wait for a draw ends with BUSY = 0 and DONE = 1 (R25). -/
theorem exec_next_completed {i : Instr} {s t : State} (hw : waits s i = false) (h : exec i s = .next t) :
    t.busy = false ∧ t.doneBit = true := by
  have hstatus : t.status = statusDone ∨ t.status = statusError := by
    rcases exec_eq_next h with ⟨hwait, -⟩ | ⟨-, -, hs⟩ | ⟨-, -, rfl⟩ | ⟨s', c, p, -, rfl, -⟩
    · exact absurd (hw.symm.trans hwait) Bool.false_ne_true
    · exact .inl hs
    · exact .inr rfl
    · exact .inr rfl
  unfold State.busy State.doneBit
  rcases hstatus with hs | hs <;> rw [hs] <;> decide

/-- Settles O43: a command answers a next state, with which it has ended (`exec_next_completed`), or faults where its
inputs are not written (`exec_eq_fault`); the third answer, a refusal, it never gives. -/
theorem commandsComplete : Obligations.CommandsComplete := by
  refine ⟨fun i s hin hw => ?_, exec_ne_refused, fun i s f h => (exec_eq_fault h).2⟩
  cases h : exec i s with
  | next t => exact ⟨t, rfl, exec_next_completed hw h⟩
  | fault f => exact absurd (hin.symm.trans (exec_eq_fault h).1) nofun
  | refused r => exact absurd h (exec_ne_refused i s r)

end Sys2Proof.Machine

/-! ### The state of the Decoder a command reports (R205, R206) -/

namespace Sys2Proof.Machine

open Sys2Proof.Safety

/-- CommandError is raised in no state of the Decoder (R204, R234). -/
theorem code_ne_five_of_stage {c : Cause} {d : DState} (h : c.stage = some d) : c.code ≠ 5 := by
  cases c <;> cases h <;> decide

/-- An error of a command that writes DSTATE leaves there the state in which its cause arises (R236). -/
theorem fail_dstate_of_stage {w : WriteSet} {c : Cause} {d : DState} (hw : w.dstate = true) (hd : c.stage = some d)
    (s : State) (p : Nat) : (s.fail w c p).dstate = d.num := by
  rw [State.fail_dstate, if_pos hw, hd]

/-- A header fails in AwaitingHeader. -/
theorem parseHeader_stage_num {m : Memory} {n p : Nat} {c : Cause} (h : parseHeader m n = .raise c p) :
    ∃ d, c.stage = some d ∧ d.num = 0 := by
  obtain ⟨-, rfl, -⟩ := parseHeader_eq_raise.mp h
  exact ⟨_, rfl, rfl⟩

/-- An owner name fails in AwaitingOwnerName. -/
theorem resolveOwner_stage_num {m : Memory} {n k p : Nat} {c : Cause} (h : resolveOwner m n k = .raise c p) :
    ∃ d, c.stage = some d ∧ d.num = 2 := ⟨_, owner_stage (resolveOwner_eq_raise h).1, rfl⟩

/-- A record fails in one of the three states that parse it. -/
theorem parseRecord_stage_num {m : Memory} {n k p : Nat} {c : Cause} (h : parseRecord m n k = .raise c p) :
    ∃ d, c.stage = some d ∧ (d.num = 2 ∨ d.num = 3 ∨ d.num = 4) := by
  rcases parseRecord_causes h with howner | rfl | rfl
  · exact ⟨_, owner_stage howner, .inl rfl⟩
  · exact ⟨_, rfl, .inr (.inl rfl)⟩
  · exact ⟨_, rfl, .inr (.inr rfl)⟩

/-- DECODE fails in the state that parses the header or in one of the three that parse the record. -/
theorem decodeStages_stage_num {s : State} {c : Cause} {p : Nat} (h : decodeStages s = .raise c p) :
    ∃ d, c.stage = some d ∧ (d.num = 0 ∨ d.num = 2 ∨ d.num = 3 ∨ d.num = 4) := by
  rcases decodeStages_eq_raise.mp h with hheader | ⟨-, -, hrecord⟩
  · obtain ⟨d, hd, hnum⟩ := parseHeader_stage_num hheader
    exact ⟨d, hd, .inl hnum⟩
  · obtain ⟨d, hd, hnum⟩ := parseRecord_stage_num hrecord
    exact ⟨d, hd, .inr hnum⟩

/-- What a command that reads RX reports in DSTATE: after CommandError what stood there, after a success what its
results say, and after another error the state in which its cause arises. -/
theorem guarded_dstate {α : Type} {w : WriteSet} {s t : State} {r : Res α} {f : α → State} (ok : BitVec 3)
    (failed : BitVec 3 → Prop) (h : guardRxLen s (conclude w s r f) = .next t) (hw : w.dstate = true)
    (hf : ∀ a, (f a).dstate = ok) (hr : ∀ c p, r = .raise c p → ∃ d, c.stage = some d ∧ failed d.num) :
    if t.errcode = 5 then t.dstate = s.dstate ∧ t.cur = s.cur
    else if t.errcode = 0 then t.dstate = ok else failed t.dstate := by
  rcases guardRxLen_cases s (conclude w s r f) with ⟨-, hg⟩ | ⟨-, hg⟩ <;> rw [hg] at h
  · cases h
    exact ⟨rfl, rfl⟩
  · rcases conclude_eq_next h with ⟨a, -, rfl⟩ | ⟨c, p, hc, rfl⟩
    · exact hf a
    · obtain ⟨d, hd, hfailed⟩ := hr c p hc
      rw [State.fail_errcode, if_neg (code_ne_five_of_stage hd), if_neg c.code_ne_zero, fail_dstate_of_stage hw hd]
      exact hfailed

/-- Settles O46: each command that reads RX reports by `guarded_dstate`, with the state its results name and the states
its causes arise in. R188's premise is not used: the report does not depend on what was echoed. -/
theorem dstateReports : Obligations.DstateReports := by
  intro i s t hi _ h
  cases i with
  | skipQuestion => cases h; exact ⟨rfl, rfl⟩
  | parseHeader =>
    simp only [apply_ite (t.dstate = ·)]
    exact guarded_dstate (s := s.start) 1 (· = 0) h rfl (fun _ => rfl)
      fun _ _ => parseHeader_stage_num
  | resolveOwner =>
    simp only [apply_ite (t.dstate = ·)]
    exact guarded_dstate (s := s.start) 3 (· = 2) h rfl (fun _ => rfl)
      fun _ _ => resolveOwner_stage_num
  | parseAnswer =>
    exact guarded_dstate (s := s.start) 5 (fun d => d = 2 ∨ d = 3 ∨ d = 4) h rfl (fun _ => rfl)
      fun _ _ => parseRecord_stage_num
  | decode =>
    exact guarded_dstate (s := s.start) 5 (fun d => d = 0 ∨ d = 2 ∨ d = 3 ∨ d = 4) h rfl (fun _ => rfl)
      fun _ _ => decodeStages_stage_num
  | packFlags | unpackFlags | buildHeader | encodeName | buildQuestion | buildQuery =>
    exact absurd hi Bool.false_ne_true

end Sys2Proof.Machine

/-! ### What an error clears (R236) -/

namespace Sys2Proof.Machine

open Sys2Proof.Safety

/-- A command that writes the header group writes FLAGS with it (R35). -/
theorem writeSet_flags_of_hdr {i : Instr} (hw : (writeSet i).hdr = true) : (writeSet i).flags = true := by
  cases i with
  | buildHeader | buildQuery | parseHeader | decode => rfl
  | packFlags | unpackFlags | encodeName | buildQuestion | skipQuestion | resolveOwner | parseAnswer =>
    exact absurd hw Bool.false_ne_true

/-- A write set that holds the whole header group clears all of it. -/
theorem Header.clear_eq_zero {w : WriteSet} (hf : w.flags = true) (hw : w.hdr = true) (h : Header) :
    h.clear w = Header.zero := by
  simp only [Header.clear, hf, hw, if_true, Header.zero]

/-- A command that ends with ERRCODE 1 to 4 has raised its error: it did not succeed or wait, and was no CommandError. -/
theorem exists_fail_of_errcode {i : Instr} {s t : State} (h : exec i s = .next t) (h0 : t.errcode ≠ 0)
    (h5 : t.errcode ≠ 5) : ∃ s' c p, t = State.fail (writeSet i) c p s' := by
  rcases exec_eq_next h with ⟨-, rfl⟩ | ⟨he, -⟩ | ⟨-, -, rfl⟩ | ⟨s', c, p, -, ht, -⟩
  · exact absurd rfl h0
  · exact absurd he h0
  · exact absurd rfl h5
  · exact ⟨s', c, p, ht⟩

/-- Settles O41: such an error was raised (`exists_fail_of_errcode`), and `State.fail` clears the write set group by
group. R188's premise is not used: the clearing does not depend on what was echoed. -/
theorem errorClearsWriteSet : Obligations.ErrorClearsWriteSet := by
  intro i s t _ h h0 h5
  obtain ⟨s', c, p, rfl⟩ := exists_fail_of_errcode h h0 h5
  exact ⟨fun hw => if_pos hw, fun hw => Header.clear_eq_zero (writeSet_flags_of_hdr hw) hw s'.hdr,
    fun hw => if_pos hw, fun hw => ⟨if_pos hw, if_pos hw⟩, fun hw => if_pos hw, fun hw => if_pos hw,
    fun hw => if_pos hw⟩

end Sys2Proof.Machine

/-! ### The draws a command takes (R237, R252, R253) -/

namespace Sys2Proof.Machine

open Sys2Proof.Safety

/-- The end of a command takes no draw, whether it succeeds or fails. -/
theorem conclude_draws {α : Type} {w : WriteSet} {s t : State} {r : Res α} {f : α → State}
    (h : conclude w s r f = .next t) (hf : ∀ a, (f a).draws = s.draws) : t.draws = s.draws := by
  rcases conclude_eq_next h with ⟨a, -, rfl⟩ | ⟨c, p, -, rfl⟩
  · exact hf a
  · rfl

/-- Nor does it where the command first tests RXLEN. -/
theorem guarded_draws {α : Type} {w : WriteSet} {s t : State} {r : Res α} {f : α → State}
    (h : guardRxLen s (conclude w s r f) = .next t) (hf : ∀ a, (f a).draws = s.draws) : t.draws = s.draws := by
  rcases guardRxLen_cases s (conclude w s r f) with ⟨-, hg⟩ | ⟨-, hg⟩ <;> rw [hg] at h
  · cases h
    rfl
  · exact conclude_draws h hf

/-- A command that needs a draw takes it where the source answers, if its work takes no other, and none while it waits. -/
theorem withDraw_draws {i : Instr} {s t : State} {k : Word16 → State → Host.Outcome State Fault Refusal}
    (h : withDraw i s k = .next t)
    (hk : k (Config.draw16 s.draws) s.takeDraw = .next t → t.draws = s.takeDraw.draws) :
    t.draws = s.draws + if s.entropyReady then 1 else 0 := by
  rcases withDraw_eq_next h with ⟨hr, rfl⟩ | ⟨hr, hnext⟩
  · rw [hr]; rfl
  · rw [hr]; exact hk hnext

/-- Settles O44: the two commands that need a draw by `withDraw_draws`; the others run to their end without one. -/
theorem drawsTaken : Obligations.DrawsTaken := by
  intro i s t h
  cases i with
  | packFlags | unpackFlags | skipQuestion => cases h; rfl
  | buildHeader => exact withDraw_draws h fun hk => by cases hk; rfl
  | buildQuery => exact withDraw_draws h fun hk => conclude_draws (s := s.takeDraw.start) hk fun _ => rfl
  | encodeName | buildQuestion => exact conclude_draws (s := s.start) h fun _ => rfl
  | parseHeader | resolveOwner | parseAnswer | decode => exact guarded_draws (s := s.start) h fun _ => rfl

end Sys2Proof.Machine
